-- ==== Sys2Proof/Word.lean ====
section
/-!
DEFINITION. The word type of the instruction store and the plain types of the values the block handles.
Only the instruction word is treated as bits by the spec (00_scope.md R11, 30_encoding.md R110); every other
value is a mathematical number.
-/
namespace Sys2Proof

/-- `Word24` (00_scope.md R11): one instruction word (30_encoding.md R110). -/
abbrev Word24 := BitVec 24

/-- A Unicode code point of the IO channel (10_state.md R48, R49), as the natural number it is. The spec gives code points
no range, and every natural number is admitted, also above 0x10FFFF (DESIGN CHOICE, safe: log entry 25). -/
abbrev CodePoint := Nat

/-- Text: a finite sequence of code points, index 0 first (43_memory_io.md, preamble). -/
abbrev Text := List CodePoint

/-- A piston id (10_state.md R32). -/
abbrev PistonId := Nat

/-- A name of `REGS` (00_scope.md R8). The spec gives no names, so a name is a number without meaning
(DESIGN CHOICE, safe: log entry 5). -/
abbrev RegName := Nat

/-- A value of `OPTS` (00_scope.md R8): a token the block stores and never interprets (10_state.md R36).
No definition of the model computes with one (DESIGN CHOICE, safe: log entry 5). -/
abbrev Opts := Nat

end Sys2Proof
end

