-- ==== Sys2Proof/Syntax.lean ====
section
/-!
DEFINITION. Syntax: the instructions (one constructor per row of spec/opcode_table.json), the decoded call
record, the primitives a handler may use, handler programs, and the plain-data notation in which a registry
entry writes its program.
-/
namespace Sys2Proof

/-- `Dir` (10_state.md R34), in the spec's clockwise order. -/
inductive Dir
  | up | right | down | left
  deriving DecidableEq, Repr, Inhabited

/-- The side of an anchor on which an entrant is inserted (00_scope.md R17, 42_scheduler.md R256). -/
inductive Side
  | left | right
  deriving DecidableEq, Repr, Inhabited

/-- The operand of `FORK` (42_scheduler.md R260). -/
inductive ForkDir
  | left | right | reverse
  deriving DecidableEq, Repr, Inhabited

/-- The two meta layouts of `family_layout` (40_decode_dispatch.md R156). -/
inductive MetaLayout
  | a | b
  deriving DecidableEq, Repr, Inhabited

/-- The category of a control code, `layout(cc)` (30_encoding.md R112). -/
inductive Layout
  | none | plain | metaA | metaB
  deriving DecidableEq, Repr, Inhabited

/-- The instructions: one constructor per row of the opcode table (30_encoding.md R118). Each constructor holds
every bit of its word that the row does not fix, so that a word and its instruction determine each other.
The bits an error row does not name (`x` in its pattern) are its `rest`. -/
inductive Instr
  /-- `META_D5` (40_decode_dispatch.md R168). -/
  | metaD5 (reg : BitVec 3) (opts : BitVec 2) (arg : BitVec 12)
  /-- `PLAIN_DISPATCH`: run the handler bound to `(cc)` (40_decode_dispatch.md R153). -/
  | plainDispatch (cc : BitVec 4) (tail : BitVec 20)
  /-- `META_A_DISPATCH`: run the register-family handler bound to `(cc, mc)` (R154, R155). -/
  | metaADispatch (cc : BitVec 4) (mc : BitVec 3) (reg : BitVec 3) (opts : BitVec 2) (arg : BitVec 12)
  /-- `META_B_DISPATCH`: run the generic-family handler bound to `(cc, mc)` (R154, R155). -/
  | metaBDispatch (cc : BitVec 4) (mc : BitVec 3) (arg : BitVec 17)
  /-- `DECODE_ERROR_CC`: a control code without a category (R152). -/
  | decodeErrorCc (cc : BitVec 4) (rest : BitVec 20)
  /-- `DECODE_ERROR_MC`: a meta family without a handler for the meta command (R154). -/
  | decodeErrorMc (cc : BitVec 4) (mc : BitVec 3) (rest : BitVec 17)
  /-- `INVALID_REGISTER_SELECTOR`: a layout-A word whose selector names no register (R155). -/
  | invalidRegisterSelector (cc : BitVec 4) (mc : BitVec 3) (reg : BitVec 3) (rest : BitVec 14)
  deriving DecidableEq, Repr

/-- The decoded record a handler receives (30_encoding.md R117). -/
inductive Decoded
  | plain (word : Word24) (cc : BitVec 4) (tail : BitVec 20)
  | metaA (word : Word24) (cc : BitVec 4) (mc : BitVec 3) (reg : BitVec 3) (opts : BitVec 2) (arg : BitVec 12)
  | metaB (word : Word24) (cc : BitVec 4) (mc : BitVec 3) (arg : BitVec 17)
  deriving DecidableEq, Repr

/-- The closed set of primitives (40_decode_dispatch.md R158). -/
inductive Prim
  | move (n : Int)
  | turnLeft
  | turnRight
  | reverse
  | getReg (r : RegName)
  | setReg (r : RegName) (v : Int) (o : Opts)
  | getPos
  | getDir
  | getPrio
  | endPiston
  | fork (d : ForkDir)
  | setPriority (v : Int)
  | kill
  | memRead (a : Nat)
  | memWrite (a v : Nat)
  | inNum
  | inChar
  | outNum (n : Nat)
  | outToken (t : Text)
  deriving DecidableEq, Repr

/-- The type of a primitive's result: the column "result" of the table of 40_decode_dispatch.md R158. -/
@[reducible] def Prim.Result : Prim → Type
  | .move _ => Unit
  | .turnLeft => Unit
  | .turnRight => Unit
  | .reverse => Unit
  | .getReg _ => Nat
  | .setReg _ _ _ => Unit
  | .getPos => Nat × Nat
  | .getDir => Dir
  | .getPrio => Int
  | .endPiston => Unit
  | .fork _ => Unit
  | .setPriority _ => Unit
  | .kill => Unit
  | .memRead _ => Nat
  | .memWrite _ _ => Unit
  | .inNum => Nat
  | .inChar => Nat
  | .outNum _ => Unit
  | .outToken _ => Unit

/-- `HProg` (40_decode_dispatch.md R158): `Done`, or a primitive followed by a continuation of its result.
Inductive, so every program is finite; a function of the results, so it is deterministic (R162). -/
inductive HProg
  | done
  | op (p : Prim) (k : p.Result → HProg)
  deriving Inhabited

/-! ### The notation of registry entries

A registry is part of the machine's data, so that a state can be compared and written out; `HProg` holds
functions. A registry entry therefore writes its program as `Code`, whose meaning is an `HProg`
(`Machine/Handlers.lean`), or names an uninterpreted one (`HandlerBody.extern`). DESIGN CHOICE, safe: log entry 4. -/

/-- A field of the decoded record, read as an unsigned number (30_encoding.md R115). -/
inductive Field
  | word | cc | mc | reg | opts | arg | tail
  deriving DecidableEq, Repr

/-- An integer expression over the decoded fields and the results of earlier primitives.
`result n` is the `n`-th result of the program so far, 0 first; `GET_POS` gives two results, `x` then `y`. -/
inductive Expr
  | lit (z : Int)
  | field (f : Field)
  | result (n : Nat)
  | add (a b : Expr)
  | sub (a b : Expr)
  | mul (a b : Expr)
  | div (a b : Expr)
  | mod (a b : Expr)
  deriving DecidableEq, Repr

/-- A register operand: a fixed name of `REGS`, or the register the word's selector names, `REGSEL(reg)`. -/
inductive RegRef
  | named (r : RegName)
  | selected
  deriving DecidableEq, Repr

/-- A primitive with its operands still expressions. -/
inductive PrimCode
  | move (n : Expr)
  | turnLeft
  | turnRight
  | reverse
  | getReg (r : RegRef)
  | setReg (r : RegRef) (v : Expr) (o : Expr)
  | getPos
  | getDir
  | getPrio
  | endPiston
  | fork (d : ForkDir)
  | setPriority (v : Expr)
  | kill
  | memRead (a : Expr)
  | memWrite (a v : Expr)
  | inNum
  | inChar
  | outNum (n : Expr)
  | outToken (t : List Expr)
  deriving DecidableEq, Repr

/-- A comparison of two expressions. -/
inductive Cmp
  | eq | lt | le
  deriving DecidableEq, Repr

/-- A handler program written as plain data. -/
inductive Code
  | done
  | op (p : PrimCode) (k : Code)
  | branch (c : Cmp) (a b : Expr) (yes no : Code)
  deriving DecidableEq, Repr

/-- What a registry entry runs: the program PLS fixes for `META_D5` (40_decode_dispatch.md R168), a program
written as `Code`, or the uninterpreted program with the given number (`Config.externProgram`). -/
inductive HandlerBody
  | metaD5
  | code (c : Code)
  | extern (k : Nat)
  deriving DecidableEq, Repr

end Sys2Proof
end

