-- ==== Sys2Proof/Config.lean ====
section
/-!
DEFINITION. Config: the parameters of the block (00_scope.md R8) as one record of plain data, the free handler
programs, and the parameter values the machine has in `State.reset`.
-/
namespace Sys2Proof

/-- One entry of the handler registry (40_decode_dispatch.md R156). `cc` and `mc` are unchecked integers here: the
initialisation checks of R157 refuse the ones out of range. -/
structure Handler where
  cc : Int
  glyph : Char
  mc : Int
  description : String
  run : HandlerBody
  deriving DecidableEq, Repr

/-- `REGISTRY` (40_decode_dispatch.md R156). `familyLayout` lists `family_layout` for the control codes 0 to 15, in order. -/
structure Registry where
  handlers : List Handler
  familyLayout : List (Option MetaLayout)
  deriving DecidableEq, Repr

/-- One start point (00_scope.md R8, R17). -/
structure StartPoint where
  x : Nat
  y : Nat
  dir : Dir
  deriving DecidableEq, Repr

/-- `GRID` (00_scope.md R8, 10_state.md R58) as image rows: for each `y` that has a cell, the cells `(x, word)` of
that row. A place that is not listed is outside the image. -/
abbrev Grid := List (Nat × List (Nat × Word24))

/-- The parameters of 00_scope.md R8. `OPTS` is the type `Opts`; `INITIAL_INPUT` is the engine field `initialInput`. -/
structure Config where
  /-- `MAX_INTEGER`, written `M` (D2, OPEN). -/
  maxInteger : Nat
  /-- `GRID` (D30). -/
  grid : Grid
  /-- `START_POINTS` (D29). -/
  startPoints : List StartPoint
  /-- `REGISTRY` (D7, D46). -/
  registry : Registry
  /-- `REGS` (D11, OPEN). -/
  regs : List RegName
  /-- `REGSEL` (D11, OPEN): the register of each selector 0 to 7, in order. -/
  regsel : List (Option RegName)
  /-- `OPT_D5` (D14, OPEN). -/
  optD5 : Opts
  /-- `PRIO_INIT` (D15, OPEN). -/
  prioInit : Int
  /-- `REVERSE_FORK_SIDE` (D21, default RIGHT). -/
  reverseForkSide : Side
  deriving DecidableEq, Repr

/-- The free handler programs: a handler PLS does not give is any function from decoded records to programs
(40_decode_dispatch.md R158, R162; 93_implementation_defined.md U9). Nothing is known of this constant, so a claim
proved of the model holds whatever these programs are. DESIGN CHOICE, safe: log entry 4. -/
opaque Config.externProgram : Nat → Decoded → HProg

/-! ### The parameter values of `State.reset`

The spec gives parameters no values outside the test configuration of 95_test_vectors.md section 0. `Config.boot` takes
that one, with an empty image and no start points. DESIGN CHOICE, unsafe: log entry 2. No statement about the machine
rests on it: statements are about every value of the field `cfg`. -/

/-- A one-line handler of the test registry; glyph and description are documentation only (R161). -/
def Config.bootHandler (cc mc : Int) (description : String) (c : Code) : Handler :=
  { cc := cc, glyph := '?', mc := mc, description := description, run := .code c }

/-- `MOVE(1)` and no more: the end of most handlers of the test registry. -/
def Config.moveOn : Code := .op (.move (.lit 1)) .done

/-- The plain handlers of the test registry TR. -/
def Config.bootPlain : List Handler :=
  [ bootHandler 0x0 (-1) "STEP" moveOn,
    bootHandler 0x1 (-1) "HALT" (.op .endPiston .done),
    bootHandler 0x2 (-1) "FORKL" (.op (.fork .left) moveOn),
    bootHandler 0x3 (-1) "FORKR" (.op (.fork .right) moveOn),
    bootHandler 0x4 (-1) "PRIO" (.op (.setPriority (.field .tail)) moveOn),
    bootHandler 0x5 (-1) "KILLH" (.op .kill .done),
    bootHandler 0x7 (-1) "TURNR" (.op .turnRight moveOn) ]

/-- The meta handlers of the test registry TR. -/
def Config.bootMeta : List Handler :=
  [ bootHandler 0x6 0 "IN2MEM" (.op .inNum (.op (.memWrite (.field .arg) (.result 0)) moveOn)),
    bootHandler 0x6 1 "MEM2OUT" (.op (.memRead (.field .arg)) (.op (.outNum (.result 0)) moveOn)),
    bootHandler 0x6 2 "CH2OUT" (.op .inChar (.op (.outNum (.result 0)) moveOn)),
    bootHandler 0xD 0 "ADDI" (.op (.getReg .selected)
      (.op (.setReg .selected (.add (.result 0) (.field .arg)) (.field .opts)) moveOn)),
    bootHandler 0xD 1 "SETI" (.op (.setReg .selected (.field .arg) (.field .opts)) moveOn),
    bootHandler 0xD 2 "STORE" (.op (.getReg .selected) (.op (.memWrite (.field .arg) (.result 0)) moveOn)),
    { cc := 0xD, glyph := '?', mc := 5, description := "META_D5", run := .metaD5 } ]

/-- The parameters in `State.reset`: the test configuration of 95_test_vectors.md section 0, no image loaded. -/
def Config.boot : Config :=
  { maxInteger := 1000
    grid := []
    startPoints := []
    registry :=
      { handlers := bootPlain ++ bootMeta
        familyLayout := [none, none, none, none, none, none, some .b, none,
                         none, none, none, none, none, some .a, none, none] }
    regs := [0, 1, 2, 3]
    regsel := [some 0, some 1, some 2, some 3, none, none, none, none]
    optD5 := 3
    prioInit := 0
    reverseForkSide := .right }

end Sys2Proof
end

