-- ==== Sys2Proof/Machine/Maps.lean ====
section
/-!
DEFINITION. Finite maps with natural keys, held as lists of (key, value) pairs with strictly rising keys, and their
reads and writes; the program grid read and written through them. Shared memory, a piston's registers, the
detached pool and the rows of the grid are such maps.
-/
namespace Sys2Proof.Machine

/-- The value at a key. -/
def Map.get {α : Type} : List (Nat × α) → Nat → Option α
  | [], _ => none
  | (k, v) :: m, j => if k = j then some v else Map.get m j

/-- Set the value at a key, at the place its order gives it. -/
def Map.put {α : Type} : List (Nat × α) → Nat → α → List (Nat × α)
  | [], j, w => [(j, w)]
  | (k, v) :: m, j, w =>
    if k = j then (j, w) :: m
    else if j < k then (j, w) :: (k, v) :: m
    else (k, v) :: Map.put m j w

/-- Remove a key. -/
def Map.erase {α : Type} : List (Nat × α) → Nat → List (Nat × α)
  | [], _ => []
  | (k, v) :: m, j => if k = j then Map.erase m j else (k, v) :: Map.erase m j

/-- The canonical form: keys strictly rising. -/
abbrev Map.Canon {α : Type} (m : List (Nat × α)) : Prop := (m.map Prod.fst).Pairwise (· < ·)

/-- `GRID(x, y)`, the collaborator's `instruction_at` (10_state.md R58). -/
def Grid.at (g : Grid) (x y : Nat) : Option Word24 :=
  match Map.get g y with
  | some row => Map.get row x
  | none => none

/-- The image with one cell replaced or added; used to place a word, never by a step (10_state.md R58). -/
def Grid.putCell (g : Grid) (x y : Nat) (w : Word24) : Grid :=
  match Map.get g y with
  | some row => Map.put g y (Map.put row x w)
  | none => Map.put g y [(x, w)]

/-- The canonical form of an image: rows rising, no empty row, cells rising within each row. -/
abbrev Grid.wf (g : Grid) : Prop := Map.Canon g ∧ ∀ row ∈ g, row.2 ≠ [] ∧ Map.Canon row.2

end Sys2Proof.Machine
end

