-- ==== Sys2Proof/Machine/Registry.lean ====
section
/-!
DEFINITION. The handler registry: its lookups (40_decode_dispatch.md R153, R154, R157) and the five checks it passes
once, before any engine exists (R157, 70_reset_and_hazards.md R430).
-/
namespace Sys2Proof

/-- A registry key: `(cc)` for a plain handler, `(cc, mc)` for a meta handler (40_decode_dispatch.md R157 check 2). -/
inductive RegKey
  | plain (cc : Int)
  | family (cc mc : Int)
  deriving DecidableEq, Repr

/-- The initialisation errors (60_exceptions.md R380, codes 16 and 17) with the info R380 lists: the conflicting key,
or the offending handler (its `cc` and `mc`) or control code. -/
inductive RegistrationError
  | conflict (key : RegKey)
  | invalidHandler (cc mc : Int)
  | invalidFamily (cc : Int)
  deriving DecidableEq, Repr

/-- The code of an initialisation error (60_exceptions.md R380). -/
def RegistrationError.code : RegistrationError → Nat
  | .conflict _ => 16
  | .invalidHandler _ _ => 17
  | .invalidFamily _ => 17

/-- The key of a handler (40_decode_dispatch.md R157 check 2). -/
def Handler.key (h : Handler) : RegKey :=
  if h.mc = -1 then .plain h.cc else .family h.cc h.mc

/-- `family_layout(cc)` (40_decode_dispatch.md R156). -/
def Registry.family (r : Registry) (cc : Nat) : Option MetaLayout :=
  r.familyLayout.getD cc none

/-- The plain handler of a control code: the entry with `h.cc = cc` and `h.mc = -1` (R153). -/
def Registry.plainHandler (r : Registry) (cc : BitVec 4) : Option Handler :=
  r.handlers.find? fun h => h.cc == (cc.toNat : Int) && h.mc == -1

/-- The meta handler of a control code and meta command: the entry with `h.cc = cc` and `h.mc = mc` (R154). -/
def Registry.metaHandler (r : Registry) (cc : BitVec 4) (mc : BitVec 3) : Option Handler :=
  r.handlers.find? fun h => h.cc == (cc.toNat : Int) && h.mc == (mc.toNat : Int)

/-- `layout(cc)` (40_decode_dispatch.md R157). -/
def Registry.layout (r : Registry) (cc : BitVec 4) : Layout :=
  if (r.plainHandler cc).isSome then .plain
  else match r.family cc.toNat with
    | some .a => .metaA
    | some .b => .metaB
    | none => .none

/-- R157 check 1: every `cc` is 0 to 15 and every `mc` is −1 to 7. The first handler out of range is reported. -/
def Registry.rangeError (r : Registry) : Option RegistrationError :=
  match r.handlers.find? fun h => !(decide (0 ≤ h.cc) && decide (h.cc ≤ 15) && decide (-1 ≤ h.mc) && decide (h.mc ≤ 7)) with
  | some h => some (.invalidHandler h.cc h.mc)
  | none => none

/-- The first key of a list that occurs again after itself. -/
def RegKey.firstRepeated : List RegKey → Option RegKey
  | [] => none
  | k :: ks => if k ∈ ks then some k else firstRepeated ks

/-- R157 check 2: no two handlers have the same key. -/
def Registry.duplicateError (r : Registry) : Option RegistrationError :=
  match RegKey.firstRepeated (r.handlers.map Handler.key) with
  | some k => some (.conflict k)
  | none => none

/-- R157 check 3: no control code has both a plain and a meta handler. Of the two keys in conflict, the one named is the
`(cc, mc)` of the first meta handler whose control code has a plain one, wherever the plain entry stands (DESIGN CHOICE,
unsafe for a claim about the key: log entry 12). -/
def Registry.mixedError (r : Registry) : Option RegistrationError :=
  match r.handlers.find? fun h => decide (0 ≤ h.mc) && r.handlers.any fun g => g.cc == h.cc && g.mc == -1 with
  | some h => some (.conflict h.key)
  | none => none

/-- R157 check 4: a control code with a meta handler has a family layout, one with a plain handler has none. -/
def Registry.familyError (r : Registry) : Option RegistrationError :=
  match r.handlers.find? fun h =>
      if h.mc = -1 then (r.family h.cc.toNat).isSome else (r.family h.cc.toNat).isNone with
  | some h => some (.invalidFamily h.cc)
  | none => none

/-- R157 check 5: the entry `META_D5` is present, and the family of 0xD uses layout A. -/
def Registry.d5Error (r : Registry) : Option RegistrationError :=
  if r.handlers.any fun h => h.cc == 13 && h.mc == 5 && h.run == .metaD5 then
    if r.family 13 = some .a then none else some (.invalidFamily 13)
  else some (.invalidHandler 13 5)

/-- The initialisation check: the first of the five checks that fails, in the order of R157. Which offender a failing
check names is the model's choice (DESIGN CHOICE, unsafe for a claim about which: log entry 12). -/
def Registry.initError (r : Registry) : Option RegistrationError :=
  match r.rangeError with
  | some e => some e
  | none =>
    match r.duplicateError with
    | some e => some e
    | none =>
      match r.mixedError with
      | some e => some e
      | none =>
        match r.familyError with
        | some e => some e
        | none => r.d5Error

/-- `REGSEL(reg)` (00_scope.md R8, 30_encoding.md R114). -/
def Config.selReg (c : Config) (reg : BitVec 3) : Option RegName :=
  c.regsel.getD reg.toNat none

end Sys2Proof
end

