-- ==== Sys2Proof/WellFormed.lean ====
section
/-!
DEFINITION. Well-formedness: of an instruction under given parameters (it is what the decoder gives for its word),
of a handler program (its register names are in `REGS`, its operands exist in its category), and of the parameters.
-/
namespace Sys2Proof

/-- An instruction is well formed under the parameters `c` when its row's condition in spec/opcode_table.json holds
(40_decode_dispatch.md R152–R155). `META_D5` is the row of its own words, so the general row excludes them. -/
def Instr.wf (c : Config) : Instr → Bool
  | .metaD5 reg _ _ =>
    c.registry.layout 0xD == .metaA && (c.registry.metaHandler 0xD 5).isSome && (c.selReg reg).isSome
  | .plainDispatch cc _ => c.registry.layout cc == .plain
  | .metaADispatch cc mc reg _ _ =>
    c.registry.layout cc == .metaA && (c.registry.metaHandler cc mc).isSome && (c.selReg reg).isSome &&
      !(cc == 0xD && mc == 5)
  | .metaBDispatch cc mc _ => c.registry.layout cc == .metaB && (c.registry.metaHandler cc mc).isSome
  | .decodeErrorCc cc _ => c.registry.layout cc == .none
  | .decodeErrorMc cc mc _ =>
    (c.registry.layout cc == .metaA || c.registry.layout cc == .metaB) && (c.registry.metaHandler cc mc).isNone
  | .invalidRegisterSelector cc mc reg _ =>
    c.registry.layout cc == .metaA && (c.registry.metaHandler cc mc).isSome && (c.selReg reg).isNone

/-- Does the decoded record of a category hold this field (30_encoding.md R117)? -/
def Field.inLayout : Field → Layout → Bool
  | .word, _ => true
  | .cc, _ => true
  | .tail, l => l == .plain
  | .mc, l => l == .metaA || l == .metaB
  | .arg, l => l == .metaA || l == .metaB
  | .reg, l => l == .metaA
  | .opts, l => l == .metaA

/-- An expression names only fields its category has and results that earlier primitives gave (`n` of them). -/
def Expr.wf (l : Layout) (n : Nat) : Expr → Bool
  | .lit _ => true
  | .field f => f.inLayout l
  | .result k => decide (k < n)
  | .add a b => a.wf l n && b.wf l n
  | .sub a b => a.wf l n && b.wf l n
  | .mul a b => a.wf l n && b.wf l n
  | .div a b => a.wf l n && b.wf l n
  | .mod a b => a.wf l n && b.wf l n

/-- A register operand is a name of `REGS` (40_decode_dispatch.md R158), or the selected register of a layout-A word. -/
def RegRef.wf (c : Config) (l : Layout) : RegRef → Bool
  | .named r => c.regs.contains r
  | .selected => l == .metaA

/-- The operands of one primitive are well formed. -/
def PrimCode.wf (c : Config) (l : Layout) (n : Nat) : PrimCode → Bool
  | .move e => e.wf l n
  | .turnLeft => true
  | .turnRight => true
  | .reverse => true
  | .getReg r => r.wf c l
  | .setReg r v o => r.wf c l && v.wf l n && o.wf l n
  | .getPos => true
  | .getDir => true
  | .getPrio => true
  | .endPiston => true
  | .fork _ => true
  | .setPriority v => v.wf l n
  | .kill => true
  | .memRead a => a.wf l n
  | .memWrite a v => a.wf l n && v.wf l n
  | .inNum => true
  | .inChar => true
  | .outNum v => v.wf l n
  | .outToken t => t.all (·.wf l n)

/-- How many results a primitive adds for the expressions after it (`Expr.result`). -/
def PrimCode.results : PrimCode → Nat
  | .getReg _ => 1
  | .getPos => 2
  | .getDir => 1
  | .getPrio => 1
  | .memRead _ => 1
  | .inNum => 1
  | .inChar => 1
  | .move _ => 0
  | .turnLeft => 0
  | .turnRight => 0
  | .reverse => 0
  | .setReg _ _ _ => 0
  | .endPiston => 0
  | .fork _ => 0
  | .setPriority _ => 0
  | .kill => 0
  | .memWrite _ _ => 0
  | .outNum _ => 0
  | .outToken _ => 0

/-- A handler program is well formed in its category, with `n` results so far. -/
def Code.wf (c : Config) (l : Layout) : Nat → Code → Bool
  | _, .done => true
  | n, .op p k => p.wf c l n && k.wf c l (n + p.results)
  | n, .branch _ a b yes no => a.wf l n && b.wf l n && yes.wf c l n && no.wf c l n

/-- The category a handler's record has: plain, or its family's layout (40_decode_dispatch.md R157). -/
def Handler.layout (r : Registry) (h : Handler) : Layout :=
  if h.mc = -1 then .plain
  else match r.family h.cc.toNat with
    | some .a => .metaA
    | some .b => .metaB
    | none => .none

/-- A registry entry's program is well formed. An uninterpreted program is one whatever it is. -/
def Handler.wf (c : Config) (h : Handler) : Bool :=
  match h.run with
  | .metaD5 => true
  | .code k => k.wf c (h.layout c.registry) 0
  | .extern _ => true

/-- The parameters are well formed (00_scope.md R8): `M ≥ 1`, `REGS` nonempty and without repeats, `REGSEL` gives each of
the 8 selectors a name of `REGS` or none, `family_layout` covers the 16 control codes, the image is in canonical form,
the handler programs are well formed, and the registry passes its initialisation (40_decode_dispatch.md R157). -/
def Config.wf (c : Config) : Bool :=
  decide (1 ≤ c.maxInteger) && !c.regs.isEmpty && decide c.regs.Nodup &&
  decide (c.regsel.length = 8) && c.regsel.all (fun s => s.all c.regs.contains) &&
  decide (c.registry.familyLayout.length = 16) && decide (Machine.Grid.wf c.grid) &&
  c.registry.handlers.all (·.wf c) && c.registry.initError.isNone

end Sys2Proof
end

