-- ==== Sys2Proof/Decode.lean ====
section
/-!
DEFINITION. The instruction-word decoder (40_decode_dispatch.md R150–R155), total on 24-bit words: every word gets a
dispatch form or a named error form. Then the encoder, from the same layouts (30_encoding.md R113–R116,
95_test_vectors.md section 2.1).
-/
namespace Sys2Proof

/-- `cc = w[23:20]` (30_encoding.md R111). -/
def ccOf (w : Word24) : BitVec 4 := w.extractLsb' 20 4

/-- `tail = w[19:0]` (R113). -/
def tailOf (w : Word24) : BitVec 20 := w.extractLsb' 0 20

/-- `mc = w[19:17]` (R114, R116). -/
def mcOf (w : Word24) : BitVec 3 := w.extractLsb' 17 3

/-- `reg = w[16:14]` (R114). -/
def regOf (w : Word24) : BitVec 3 := w.extractLsb' 14 3

/-- `opts = w[13:12]` (R114). -/
def optsOf (w : Word24) : BitVec 2 := w.extractLsb' 12 2

/-- `arg = w[11:0]` of layout A (R114). -/
def argAOf (w : Word24) : BitVec 12 := w.extractLsb' 0 12

/-- `arg = w[16:0]` of layout B (R116). -/
def argBOf (w : Word24) : BitVec 17 := w.extractLsb' 0 17

/-- The bits below the register selector, `w[13:0]`: what an invalid selector leaves unread. -/
def belowRegOf (w : Word24) : BitVec 14 := w.extractLsb' 0 14

/-- The layout-A form of a word whose handler has been found (40_decode_dispatch.md R155): the register selector is
checked, and the words of `META_D5` (30_encoding.md R119) are told apart from the other dispatch words. -/
def decodeFieldsA (c : Config) (w : Word24) : Instr :=
  match c.selReg (regOf w) with
  | none => .invalidRegisterSelector (ccOf w) (mcOf w) (regOf w) (belowRegOf w)
  | some _ =>
    if ccOf w = 0xD ∧ mcOf w = 5 then .metaD5 (regOf w) (optsOf w) (argAOf w)
    else .metaADispatch (ccOf w) (mcOf w) (regOf w) (optsOf w) (argAOf w)

/-- `decode` (R150): control code (R151, R152), meta command (R154), then the argument fields (R155). It reads the word
and the parameters only. -/
def decode (c : Config) (w : Word24) : Instr :=
  match c.registry.layout (ccOf w) with
  | .none => .decodeErrorCc (ccOf w) (tailOf w)
  | .plain => .plainDispatch (ccOf w) (tailOf w)
  | .metaA =>
    match c.registry.metaHandler (ccOf w) (mcOf w) with
    | none => .decodeErrorMc (ccOf w) (mcOf w) (argBOf w)
    | some _ => decodeFieldsA c w
  | .metaB =>
    match c.registry.metaHandler (ccOf w) (mcOf w) with
    | none => .decodeErrorMc (ccOf w) (mcOf w) (argBOf w)
    | some _ => .metaBDispatch (ccOf w) (mcOf w) (argBOf w)

/-- The control code of an instruction. -/
def Instr.cc : Instr → BitVec 4
  | .metaD5 _ _ _ => 0xD
  | .plainDispatch cc _ => cc
  | .metaADispatch cc _ _ _ _ => cc
  | .metaBDispatch cc _ _ => cc
  | .decodeErrorCc cc _ => cc
  | .decodeErrorMc cc _ _ => cc
  | .invalidRegisterSelector cc _ _ _ => cc

/-- `encode`: the word of an instruction, its fields put together most significant first
(95_test_vectors.md section 2.1; 30_encoding.md R113, R114, R116, R119). -/
def encode : Instr → Word24
  | .metaD5 reg opts arg => (0xD : BitVec 4) ++ (5 : BitVec 3) ++ reg ++ opts ++ arg
  | .plainDispatch cc tail => cc ++ tail
  | .metaADispatch cc mc reg opts arg => cc ++ mc ++ reg ++ opts ++ arg
  | .metaBDispatch cc mc arg => cc ++ mc ++ arg
  | .decodeErrorCc cc rest => cc ++ rest
  | .decodeErrorMc cc mc rest => cc ++ mc ++ rest
  | .invalidRegisterSelector cc mc reg rest => cc ++ mc ++ reg ++ rest

/-- The decoded record of a dispatched instruction (30_encoding.md R117); an error form has none. -/
def Instr.decoded (i : Instr) : Option Decoded :=
  match i with
  | .metaD5 reg opts arg => some (.metaA (encode i) 0xD 5 reg opts arg)
  | .plainDispatch cc tail => some (.plain (encode i) cc tail)
  | .metaADispatch cc mc reg opts arg => some (.metaA (encode i) cc mc reg opts arg)
  | .metaBDispatch cc mc arg => some (.metaB (encode i) cc mc arg)
  | .decodeErrorCc _ _ => none
  | .decodeErrorMc _ _ _ => none
  | .invalidRegisterSelector _ _ _ _ => none

/-- The decoder on the bits of an opcode-table row, under the parameters of `State.reset` (log entry 14). An
instruction is one 24-bit word, so longer bit strings are none of this hardware's. -/
def decodeTableWord (nbits w : Nat) : Option Instr :=
  if nbits ≤ 24 ∧ w < 2 ^ 24 then some (decode Config.boot (BitVec.ofNat 24 w)) else none

end Sys2Proof
end

