-- ==== Sys2Proof/Machine/State.lean ====
section
/-!
DEFINITION. State: everything the spec gives the block (10_state.md R30, R31, R45, R52, R55; 00_scope.md R8), as
plain data; the ways a step can stop; and the state right after reset.
-/
namespace Sys2Proof.Machine

/-- The scheduler state (10_state.md R42). -/
inductive Phase
  | ready | running | ended | aborted
  deriving DecidableEq, Repr, Inhabited

/-- What a register cell holds when read (10_state.md R36): `Unset`, or a value with its options. -/
inductive Cell
  | unset
  | val (v : Nat) (o : Opts)
  deriving DecidableEq, Repr, Inhabited

/-- What a written register stores: `Val(v, o)` (10_state.md R36, R37). -/
structure RegVal where
  value : Nat
  opts : Opts
  deriving DecidableEq, Repr

/-- The registers of one piston: the written ones, names rising. A name not listed is `Unset` (10_state.md R36). -/
abbrev RegFile := List (RegName × RegVal)

/-- Shared memory (10_state.md R47, 20_memory.md R81): (address, value) pairs, addresses rising, no value 0. An
address not listed reads 0. -/
abbrev Memory := List (Nat × Nat)

/-- A piston (10_state.md R31). -/
structure Piston where
  id : PistonId
  x : Nat
  y : Nat
  dir : Dir
  reg : RegFile
  priority : Int
  ended : Bool
  deriving DecidableEq, Repr

/-- The anchor of a merge request (10_state.md R45): a piston id, or `END`. -/
inductive Anchor
  | id (n : PistonId)
  | listEnd
  deriving DecidableEq, Repr

/-- The entrant of a merge request (10_state.md R45): a fork carries its copy, a priority change names a detached
piston. -/
inductive Entrant
  | copy (p : Piston)
  | detached (n : PistonId)
  deriving DecidableEq, Repr

/-- The kind of a merge request (10_state.md R45). -/
inductive MergeKind
  | fork | prio
  deriving DecidableEq, Repr

/-- A merge request (10_state.md R45). Its `kind` is the kind of its entrant. -/
structure MergeRequest where
  anchor : Anchor
  entrant : Entrant
  side : Side
  deriving DecidableEq, Repr

/-- The error kinds of a piston step with the info R380 lists (60_exceptions.md R380, codes 1 to 7). The set is closed
(R384). -/
inductive ErrorKind
  | unknownControlCode (cc : BitVec 4)
  | unknownMetaCommand (cc : BitVec 4) (mc : BitVec 3)
  | invalidRegisterSelector (cc : BitVec 4) (mc reg : BitVec 3)
  | fetchOutOfGrid (x y : Nat)
  | unsetRegisterRead (r : RegName)
  | malformedHexToken (t : Text)
  | emptyOutputToken
  deriving DecidableEq, Repr

/-- The abort record (10_state.md R52). -/
structure AbortRecord where
  kind : ErrorKind
  cycle : Nat
  pistonId : PistonId
  x : Nat
  y : Nat
  word : Option Word24
  deriving DecidableEq, Repr

/-- The engine record `E` (10_state.md R30), the transient values of a cycle (R55) and the parameters (00_scope.md R8). -/
structure State where
  /-- The parameters; no command or step writes them (log entry 1). -/
  cfg : Config
  phase : Phase
  cycle : Nat
  active : List Piston
  mq : List MergeRequest
  /-- Each detached piston under its id, ids rising (10_state.md R46). -/
  detached : List (PistonId × Piston)
  mem : Memory
  input : Text
  initialInput : Text
  output : Text
  lastOut : Option Nat
  runs : Nat
  nextId : PistonId
  abort : Option AbortRecord
  /-- The ids that step in the current cycle; `[]` between cycles (R55, R251). -/
  snapshot : List PistonId
  /-- Has a handler's `KILL` stopped the pass (R55, R266)? -/
  killed : Bool
  /-- The receiver under execution; none between piston steps (R55, R253). -/
  receiver : Option PistonId
  deriving DecidableEq, Repr

/-- The ways the machine stops with a fault. -/
inductive Fault
  /-- Raised when an instruction or a primitive is executed and the receiver is in neither the active list nor the
  detached pool, or an id of the snapshot is not active when its turn comes. 42_scheduler.md R252 says the piston is
  always present, so the spec gives this no effect. Safe: log entry 9. -/
  | noReceiver
  deriving DecidableEq, Repr

/-- The ways the machine refuses. -/
inductive Refusal
  /-- An instruction without a meaning, by its mnemonic. No arm of `exec` answers it. Safe. -/
  | notModelled (mnemonic : String)
  /-- Answered by every host command, `step` among them, when the registry failed its initialisation: there is no engine
  (40_decode_dispatch.md R157, 93_implementation_defined.md U18). Safe: log entry 13. -/
  | noEngine (e : RegistrationError)
  deriving DecidableEq, Repr

/-- The state right after reset: `new("")` under the parameters `Config.boot` (10_state.md R60, 44_host_interface.md R350).
With no start points it is ENDED with an empty active list (R60, 90_conflicts.md C7); `runs` is 1, no id has been
given. The values of `cfg` are log entry 2, those of the three transient fields log entry 3. -/
def State.reset : State :=
  { cfg := Config.boot
    phase := .ended
    cycle := 0
    active := []
    mq := []
    detached := []
    mem := []
    input := []
    initialInput := []
    output := []
    lastOut := none
    runs := 1
    nextId := 0
    abort := none
    snapshot := []
    killed := false
    receiver := none }

end Sys2Proof.Machine
end

