-- ==== Sys2Proof/Machine/Ops.lean ====
section
/-!
DEFINITION. The named operations over memory, registers and pistons: modular reduction, memory and register reads and
writes, finding and changing the receiver, taking an abort, and the reset that alone leaves one.
-/
namespace Sys2Proof.Machine

/-- `a mod M`, the Euclidean remainder (00_scope.md R12). -/
def modM (m : Nat) (a : Int) : Nat := (a % (m : Int)).toNat

/-! ### Shared memory -/

/-- What an address that is not listed reads as (10_state.md R47, 20_memory.md R80). -/
def Memory.unwritten : Nat := 0

/-- `MemRead(a)` (00_scope.md R14). -/
def Memory.read (m : Memory) (a : Nat) : Nat := (Map.get m a).getD Memory.unwritten

/-- `MemWrite(a, v)` (00_scope.md R14), keeping the canonical form: writing what an unlisted address reads as removes
the entry. -/
def Memory.write (m : Memory) (a v : Nat) : Memory :=
  if v = Memory.unwritten then Map.erase m a else Map.put m a v

/-- The canonical form of memory. -/
abbrev Memory.wf (m : Memory) : Prop := Map.Canon m ∧ ∀ c ∈ m, c.2 ≠ Memory.unwritten

/-! ### Registers -/

/-- The cell of a register name (10_state.md R36). -/
def RegFile.cell (f : RegFile) (r : RegName) : Cell :=
  match Map.get f r with
  | some c => .val c.value c.opts
  | none => .unset

/-- `P.reg[r] <- Val(v, o)` with the value already reduced. -/
def RegFile.set (f : RegFile) (r : RegName) (v : Nat) (o : Opts) : RegFile := Map.put f r ⟨v, o⟩

/-! ### The receiver -/

/-- The piston with an id, where it currently lives: the detached pool, else the active list (42_scheduler.md R253). -/
def State.locate (s : State) (n : PistonId) : Option Piston :=
  match Map.get s.detached n with
  | some p => some p
  | none => s.active.find? fun p => p.id == n

/-- The receiver under execution (10_state.md R55), with its current contents. -/
def State.receiverPiston (s : State) : Option Piston :=
  match s.receiver with
  | some n => s.locate n
  | none => none

/-- Change the piston with an id where it currently lives (42_scheduler.md R253). -/
def State.updatePiston (s : State) (n : PistonId) (f : Piston → Piston) : State :=
  match Map.get s.detached n with
  | some _ => { s with detached := s.detached.map fun e => if e.1 = n then (e.1, f e.2) else e }
  | none => { s with active := s.active.map fun p => if p.id = n then f p else p }

/-! ### Aborts and reset -/

/-- The code of an error kind (60_exceptions.md R380). -/
def ErrorKind.code : ErrorKind → Nat
  | .unknownControlCode _ => 1
  | .unknownMetaCommand _ _ => 2
  | .invalidRegisterSelector _ _ _ => 3
  | .fetchOutOfGrid _ _ => 4
  | .unsetRegisterRead _ => 5
  | .malformedHexToken _ => 6
  | .emptyOutputToken => 7

/-- `enter_abort` (60_exceptions.md R387), applied to the state before the failing step (R388): the record is written
and the phase becomes ABORTED; nothing else changes. -/
def State.enterAbort (s : State) (k : ErrorKind) (p : Piston) (w : Option Word24) : State :=
  { s with
    abort := some { kind := k, cycle := s.cycle, pistonId := p.id, x := p.x, y := p.y, word := w }
    phase := .aborted }

/-- A step of the receiver that raises an error before any handler runs: the abort is taken (R387). -/
def State.raiseStep (s : State) (k : ErrorKind) (w : Option Word24) : Host.Outcome State Fault Refusal :=
  match s.receiverPiston with
  | some p => .next (s.enterAbort k p w)
  | none => .fault .noReceiver

/-- Spawn one piston (70_reset_and_hazards.md R431, the loop body). -/
def State.spawn (s : State) (sp : StartPoint) : State :=
  { s with
    active := s.active ++
      [{ id := s.nextId, x := modM s.cfg.maxInteger sp.x, y := modM s.cfg.maxInteger sp.y, dir := sp.dir,
         reg := [], priority := s.cfg.prioInit, ended := false }]
    nextId := s.nextId + 1 }

/-- Spawn one piston per start point, in order (R431, R432). -/
def State.seed (s : State) : State := s.cfg.startPoints.foldl State.spawn s

/-- Everything reset clears before seeding (R431, R433), and the transient values of a cycle with it (log entry 3). -/
def State.clear (s : State) : State :=
  { s with
    runs := s.runs + 1
    cycle := 0
    active := []
    mq := []
    detached := []
    mem := []
    input := s.initialInput
    output := []
    lastOut := none
    abort := none
    snapshot := []
    killed := false
    receiver := none }

/-- The reset procedure (70_reset_and_hazards.md R431): clear, seed, and READY unless no piston was spawned. It is the
only way out of ABORTED (60_exceptions.md R390). -/
def State.resetProcedure (s : State) : State :=
  let t := s.clear.seed
  { t with phase := if t.active = [] then .ended else .ready }

end Sys2Proof.Machine
end

