-- ==== Sys2Proof/Machine/DecodeErrors.lean ====
section
/-!
DEFINITION. The meanings of the illegal forms (30_encoding.md R120): each takes the abort of its error kind
(60_exceptions.md R381, R387), with the fetched word in the record.
-/
namespace Sys2Proof.Machine

/-- `DECODE_ERROR_CC`: `DecodeError(UnknownControlCode)` (40_decode_dispatch.md R152). -/
def execDecodeErrorCc (cc : BitVec 4) (rest : BitVec 20) (s : State) : Host.Outcome State Fault Refusal :=
  s.raiseStep (.unknownControlCode cc) (some (encode (.decodeErrorCc cc rest)))

/-- `DECODE_ERROR_MC`: `DecodeError(UnknownMetaCommand)` (R154). -/
def execDecodeErrorMc (cc : BitVec 4) (mc : BitVec 3) (rest : BitVec 17) (s : State) : Host.Outcome State Fault Refusal :=
  s.raiseStep (.unknownMetaCommand cc mc) (some (encode (.decodeErrorMc cc mc rest)))

/-- `INVALID_REGISTER_SELECTOR` (R155). -/
def execInvalidRegisterSelector (cc : BitVec 4) (mc : BitVec 3) (reg : BitVec 3) (rest : BitVec 14) (s : State) :
    Host.Outcome State Fault Refusal :=
  s.raiseStep (.invalidRegisterSelector cc mc reg) (some (encode (.invalidRegisterSelector cc mc reg rest)))

end Sys2Proof.Machine
end

