-- ==== Sys2Proof/Machine/Piston.lean ====
section
/-!
DEFINITION. The receiver primitives (41_piston_ops.md R200–R210): what each does to one piston, and the primitive
itself, which applies that to the receiver wherever it lives (42_scheduler.md R253).
-/
namespace Sys2Proof

/-! ### Directions -/

/-- The unit step of a direction (10_state.md R34). -/
def Dir.unit : Dir → Int × Int
  | .up => (0, -1)
  | .right => (1, 0)
  | .down => (0, 1)
  | .left => (-1, 0)

/-- `ccw` (41_piston_ops.md R201). -/
def Dir.ccw : Dir → Dir
  | .up => .left
  | .left => .down
  | .down => .right
  | .right => .up

/-- `cw` (R202). -/
def Dir.cw : Dir → Dir
  | .up => .right
  | .right => .down
  | .down => .left
  | .left => .up

/-- `opp` (R203). -/
def Dir.opp : Dir → Dir
  | .up => .down
  | .down => .up
  | .left => .right
  | .right => .left

end Sys2Proof

namespace Sys2Proof.Machine

/-- How one primitive ends: with a result and the state after it, by ending the handler program (`KILL`), by raising
an error (60_exceptions.md R380), or, outside the spec, because there is no receiver (log entry 9). -/
inductive PrimOut (α : Type) where
  | done (v : α) (s : State)
  | stop (s : State)
  | raise (k : ErrorKind)
  | lost

/-! ### One piston -/

/-- The effect of `MOVE(n)` (R200) with modulus `m`. -/
def Piston.move (m : Nat) (n : Int) (p : Piston) : Piston :=
  { p with
    x := modM m (p.x + n * (Dir.unit p.dir).1)
    y := modM m (p.y + n * (Dir.unit p.dir).2) }

/-- The effect of `TURN_LEFT` (R201). -/
def Piston.turnLeft (p : Piston) : Piston := { p with dir := Dir.ccw p.dir }

/-- The effect of `TURN_RIGHT` (R202). -/
def Piston.turnRight (p : Piston) : Piston := { p with dir := Dir.cw p.dir }

/-- The effect of `REVERSE` (R203). -/
def Piston.turnBack (p : Piston) : Piston := { p with dir := Dir.opp p.dir }

/-- `COPY` with a fresh id (R204). -/
def Piston.copy (n : PistonId) (p : Piston) : Piston := { p with id := n }

/-- The cell of a register (10_state.md R36). -/
def Piston.cell (p : Piston) (r : RegName) : Cell := RegFile.cell p.reg r

/-- The effect of `SET_REG(r, v, o)` (R206) with modulus `m`. -/
def Piston.setReg (m : Nat) (r : RegName) (v : Int) (o : Opts) (p : Piston) : Piston :=
  { p with reg := RegFile.set p.reg r (modM m v) o }

/-- The effect of `END` (R210). -/
def Piston.markEnded (p : Piston) : Piston := { p with ended := true }

/-! ### The receiver primitives -/

/-- A primitive that acts on the receiver: its id and its current contents (42_scheduler.md R253). -/
def State.withReceiver {α : Type} (s : State) (f : PistonId → Piston → PrimOut α) : PrimOut α :=
  match s.receiver with
  | some n =>
    match s.locate n with
    | some p => f n p
    | none => .lost
  | none => .lost

/-- A primitive that changes the receiver and gives no result. -/
def State.changeReceiver (s : State) (f : Piston → Piston) : PrimOut Unit :=
  s.withReceiver fun n _ => .done () (s.updatePiston n f)

/-- A primitive that reads the receiver and changes nothing. -/
def State.readReceiver {α : Type} (s : State) (f : Piston → α) : PrimOut α :=
  s.withReceiver fun _ p => .done (f p) s

/-- `MOVE(n)` (41_piston_ops.md R200). -/
def primMove (n : Int) (s : State) : PrimOut Unit := s.changeReceiver (Piston.move s.cfg.maxInteger n)

/-- `TURN_LEFT` (R201). -/
def primTurnLeft (s : State) : PrimOut Unit := s.changeReceiver Piston.turnLeft

/-- `TURN_RIGHT` (R202). -/
def primTurnRight (s : State) : PrimOut Unit := s.changeReceiver Piston.turnRight

/-- `REVERSE` (R203). -/
def primReverse (s : State) : PrimOut Unit := s.changeReceiver Piston.turnBack

/-- `GET_REG(r)` (R205): the value of a set register; reading an unset one raises `UnsetRegisterRead`. -/
def primGetReg (r : RegName) (s : State) : PrimOut Nat :=
  s.withReceiver fun _ p =>
    match p.cell r with
    | .val v _ => .done v s
    | .unset => .raise (.unsetRegisterRead r)

/-- `SET_REG(r, v, o)` (R206). -/
def primSetReg (r : RegName) (v : Int) (o : Opts) (s : State) : PrimOut Unit :=
  s.changeReceiver (Piston.setReg s.cfg.maxInteger r v o)

/-- `GET_POS` (R207). -/
def primGetPos (s : State) : PrimOut (Nat × Nat) := s.readReceiver fun p => (p.x, p.y)

/-- `GET_DIR` (R208). -/
def primGetDir (s : State) : PrimOut Dir := s.readReceiver Piston.dir

/-- `GET_PRIO` (R209). -/
def primGetPrio (s : State) : PrimOut Int := s.readReceiver Piston.priority

/-- `END` (R210). -/
def primEnd (s : State) : PrimOut Unit := s.changeReceiver Piston.markEnded

end Sys2Proof.Machine
end

