-- ==== Sys2Proof/Machine/MemoryIO.lean ====
section
/-!
DEFINITION. The memory and IO primitives (43_memory_io.md R300–R307), with the reading and writing of numbers as
text. The numbers of the code points are the spec's passages G1 to G7 (93_implementation_defined.md section 2).
-/
namespace Sys2Proof.Machine

/-! ### Numbers as text -/

/-- A decimal digit, `'0'` to `'9'` (43_memory_io.md R302). -/
def isDigit (c : Nat) : Bool := decide (48 ≤ c) && decide (c ≤ 57)

/-- The value of a run of decimal digits, most significant first (R302). -/
def digitsValue (ds : Text) : Nat := ds.foldl (fun n c => n * 10 + (c - 48)) 0

/-- The decimal digits of `n` put before `acc`; the fuel bounds the number of digits. -/
def decimalAux : Nat → Nat → Text → Text
  | 0, _, acc => acc
  | fuel + 1, n, acc =>
    if n < 10 then (48 + n) :: acc else decimalAux fuel (n / 10) ((48 + n % 10) :: acc)

/-- `decimal(n)` (43_memory_io.md R305): base 10, no sign, no leading zeros, `"0"` for 0. -/
def decimal (n : Nat) : Text := decimalAux (n + 1) n []

/-- The value of a hexadecimal digit, or none (R307). -/
def hexDigit (c : Nat) : Option Nat :=
  if 48 ≤ c ∧ c ≤ 57 then some (c - 48)
  else if 97 ≤ c ∧ c ≤ 102 then some (c - 87)
  else if 65 ≤ c ∧ c ≤ 70 then some (c - 55)
  else none

/-- The value of hexadecimal digits after `n`, most significant first; none if a character is no such digit (R307). -/
def hexDigits : Text → Nat → Option Nat
  | [], n => some n
  | c :: cs, n =>
    match hexDigit c with
    | some d => hexDigits cs (n * 16 + d)
    | none => none

/-- `hexval(t)` (43_memory_io.md R307): `"0x"` and one or more hexadecimal digits; none is `MalformedHexToken`. -/
def hexval : Text → Option Nat
  | c0 :: _ :: d :: ds => if c0 = 48 then hexDigits (d :: ds) 0 else none
  | [] => none
  | [_] => none
  | [_, _] => none

/-- The value a token stores (43_memory_io.md R306), or the error it raises. -/
def tokenValue : Text → Except ErrorKind Nat
  | [] => .error .emptyOutputToken
  | [c] => .ok c
  | c :: d :: rest =>
    if d = 120 then
      match hexval (c :: d :: rest) with
      | some v => .ok v
      | none => .error (.malformedHexToken (c :: d :: rest))
    else .ok c

/-- Store the last value and append text to the output (43_memory_io.md R305, R306). -/
def State.emit (s : State) (v : Nat) (t : Text) : State :=
  { s with lastOut := some v, output := s.output ++ t }

/-! ### The primitives -/

/-- `MEM_READ(a)` (43_memory_io.md R300). -/
def primMemRead (a : Nat) (s : State) : PrimOut Nat := .done (s.mem.read a) s

/-- `MEM_WRITE(a, v)` (R301). -/
def primMemWrite (a v : Nat) (s : State) : PrimOut Unit := .done () { s with mem := s.mem.write a v }

/-- `IN_NUM` (R302): the leading digit run is consumed; its value is reduced mod M. -/
def primInNum (s : State) : PrimOut Nat :=
  .done (modM s.cfg.maxInteger (digitsValue (s.input.takeWhile isDigit)))
    { s with input := s.input.dropWhile isDigit }

/-- `IN_CHAR` (R303): one code point, unreduced; 0 when the input is exhausted. -/
def primInChar (s : State) : PrimOut Nat :=
  match s.input with
  | [] => .done 0 s
  | c :: cs => .done c { s with input := cs }

/-- `OUT_NUM(n)` (R305). -/
def primOutNum (n : Nat) (s : State) : PrimOut Unit := .done () (s.emit n (decimal n))

/-- `OUT_TOKEN(t)` (R306). -/
def primOutToken (t : Text) (s : State) : PrimOut Unit :=
  match tokenValue t with
  | .ok v => .done () (s.emit v t)
  | .error k => .raise k

end Sys2Proof.Machine
end

