-- ==== Sys2Proof/Machine/Operands.lean ====
section
/-!
DEFINITION. Operand forms: the fields of the decoded record as unsigned numbers (30_encoding.md R115), the register
operand `REGSEL(reg)` (R114), and the values of the expressions in which a registry entry writes its operands (log
entry 4).
-/
namespace Sys2Proof

/-- A field of the decoded record, zero-extended (30_encoding.md R115). A field the format does not have is 0; no
well-formed handler names one. -/
def Decoded.field : Decoded → Field → Nat
  | .plain w _ _, .word => w.toNat
  | .plain _ cc _, .cc => cc.toNat
  | .plain _ _ t, .tail => t.toNat
  | .plain _ _ _, .mc => 0
  | .plain _ _ _, .reg => 0
  | .plain _ _ _, .opts => 0
  | .plain _ _ _, .arg => 0
  | .metaA w _ _ _ _ _, .word => w.toNat
  | .metaA _ cc _ _ _ _, .cc => cc.toNat
  | .metaA _ _ mc _ _ _, .mc => mc.toNat
  | .metaA _ _ _ r _ _, .reg => r.toNat
  | .metaA _ _ _ _ o _, .opts => o.toNat
  | .metaA _ _ _ _ _ a, .arg => a.toNat
  | .metaA _ _ _ _ _ _, .tail => 0
  | .metaB w _ _ _, .word => w.toNat
  | .metaB _ cc _ _, .cc => cc.toNat
  | .metaB _ _ mc _, .mc => mc.toNat
  | .metaB _ _ _ a, .arg => a.toNat
  | .metaB _ _ _ _, .reg => 0
  | .metaB _ _ _ _, .opts => 0
  | .metaB _ _ _ _, .tail => 0

/-- The register a layout-A record selects, `REGSEL(reg)` (30_encoding.md R114). -/
def Decoded.selected (c : Config) : Decoded → Option RegName
  | .plain _ _ _ => none
  | .metaA _ _ _ reg _ _ => c.selReg reg
  | .metaB _ _ _ _ => none

/-- The value of an expression, over the decoded record and the results so far. -/
def Expr.eval (d : Decoded) (env : List Int) : Expr → Int
  | .lit z => z
  | .field f => Decoded.field d f
  | .result n => env.getD n 0
  | .add a b => Expr.eval d env a + Expr.eval d env b
  | .sub a b => Expr.eval d env a - Expr.eval d env b
  | .mul a b => Expr.eval d env a * Expr.eval d env b
  | .div a b => Expr.eval d env a / Expr.eval d env b
  | .mod a b => Expr.eval d env a % Expr.eval d env b

/-- The value of an expression where the primitive takes a natural number; a negative value counts as 0. -/
def Expr.evalNat (d : Decoded) (env : List Int) (e : Expr) : Nat := (Expr.eval d env e).toNat

/-- The register name of a register operand. A well-formed handler uses `selected` only where a register is selected. -/
def RegRef.eval (c : Config) (d : Decoded) : RegRef → RegName
  | .named r => r
  | .selected => (Decoded.selected c d).getD 0

/-- The truth of a comparison. -/
def Cmp.holds : Cmp → Int → Int → Bool
  | .eq, a, b => decide (a = b)
  | .lt, a, b => decide (a < b)
  | .le, a, b => decide (a ≤ b)

/-- The number that stands for a direction as a result: its index in the spec's clockwise order (10_state.md R34). -/
def Dir.index : Dir → Int
  | .up => 0
  | .right => 1
  | .down => 2
  | .left => 3

end Sys2Proof
end

