-- ==== Sys2Proof/Machine/Flags.lean ====
section
/-!
DEFINITION. The Boolean status values of the block (10_state.md R53, R54): the derived predicates `ended?` and
`aborted?`, the phase a cycle leaves, and the phase encoding the host reads (R42). There are no arithmetic flags.
-/
namespace Sys2Proof.Machine

/-- `ended?(E)` (10_state.md R54). -/
def State.isEnded (s : State) : Bool := s.active.isEmpty && s.mq.isEmpty

/-- `aborted?(E)` (10_state.md R53). -/
def State.isAborted (s : State) : Bool := s.phase == .aborted

/-- The phase after a cycle with this active list (42_scheduler.md R259). -/
def phaseAfterCycle (active : List Piston) : Phase :=
  if active = [] then .ended else .running

/-- The encoding of the phase register (10_state.md R42). -/
def Phase.encoding : Phase → Nat
  | .ready => 0
  | .running => 1
  | .ended => 2
  | .aborted => 3

end Sys2Proof.Machine
end

