-- ==== Sys2Proof/Machine/Scheduler.lean ====
section
/-!
DEFINITION. The engine services `FORK`, `SET_PRIORITY` and `KILL` (42_scheduler.md R260–R266), and steps 3 to 6 of a
cycle: drain, empty the queue, prune, count (R255–R259).
-/
namespace Sys2Proof.Machine

/-- The kind of a merge request (10_state.md R45). -/
def MergeRequest.kind (q : MergeRequest) : MergeKind :=
  match q.entrant with
  | .copy _ => .fork
  | .detached _ => .prio

/-! ### Fork -/

/-- The turn a fork's copy makes (42_scheduler.md R260). -/
def Piston.forkTurn (d : ForkDir) (p : Piston) : Piston :=
  match d with
  | .left => p.turnLeft
  | .right => p.turnRight
  | .reverse => p.turnBack

/-- The side a fork's copy is inserted on (42_scheduler.md R261). -/
def forkSide (c : Config) (d : ForkDir) : Side :=
  match d with
  | .left => .left
  | .right => .right
  | .reverse => c.reverseForkSide

/-- The copy a fork of `p` queues: a copy with a fresh id, turned, and moved one cell (R260). -/
def forkCopy (c : Config) (d : ForkDir) (n : PistonId) (p : Piston) : Piston :=
  ((p.copy n).forkTurn d).move c.maxInteger 1

/-- `FORK(d)` (42_scheduler.md R260). -/
def primFork (d : ForkDir) (s : State) : PrimOut Unit :=
  s.withReceiver fun n p =>
    .done ()
      { s with
        nextId := s.nextId + 1
        mq := s.mq ++
          [{ anchor := .id n, entrant := .copy (forkCopy s.cfg d s.nextId p), side := forkSide s.cfg d }] }

/-! ### Priority change -/

/-- Is this the `PRIO` request of piston `n`? -/
def MergeRequest.isPrioOf (n : PistonId) (q : MergeRequest) : Bool := q.entrant == .detached n

/-- Take piston `n`, with contents `p`, out of the active list into the detached pool, or, for a second change in one
cycle, withdraw its earlier request (42_scheduler.md R263, R264). -/
def State.detach (s : State) (n : PistonId) (p : Piston) : State :=
  match Map.get s.detached n with
  | some _ => { s with mq := s.mq.filter fun q => !q.isPrioOf n }
  | none =>
    { s with
      active := s.active.filter fun q => decide (q.id ≠ n)
      detached := Map.put s.detached n p }

/-- The anchor of a priority change: the first active piston with priority at most `v`, or `END` (R263, R265). -/
def prioAnchor (active : List Piston) (v : Int) : Anchor :=
  match active.find? fun q => decide (q.priority ≤ v) with
  | some q => .id q.id
  | none => .listEnd

/-- `SET_PRIORITY(v)` (42_scheduler.md R263). -/
def primSetPriority (v : Int) (s : State) : PrimOut Unit :=
  s.withReceiver fun n p =>
    .done ()
      { s.detach n p with
        detached := Map.put (s.detach n p).detached n { p with priority := v }
        mq := (s.detach n p).mq ++
          [{ anchor := prioAnchor (s.detach n p).active v, entrant := .detached n, side := .left }] }

/-! ### Kill -/

/-- Empty the active list, the merge queue and the detached pool (42_scheduler.md R266, 44_host_interface.md R354). -/
def State.emptyLists (s : State) : State := { s with active := [], mq := [], detached := [] }

/-- `KILL` (42_scheduler.md R266): the handler program ends here, and the pass stops. -/
def primKill (s : State) : PrimOut Unit := .stop { s.emptyLists with killed := true }

/-! ### Steps 3 to 6 of a cycle -/

/-- `index_of_id` (00_scope.md R16). -/
def indexOfId : List Piston → PistonId → Option Nat
  | [], _ => none
  | p :: ps, n => if p.id = n then some 0 else (indexOfId ps n).map (· + 1)

/-- The index at which a request inserts its entrant (42_scheduler.md R256): before or after the anchor, or the end of
the list where there is no anchor or it is not in the list (60_exceptions.md R383). -/
def insertIndex (active : List Piston) (anchor : Anchor) (side : Side) : Nat :=
  match anchor with
  | .listEnd => active.length
  | .id n =>
    match indexOfId active n with
    | some j =>
      match side with
      | .left => j
      | .right => j + 1
    | none => active.length

/-- `L.insert(i, e)` (00_scope.md R16). -/
def insertAt (ps : List Piston) (i : Nat) (p : Piston) : List Piston := ps.take i ++ p :: ps.drop i

/-- Insert an entrant as its request says, into the active list as it now is (R255, R256). -/
def State.insertEntrant (s : State) (q : MergeRequest) (p : Piston) : State :=
  { s with active := insertAt s.active (insertIndex s.active q.anchor q.side) p }

/-- Drain one request (42_scheduler.md R256). A `PRIO` request whose piston is not detached, which R264 rules out,
inserts nothing (log entry 10). -/
def State.drainOne (s : State) (q : MergeRequest) : State :=
  match q.entrant with
  | .copy p => s.insertEntrant q p
  | .detached n =>
    match Map.get s.detached n with
    | some p => { s with detached := Map.erase s.detached n }.insertEntrant q p
    | none => s

/-- Step 3: drain the requests, head first (42_scheduler.md R255). -/
def State.drain (s : State) : State := s.mq.foldl State.drainOne s

/-- Step 4: empty the merge queue (R257). -/
def State.emptyQueue (s : State) : State := { s with mq := [] }

/-- Step 5: remove the ended pistons, keeping order (R258). -/
def State.prune (s : State) : State := { s with active := s.active.filter fun p => !p.ended }

/-- Step 6: count the cycle and set the phase (R259). -/
def State.tick (s : State) : State :=
  { s with cycle := s.cycle + 1, phase := phaseAfterCycle s.active }

/-- The transient values of a cycle are gone (10_state.md R55; log entry 3). -/
def State.endPass (s : State) : State := { s with snapshot := [], killed := false, receiver := none }

/-- Steps 3 to 6 of a cycle (R255–R259). -/
def State.finishCycle (s : State) : State := s.drain.emptyQueue.prune.tick.endPass

end Sys2Proof.Machine
end

