-- ==== Sys2Proof/Machine/Handlers.lean ====
section
/-!
DEFINITION. Handler programs: performing a primitive, executing a program (40_decode_dispatch.md R159), the program a
registry entry runs, and running a handler on the receiver with the abort a raised error takes (60_exceptions.md R387, R388).
-/
namespace Sys2Proof.Machine

/-- How a handler program ends. -/
inductive ProgOut where
  | finished (s : State)
  | raised (k : ErrorKind)
  | lost
  deriving DecidableEq, Repr

/-- The program PLS fixes for `META_D5`, for the register the word selects (40_decode_dispatch.md R168). -/
def metaD5Program (c : Config) (r : RegName) : HProg :=
  .op .getPos fun (pos : Nat × Nat) => .op (.setReg r pos.2 c.optD5) fun _ => .done

end Sys2Proof.Machine

namespace Sys2Proof

open Machine

/-- Perform one primitive (40_decode_dispatch.md R158, R159). -/
def Prim.perform : (p : Prim) → State → PrimOut p.Result
  | .move n, s => primMove n s
  | .turnLeft, s => primTurnLeft s
  | .turnRight, s => primTurnRight s
  | .reverse, s => primReverse s
  | .getReg r, s => primGetReg r s
  | .setReg r v o, s => primSetReg r v o s
  | .getPos, s => primGetPos s
  | .getDir, s => primGetDir s
  | .getPrio, s => primGetPrio s
  | .endPiston, s => primEnd s
  | .fork d, s => primFork d s
  | .setPriority v, s => primSetPriority v s
  | .kill, s => primKill s
  | .memRead a, s => primMemRead a s
  | .memWrite a v, s => primMemWrite a v s
  | .inNum, s => primInNum s
  | .inChar, s => primInChar s
  | .outNum n, s => primOutNum n s
  | .outToken t, s => primOutToken t s

/-- `exec` of a handler program (40_decode_dispatch.md R159): primitives take effect one at a time, in program order;
`KILL` ends the program (42_scheduler.md R266), and so does the first error (R159). -/
def HProg.exec : HProg → State → ProgOut
  | .done, s => .finished s
  | .op p k, s =>
    match Prim.perform p s with
    | .done v t => HProg.exec (k v) t
    | .stop t => .finished t
    | .raise e => .raised e
    | .lost => .lost

/-- A primitive of a written program, its operands evaluated (log entry 4). -/
def PrimCode.toPrim (c : Config) (d : Decoded) (env : List Int) : PrimCode → Prim
  | .move n => .move (Expr.eval d env n)
  | .turnLeft => .turnLeft
  | .turnRight => .turnRight
  | .reverse => .reverse
  | .getReg r => .getReg (RegRef.eval c d r)
  | .setReg r v o => .setReg (RegRef.eval c d r) (Expr.eval d env v) (Expr.evalNat d env o)
  | .getPos => .getPos
  | .getDir => .getDir
  | .getPrio => .getPrio
  | .endPiston => .endPiston
  | .fork dir => .fork dir
  | .setPriority v => .setPriority (Expr.eval d env v)
  | .kill => .kill
  | .memRead a => .memRead (Expr.evalNat d env a)
  | .memWrite a v => .memWrite (Expr.evalNat d env a) (Expr.evalNat d env v)
  | .inNum => .inNum
  | .inChar => .inChar
  | .outNum n => .outNum (Expr.evalNat d env n)
  | .outToken t => .outToken (t.map (Expr.evalNat d env))

/-- The numbers a primitive's result adds for the expressions after it. -/
def Prim.resultInts : (p : Prim) → p.Result → List Int
  | .getReg _, (v : Nat) => [v]
  | .getPos, (v : Nat × Nat) => [v.1, v.2]
  | .getDir, (v : Dir) => [Dir.index v]
  | .getPrio, (v : Int) => [v]
  | .memRead _, (v : Nat) => [v]
  | .inNum, (v : Nat) => [v]
  | .inChar, (v : Nat) => [v]
  | .move _, _ => []
  | .turnLeft, _ => []
  | .turnRight, _ => []
  | .reverse, _ => []
  | .setReg _ _ _, _ => []
  | .endPiston, _ => []
  | .fork _, _ => []
  | .setPriority _, _ => []
  | .kill, _ => []
  | .memWrite _ _, _ => []
  | .outNum _, _ => []
  | .outToken _, _ => []

/-- The handler program a written program stands for (log entry 4). -/
def Code.program (c : Config) (d : Decoded) : Code → List Int → HProg
  | .done, _ => .done
  | .op p k, env =>
    .op (PrimCode.toPrim c d env p) fun v => Code.program c d k (env ++ Prim.resultInts _ v)
  | .branch cmp a b yes no, env =>
    if Cmp.holds cmp (Expr.eval d env a) (Expr.eval d env b) then Code.program c d yes env
    else Code.program c d no env

/-- `h.run(d)` (40_decode_dispatch.md R156): the program of a registry entry. R168 gives the program of `META_D5` only on
a record that selects a register. An entry with this program under a plain or layout-B key passes R157's checks too; on
the records it gets, which select none, it runs `Done` (DESIGN CHOICE, unsafe: log entry 23). -/
def Handler.program (c : Config) (h : Handler) (d : Decoded) : HProg :=
  match h.run with
  | .metaD5 =>
    match Decoded.selected c d with
    | some r => metaD5Program c r
    | none => .done
  | .code k => Code.program c d k []
  | .extern k => Config.externProgram k d

end Sys2Proof

namespace Sys2Proof.Machine

/-- Run a handler program on the receiver, for the instruction whose word is `w`. An error the program raises is taken
as an abort on the state before the step (60_exceptions.md R387), so nothing of the step remains (R388). -/
def State.runHandler (s : State) (w : Word24) (prog : HProg) : Host.Outcome State Fault Refusal :=
  match s.receiverPiston with
  | some p =>
    match HProg.exec prog s with
    | .finished t => .next t
    | .raised k => .next (s.enterAbort k p (some w))
    | .lost => .fault .noReceiver
  | none => .fault .noReceiver

end Sys2Proof.Machine
end

