-- ==== Sys2Proof/Machine/DispatchForms.lean ====
section
/-!
DEFINITION. The meanings of the dispatch forms: `META_D5` (40_decode_dispatch.md R168) and the three generic forms
(R153–R155). Each looks up its handler again; where a form does not fit the registry, the error the decoder would raise
is raised (log entry 8), which no decoded word reaches.
-/
namespace Sys2Proof.Machine

/-- `META_D5`: copy the receiver's y coordinate into register `REGSEL(reg)` (40_decode_dispatch.md R168). -/
def execMetaD5 (reg : BitVec 3) (opts : BitVec 2) (arg : BitVec 12) (s : State) : Host.Outcome State Fault Refusal :=
  match s.cfg.selReg reg with
  | some r => s.runHandler (encode (.metaD5 reg opts arg)) (metaD5Program s.cfg r)
  | none => s.raiseStep (.invalidRegisterSelector 0xD 5 reg) (some (encode (.metaD5 reg opts arg)))

/-- `PLAIN_DISPATCH`: run the handler `(cc)` on `Plain{word, cc, tail}` (R153). -/
def execPlainDispatch (cc : BitVec 4) (tail : BitVec 20) (s : State) : Host.Outcome State Fault Refusal :=
  match s.cfg.registry.plainHandler cc with
  | some h =>
    s.runHandler (encode (.plainDispatch cc tail))
      (Handler.program s.cfg h (.plain (encode (.plainDispatch cc tail)) cc tail))
  | none => s.raiseStep (.unknownControlCode cc) (some (encode (.plainDispatch cc tail)))

/-- `META_A_DISPATCH`: run the handler `(cc, mc)` on `MetaA{word, cc, mc, reg, opts, arg}` (R154, R155). -/
def execMetaADispatch (cc : BitVec 4) (mc : BitVec 3) (reg : BitVec 3) (opts : BitVec 2) (arg : BitVec 12) (s : State) :
    Host.Outcome State Fault Refusal :=
  match s.cfg.registry.metaHandler cc mc with
  | some h =>
    match s.cfg.selReg reg with
    | some _ =>
      s.runHandler (encode (.metaADispatch cc mc reg opts arg))
        (Handler.program s.cfg h (.metaA (encode (.metaADispatch cc mc reg opts arg)) cc mc reg opts arg))
    | none => s.raiseStep (.invalidRegisterSelector cc mc reg) (some (encode (.metaADispatch cc mc reg opts arg)))
  | none => s.raiseStep (.unknownMetaCommand cc mc) (some (encode (.metaADispatch cc mc reg opts arg)))

/-- `META_B_DISPATCH`: run the handler `(cc, mc)` on `MetaB{word, cc, mc, arg}` (R154, R155). -/
def execMetaBDispatch (cc : BitVec 4) (mc : BitVec 3) (arg : BitVec 17) (s : State) : Host.Outcome State Fault Refusal :=
  match s.cfg.registry.metaHandler cc mc with
  | some h =>
    s.runHandler (encode (.metaBDispatch cc mc arg))
      (Handler.program s.cfg h (.metaB (encode (.metaBDispatch cc mc arg)) cc mc arg))
  | none => s.raiseStep (.unknownMetaCommand cc mc) (some (encode (.metaBDispatch cc mc arg)))

end Sys2Proof.Machine
end

