-- ==== Sys2Proof/Machine/Dispatch.lean ====
section
/-!
DEFINITION. `exec`: one arm per instruction, each one direct call of its meaning.
-/
namespace Sys2Proof.Machine

def exec (i : Instr) (s : State) : Host.Outcome State Fault Refusal :=
  match i with
  | .metaD5 reg opts arg => Sys2Proof.Machine.execMetaD5 reg opts arg s
  | .plainDispatch cc tail => Sys2Proof.Machine.execPlainDispatch cc tail s
  | .metaADispatch cc mc reg opts arg => Sys2Proof.Machine.execMetaADispatch cc mc reg opts arg s
  | .metaBDispatch cc mc arg => Sys2Proof.Machine.execMetaBDispatch cc mc arg s
  | .decodeErrorCc cc rest => Sys2Proof.Machine.execDecodeErrorCc cc rest s
  | .decodeErrorMc cc mc rest => Sys2Proof.Machine.execDecodeErrorMc cc mc rest s
  | .invalidRegisterSelector cc mc reg rest => Sys2Proof.Machine.execInvalidRegisterSelector cc mc reg rest s

end Sys2Proof.Machine
end

