-- ==== Sys2Proof/Machine/Cycle.lean ====
section
/-!
DEFINITION. The fetch, the piston step (40_decode_dispatch.md R164), the pass of step 2 (42_scheduler.md R251, R252)
and the whole cycle (R250–R259).
-/
namespace Sys2Proof.Machine

/-- The word at a piston's place (10_state.md R35, R58). -/
def State.fetch (s : State) (p : Piston) : Option Word24 := Grid.at s.cfg.grid p.x p.y

/-- `step_piston(E, P)` for the piston with id `n` (40_decode_dispatch.md R164): fetch, decode, execute. A place without
a word raises `FetchOutOfGrid` (R165). The piston is the receiver for this step alone (10_state.md R55). -/
def State.stepPiston (s : State) (n : PistonId) : Host.Outcome State Fault Refusal :=
  match s.active.find? fun p => p.id == n with
  | none => .fault .noReceiver
  | some p =>
    let t := { s with receiver := some n }
    match s.fetch p with
    | none => .next { t.enterAbort (.fetchOutOfGrid p.x p.y) p none with receiver := none }
    | some w =>
      match exec (decode s.cfg w) t with
      | .next u => .next { u with receiver := none }
      | .fault f => .fault f
      | .refused r => .refused r

/-- The pass of step 2 over the ids still to step (42_scheduler.md R252): stopped by `KILL` (R266), and ended by the
first error (60_exceptions.md R386). -/
def runPass : List PistonId → State → Host.Outcome State Fault Refusal
  | [], s => .next s
  | n :: ns, s =>
    if s.killed then .next s
    else
      match s.stepPiston n with
      | .next t => if t.phase = .aborted then .next t else runPass ns t
      | .fault f => .fault f
      | .refused r => .refused r

/-- Step 2, its start (42_scheduler.md R251). -/
def State.beginPass (s : State) : State :=
  { s with snapshot := s.active.map Piston.id, killed := false, receiver := none }

/-- What follows the pass: nothing after an abort (60_exceptions.md R387), else steps 3 to 6. -/
def State.afterPass (s : State) : State :=
  if s.phase = .aborted then s.endPass else s.finishCycle

/-- Steps 2 to 6 of a cycle (42_scheduler.md R251–R259). -/
def State.runCycle (s : State) : Host.Outcome State Fault Refusal :=
  match runPass s.beginPass.snapshot s.beginPass with
  | .next t => .next t.afterPass
  | .fault f => .fault f
  | .refused r => .refused r

/-- `step_cycle()` (42_scheduler.md R250, 44_host_interface.md R352): nothing in ENDED or ABORTED, else one cycle. With a
registry that failed its initialisation there is no engine, and the command is refused (40_decode_dispatch.md R157). -/
def stepCycle (s : State) : Host.Outcome State Fault Refusal :=
  match s.cfg.registry.initError with
  | some e => .refused (.noEngine e)
  | none =>
    match s.phase with
    | .ended => .next s
    | .aborted => .next s
    | .ready => s.runCycle
    | .running => s.runCycle

end Sys2Proof.Machine
end

