-- ==== Sys2Proof/Machine/Commands.lean ====
section
/-!
DEFINITION. The host commands and the observation (44_host_interface.md R350–R358). Each acts between cycles (R355).
`step_cycle` is `stepCycle` of Machine/Cycle.lean.
-/
namespace Sys2Proof.Machine

/-- A host command answers only if there is an engine (40_decode_dispatch.md R157, 93_implementation_defined.md U18). -/
def State.whenEngine (s : State) (t : State) : Host.Outcome State Fault Refusal :=
  match s.cfg.registry.initError with
  | some e => .refused (.noEngine e)
  | none => .next t

/-- The engine `new(text)` builds before it resets it (44_host_interface.md R350), under the parameters `c`. -/
def State.blank (c : Config) (text : Text) : State :=
  { cfg := c, phase := .ready, cycle := 0, active := [], mq := [], detached := [], mem := [], input := text,
    initialInput := text, output := [], lastOut := none, runs := 0, nextId := 0, abort := none,
    snapshot := [], killed := false, receiver := none }

/-- `new(text)` (44_host_interface.md R350). -/
def newEngine (c : Config) (text : Text) : Host.Outcome State Fault Refusal :=
  (State.blank c text).whenEngine (State.blank c text).resetProcedure

/-- `reset()` (44_host_interface.md R351): allowed in every phase. -/
def hostReset (s : State) : Host.Outcome State Fault Refusal := s.whenEngine s.resetProcedure

/-- The effect of `kill()` (44_host_interface.md R354): the lists are emptied; an aborted engine stays ABORTED. -/
def State.killProcedure (s : State) : State :=
  { s.emptyLists with phase := if s.phase = .aborted then .aborted else .ended }

/-- `kill()` (44_host_interface.md R354). -/
def hostKill (s : State) : Host.Outcome State Fault Refusal := s.whenEngine s.killProcedure

/-- What a run has come to (44_host_interface.md R358): ended, aborted with its record, or still running, which a
bounded driver reports as `OutOfFuel` (R356). -/
inductive RunOutcome where
  | ended
  | aborted (record : Option AbortRecord)
  | running
  deriving DecidableEq, Repr

/-- The outcome of a run, read from a state (44_host_interface.md R358, R359). -/
def State.runOutcome (s : State) : RunOutcome :=
  match s.phase with
  | .ended => .ended
  | .aborted => .aborted s.abort
  | .ready => .running
  | .running => .running

/-- `run()` under a driver's fuel (44_host_interface.md R353, R356): cycles until ENDED or ABORTED, at most `fuel`. -/
def runBounded : Nat → State → Host.Outcome State Fault Refusal
  | 0, s => s.whenEngine s
  | fuel + 1, s =>
    match s.phase with
    | .ended => s.whenEngine s
    | .aborted => s.whenEngine s
    | .ready => match stepCycle s with
      | .next t => runBounded fuel t
      | .fault f => .fault f
      | .refused r => .refused r
    | .running => match stepCycle s with
      | .next t => runBounded fuel t
      | .fault f => .fault f
      | .refused r => .refused r

/-- One piston of the active-piston snapshot (44_host_interface.md R357); `reg` has one cell per name of `REGS`. -/
structure PistonView where
  id : PistonId
  x : Nat
  y : Nat
  dir : Dir
  reg : List (RegName × Cell)
  priority : Int
  ended : Bool
  deriving DecidableEq, Repr

/-- What the host can read between commands: the values of 44_host_interface.md R357, and the run counter, which R357
does not list and 60_exceptions.md R393 says the host reads (DEDUCED, safe: log entry 24). -/
structure Observation where
  cycle : Nat
  runs : Nat
  output : Text
  lastOut : Option Nat
  isEnded : Bool
  isAborted : Bool
  abort : Option AbortRecord
  phase : Phase
  pistons : List PistonView
  deriving DecidableEq, Repr

/-- A piston as the host sees it (44_host_interface.md R357). -/
def Piston.view (c : Config) (p : Piston) : PistonView :=
  { id := p.id, x := p.x, y := p.y, dir := p.dir, reg := c.regs.map fun r => (r, p.cell r),
    priority := p.priority, ended := p.ended }

/-- The observation port (10_state.md R59, 44_host_interface.md R357, 60_exceptions.md R393). -/
def State.observe (s : State) : Observation :=
  { cycle := s.cycle, runs := s.runs, output := s.output, lastOut := s.lastOut, isEnded := s.isEnded,
    isAborted := s.isAborted, abort := s.abort, phase := s.phase, pistons := s.active.map (Piston.view s.cfg) }

/-! ### Placing a program -/

/-- Load one word for the next cycle (log entry 14). With a piston in the active list, the word goes to the place of the
first one. With none, the image gets the word at (0, 0), one start point there facing right, and the piston of that
start point is spawned. An ended or aborted engine is made READY, so that the next cycle runs. -/
def State.loadWord (s : State) (w : Word24) : State :=
  let phase' : Phase := if s.phase = .running then .running else .ready
  match s.active with
  | p :: _ => { s with cfg := { s.cfg with grid := Grid.putCell s.cfg.grid p.x p.y w }, phase := phase', abort := none }
  | [] =>
    { { s with
        cfg := { s.cfg with
          grid := Grid.putCell s.cfg.grid 0 0 w
          startPoints := [{ x := 0, y := 0, dir := .right }] }
        phase := phase'
        abort := none }.seed with killed := false }

end Sys2Proof.Machine
end

