-- ==== Sys2Proof/Machine/Step.lean ====
section
/-!
DEFINITION. `step`: one engine cycle, the block's atomic transition (00_scope.md R4, 44_host_interface.md R352; log
entry 6), and the placing of a word where the next cycle fetches its first instruction.
-/
namespace Sys2Proof.Machine

/-- One step of the machine is one `step_cycle()` (44_host_interface.md R352). -/
def step (s : State) : Host.Outcome State Fault Refusal := stepCycle s

/-- The state with the instruction whose bits are `w` placed where the next step fetches its first instruction
(log entry 14). An instruction is one 24-bit word, so `nbits` is not read. -/
def State.withFetchWord (s : State) (_nbits w : Nat) : State := s.loadWord (BitVec.ofNat 24 w)

end Sys2Proof.Machine
end

