-- ==== Sys2Proof/Safety.lean ====
section
/-!
DEFINITION. Safety: what a sound state of the block is, in the terms the statements use. `Held` is what holds at every
moment, inside a cycle too; `Inv` is what holds between cycles.
-/
namespace Sys2Proof.Machine

/-- A piston within its bounds (10_state.md R33, R36; 41_piston_ops.md R212), its registers in canonical form. -/
abbrev Piston.Ok (m : Nat) (p : Piston) : Prop :=
  p.x < m ∧ p.y < m ∧ Map.Canon p.reg ∧ ∀ c ∈ p.reg, c.2.value < m

/-- The copies the fork requests of a queue carry, in order. -/
def copiesOf : List MergeRequest → List Piston
  | [] => []
  | q :: qs =>
    match q.entrant with
    | .copy p => p :: copiesOf qs
    | .detached _ => copiesOf qs

/-- The ids the priority requests of a queue name, in order. -/
def prioIdsOf : List MergeRequest → List PistonId
  | [] => []
  | q :: qs =>
    match q.entrant with
    | .copy _ => prioIdsOf qs
    | .detached n => n :: prioIdsOf qs

/-- Every piston the engine holds, in the three places one can be (10_state.md R41). -/
def State.held (s : State) : List Piston :=
  s.active ++ (s.detached.map Prod.snd ++ copiesOf s.mq)

/-- What holds of the block at every moment. -/
structure State.Held (s : State) : Prop where
  /-- `M ≥ 1` (00_scope.md R8). -/
  modulus : 1 ≤ s.cfg.maxInteger
  /-- Memory is in canonical form. -/
  memory : Memory.wf s.mem
  /-- Positions and register values are below `M` (10_state.md R33, R36). -/
  bounds : ∀ p ∈ s.held, Piston.Ok s.cfg.maxInteger p
  /-- No two pistons the engine holds have the same id (10_state.md R32). -/
  unique : (s.held.map Piston.id).Nodup
  /-- Every id was given by the generator (10_state.md R51). -/
  given : ∀ p ∈ s.held, p.id < s.nextId
  /-- The detached pool is in canonical form, each piston under its own id (10_state.md R46). -/
  pool : Map.Canon s.detached ∧ ∀ e ∈ s.detached, e.2.id = e.1
  /-- Each detached piston has exactly one `PRIO` request, and no other such request exists (42_scheduler.md R264). -/
  requests : (prioIdsOf s.mq).Nodup ∧ ∀ n, n ∈ prioIdsOf s.mq ↔ n ∈ s.detached.map Prod.fst

/-- What holds between cycles. -/
structure State.Inv (s : State) : Prop where
  held : s.Held
  /-- The abort record is there exactly in ABORTED (10_state.md R52). -/
  record : s.abort.isSome = true ↔ s.phase = .aborted
  /-- Outside ABORTED nothing is queued or detached (10_state.md R46, 42_scheduler.md R257). -/
  drained : s.phase ≠ .aborted → s.mq = [] ∧ s.detached = []
  /-- Outside ABORTED no active piston is ended (70_reset_and_hazards.md R439). -/
  live : s.phase ≠ .aborted → ∀ p ∈ s.active, p.ended = false
  /-- Outside ABORTED the phase is ENDED exactly when no piston is active (10_state.md R42). -/
  ended : s.phase ≠ .aborted → (s.phase = .ended ↔ s.active = [])
  /-- The transient values of a cycle (10_state.md R55) are at rest; the resting values are the model's choice (log entry
  3). -/
  idle : s.snapshot = [] ∧ s.killed = false ∧ s.receiver = none

/-- A run that neither faults nor is refused, for `k` steps. -/
def Safe (s : State) (k : Nat) : Prop := ∃ t, Host.Core.run Sys2Proof.core k s = .next t

end Sys2Proof.Machine

namespace Sys2Proof

/-! ### Handler programs that raise no error

The only primitives with an exception are `GET_REG` and `OUT_TOKEN` (the "Exceptions" lines of 41_piston_ops.md,
42_scheduler.md and 43_memory_io.md). -/

/-- Can this primitive raise an error? -/
def PrimCode.canRaise : PrimCode → Bool
  | .getReg _ => true
  | .outToken _ => true
  | .move _ => false
  | .turnLeft => false
  | .turnRight => false
  | .reverse => false
  | .setReg _ _ _ => false
  | .getPos => false
  | .getDir => false
  | .getPrio => false
  | .endPiston => false
  | .fork _ => false
  | .setPriority _ => false
  | .kill => false
  | .memRead _ => false
  | .memWrite _ _ => false
  | .inNum => false
  | .inChar => false
  | .outNum _ => false

/-- A written program none of whose primitives can raise an error. -/
def Code.quiet : Code → Bool
  | .done => true
  | .op p k => !PrimCode.canRaise p && Code.quiet k
  | .branch _ _ _ yes no => Code.quiet yes && Code.quiet no

/-- The primitives of kind "receiver" (40_decode_dispatch.md R158). -/
def Prim.isReceiver : Prim → Bool
  | .move _ => true
  | .turnLeft => true
  | .turnRight => true
  | .reverse => true
  | .getReg _ => true
  | .setReg _ _ _ => true
  | .getPos => true
  | .getDir => true
  | .getPrio => true
  | .endPiston => true
  | .fork _ => false
  | .setPriority _ => false
  | .kill => false
  | .memRead _ => false
  | .memWrite _ _ => false
  | .inNum => false
  | .inChar => false
  | .outNum _ => false
  | .outToken _ => false

/-! ### Documentation fields

The glyph and description of a handler have no effect (40_decode_dispatch.md R161): the statement about them compares
a state with the same state under other documentation. -/

/-- The parameters with every handler's glyph and description replaced. -/
def Config.withDocs (f : Handler → Char × String) (c : Config) : Config :=
  { c with registry := { c.registry with
      handlers := c.registry.handlers.map fun h => { h with glyph := (f h).1, description := (f h).2 } } }

end Sys2Proof

namespace Sys2Proof.Machine

/-- The state under those parameters. -/
def State.withDocs (f : Handler → Char × String) (s : State) : State := { s with cfg := Config.withDocs f s.cfg }

/-- An outcome with its next state changed. -/
def mapNext (g : State → State) : Host.Outcome State Fault Refusal → Host.Outcome State Fault Refusal
  | .next s => .next (g s)
  | .fault f => .fault f
  | .refused r => .refused r

/-- The active list in non-increasing priority order (42_scheduler.md R263, R267). -/
abbrev PriorityOrdered (ps : List Piston) : Prop := ps.Pairwise fun a b => b.priority ≤ a.priority

end Sys2Proof.Machine
end

