-- ==== Sys2Proof/Certificates/Slice0/Obligations.lean ====
section
/-!
DEFINITION. The statements for the provers. Each docstring says which words of spec/ a statement formalises.
A piston is `located` under an id where 42_scheduler.md R253 says it lives; `s.receiver = some n` and
`s.locate n = some p` say that piston `p` is the receiver of the running step, as it is whenever the spec executes an
instruction (42_scheduler.md R252).
-/

open Sys2Proof Sys2Proof.Machine

/-! ### Encoding and decoding -/

/-- The decoder inverts the encoder exactly on the instructions that are well formed under the registry. -/
def Obligations.DecodeOfEncodeExactlyOnWellFormed : Prop :=
  ∀ (c : Config) (i : Instr), decode c (encode i) = i ↔ i.wf c = true

/-- Decoding loses no bit of the word (30_encoding.md R113–R116): encoding the decoded instruction gives it back. -/
def Obligations.EncodeOfDecodeGivesTheWordBack : Prop :=
  ∀ (c : Config) (w : Word24), encode (decode c w) = w

/-- R150: decoding is total, and what it gives fits the registry. -/
def Obligations.EveryWordDecodesToAWellFormedInstruction : Prop :=
  ∀ (c : Config) (w : Word24), (decode c w).wf c = true

/-- Words of 30_encoding.md R126 and 95_test_vectors.md section 2.2, under the test configuration that `State.reset`
has (the model's choice, log entry 2). -/
def Obligations.SpecWordsDecodeAsWritten : Prop :=
  decode Config.boot 0xDA4123 = .metaD5 1 0 0x123 ∧
  decode Config.boot 0x123456 = .plainDispatch 1 0x23456 ∧
  decode Config.boot 0xD24FFF = .metaADispatch 0xD 1 1 0 0xFFF ∧
  decode Config.boot 0x60000A = .metaBDispatch 6 0 0xA ∧
  decode Config.boot 0xABCDEF = .decodeErrorCc 0xA 0xBCDEF ∧
  decode Config.boot 0xD74000 = .decodeErrorMc 0xD 3 0x14000 ∧
  decode Config.boot 0xDB4000 = .invalidRegisterSelector 0xD 5 5 0

/-- 30_encoding.md R119: with a registry that passed its initialisation, the `META_D5` words are those with
`(w & 0xFE0000) = 0xDA0000`, 0xDA0000 to 0xDBFFFF, less those whose selector names no register (40_decode_dispatch.md R155). -/
def Obligations.MetaD5WordsAreTheMaskMatch : Prop :=
  ∀ (c : Config) (w : Word24), c.registry.initError = none →
    ((w &&& 0xFE0000 = 0xDA0000 ↔ 0xDA0000 ≤ w.toNat ∧ w.toNat ≤ 0xDBFFFF) ∧
     ((∃ reg opts arg, decode c w = .metaD5 reg opts arg) ↔
        w &&& 0xFE0000 = 0xDA0000 ∧ (c.selReg (regOf w)).isSome = true))

/-- 40_decode_dispatch.md R152: a word whose control code has no category raises `UnknownControlCode`. -/
def Obligations.UncategorisedControlCodeRaises : Prop :=
  ∀ (s : State) (n : PistonId) (p : Piston) (w : Word24),
    s.receiver = some n → s.locate n = some p →
    s.cfg.registry.layout (ccOf w) = .none →
    exec (decode s.cfg w) s =
      .next { s with
        phase := .aborted
        abort := some { kind := .unknownControlCode (ccOf w), cycle := s.cycle, pistonId := p.id, x := p.x, y := p.y,
                        word := some w } }

/-- 40_decode_dispatch.md R153: a plain word selects the one entry with its control code and `mc = -1`, and carries the
20 bits below the control code unread. -/
def Obligations.PlainWordSelectsItsOneHandler : Prop :=
  ∀ (c : Config) (w : Word24), c.registry.initError = none → c.registry.layout (ccOf w) = .plain →
    (decode c w).decoded = some (.plain w (ccOf w) (tailOf w)) ∧ (tailOf w).toNat = w.toNat % 2 ^ 20 ∧
    ∃ h, c.registry.plainHandler (ccOf w) = some h ∧
      ∀ g, (g ∈ c.registry.handlers ∧ g.cc = (ccOf w).toNat ∧ g.mc = -1) ↔ g = h

/-- 40_decode_dispatch.md R154: a word of a meta family selects the one entry with its control code and meta command, and
selects it whenever there is one; where there is none, it raises `UnknownMetaCommand`. -/
def Obligations.MetaWordSelectsItsOneHandlerOrRaises : Prop :=
  ∀ (s : State) (n : PistonId) (p : Piston) (w : Word24),
    s.receiver = some n → s.locate n = some p → s.cfg.registry.initError = none →
    (s.cfg.registry.layout (ccOf w) = .metaA ∨ s.cfg.registry.layout (ccOf w) = .metaB) →
    (mcOf w).toNat = w.toNat / 2 ^ 17 % 2 ^ 3 ∧
    (∀ h, s.cfg.registry.metaHandler (ccOf w) (mcOf w) = some h →
      ∀ g, (g ∈ s.cfg.registry.handlers ∧ g.cc = (ccOf w).toNat ∧ g.mc = (mcOf w).toNat) ↔ g = h) ∧
    (∀ g ∈ s.cfg.registry.handlers, g.cc = (ccOf w).toNat → g.mc = (mcOf w).toNat →
      s.cfg.registry.metaHandler (ccOf w) (mcOf w) = some g) ∧
    ((¬ ∃ g ∈ s.cfg.registry.handlers, g.cc = (ccOf w).toNat ∧ g.mc = (mcOf w).toNat) →
      exec (decode s.cfg w) s =
        .next { s with
          phase := .aborted
          abort := some { kind := .unknownMetaCommand (ccOf w) (mcOf w), cycle := s.cycle, pistonId := p.id, x := p.x,
                          y := p.y, word := some w } })

/-- 40_decode_dispatch.md R155: the argument fields of a word whose meta handler was found, the selector check of layout A,
and the order of the three checks: a word without a category reports that whatever its other fields hold, and a word
without a handler reports that whatever its selector holds. -/
def Obligations.ArgumentFieldsAndSelectorCheck : Prop :=
  ∀ (s : State) (n : PistonId) (p : Piston) (w : Word24), s.receiver = some n → s.locate n = some p →
    let aborted := fun k => s.enterAbort k p (some w)
    (s.cfg.registry.layout (ccOf w) = .none →
      exec (decode s.cfg w) s = .next (aborted (.unknownControlCode (ccOf w)))) ∧
    ((s.cfg.registry.layout (ccOf w) = .metaA ∨ s.cfg.registry.layout (ccOf w) = .metaB) →
      s.cfg.registry.metaHandler (ccOf w) (mcOf w) = none →
      exec (decode s.cfg w) s = .next (aborted (.unknownMetaCommand (ccOf w) (mcOf w)))) ∧
    ((s.cfg.registry.metaHandler (ccOf w) (mcOf w)).isSome = true →
      (s.cfg.registry.layout (ccOf w) = .metaA → s.cfg.selReg (regOf w) = none →
        exec (decode s.cfg w) s = .next (aborted (.invalidRegisterSelector (ccOf w) (mcOf w) (regOf w)))) ∧
      (s.cfg.registry.layout (ccOf w) = .metaA → (s.cfg.selReg (regOf w)).isSome = true →
        (decode s.cfg w).decoded = some (.metaA w (ccOf w) (mcOf w) (regOf w) (optsOf w) (argAOf w))) ∧
      (s.cfg.registry.layout (ccOf w) = .metaB →
        (decode s.cfg w).decoded = some (.metaB w (ccOf w) (mcOf w) (argBOf w)))) ∧
    (regOf w).toNat = w.toNat / 2 ^ 14 % 2 ^ 3 ∧ (optsOf w).toNat = w.toNat / 2 ^ 12 % 2 ^ 2 ∧
    (argAOf w).toNat = w.toNat % 2 ^ 12 ∧ (argBOf w).toNat = w.toNat % 2 ^ 17

/-- 40_decode_dispatch.md R157: the five initialisation checks in their order with the error each gives, `layout`, and
the refusal of every host command after a failed check. Two clauses are the model's reading: check 5 asks for the program
of `META_D5` itself (log entry 12, DEDUCED), and the refusal is answered at each command (log entry 13, DEDUCED). -/
def Obligations.RegistryInitialisationChecks : Prop :=
  ∀ r : Registry,
    let c1 := ∀ h ∈ r.handlers, 0 ≤ h.cc ∧ h.cc ≤ 15 ∧ -1 ≤ h.mc ∧ h.mc ≤ 7
    let c2 := (r.handlers.map Handler.key).Nodup
    let c3 := ¬ ∃ g ∈ r.handlers, ∃ h ∈ r.handlers, g.cc = h.cc ∧ g.mc = -1 ∧ 0 ≤ h.mc
    let c4 := ∀ h ∈ r.handlers,
      (h.mc = -1 → r.family h.cc.toNat = none) ∧ (0 ≤ h.mc → r.family h.cc.toNat ≠ none)
    let c5 := (∃ h ∈ r.handlers, h.cc = 13 ∧ h.mc = 5 ∧ h.run = .metaD5) ∧ r.family 13 = some .a
    (r.initError = none ↔ c1 ∧ c2 ∧ c3 ∧ c4 ∧ c5) ∧
    (¬ c1 → r.initError.map RegistrationError.code = some 17) ∧
    (c1 ∧ ¬ c2 → r.initError.map RegistrationError.code = some 16) ∧
    (c1 ∧ c2 ∧ ¬ c3 → r.initError.map RegistrationError.code = some 16) ∧
    (c1 ∧ c2 ∧ c3 ∧ ¬ c4 → r.initError.map RegistrationError.code = some 17) ∧
    (c1 ∧ c2 ∧ c3 ∧ c4 ∧ ¬ c5 → r.initError.map RegistrationError.code = some 17) ∧
    (∀ cc : BitVec 4, r.layout cc = .plain ↔ ∃ h ∈ r.handlers, h.cc = cc.toNat ∧ h.mc = -1) ∧
    (∀ cc : BitVec 4, r.layout cc ≠ .plain →
      (r.layout cc = .metaA ↔ r.family cc.toNat = some .a) ∧
      (r.layout cc = .metaB ↔ r.family cc.toNat = some .b) ∧
      (r.layout cc = .none ↔ r.family cc.toNat = none)) ∧
    (∀ s : State, ∀ e, s.cfg.registry = r → r.initError = some e →
      step s = .refused (.noEngine e) ∧ hostReset s = .refused (.noEngine e) ∧
      hostKill s = .refused (.noEngine e) ∧ (∀ k, runBounded k s = .refused (.noEngine e)) ∧
      ∀ text, newEngine s.cfg text = .refused (.noEngine e))

/-- 40_decode_dispatch.md R161: other glyphs and descriptions give the same decoding and the same execution. -/
def Obligations.DocumentationFieldsHaveNoEffect : Prop :=
  ∀ (f : Handler → Char × String) (s : State),
    (∀ w, decode (Config.withDocs f s.cfg) w = decode s.cfg w) ∧
    ∀ i, exec i (s.withDocs f) = mapNext (State.withDocs f) (exec i s)

/-! ### META_D5 -/

/-- 40_decode_dispatch.md R168: the receiver's y coordinate, reduced mod M, goes to register `REGSEL(reg)` with options
`OPT_D5`, and nothing else changes: no other register or field of the receiver, no other piston, no list, no address
of memory, no other engine field. -/
def Obligations.MetaD5StoresTheYCoordinate : Prop :=
  ∀ (s : State) (n : PistonId) (p : Piston) (r : RegName) (reg : BitVec 3) (opts : BitVec 2) (arg : BitVec 12),
    s.receiver = some n → s.locate n = some p → s.cfg.selReg reg = some r →
    ∃ t p', exec (.metaD5 reg opts arg) s = .next t ∧ t.locate n = some p' ∧
      p' = { p with reg := p'.reg } ∧
      (∀ q, p'.cell q = if q = r then .val (p.y % s.cfg.maxInteger) s.cfg.optD5 else p.cell q) ∧
      (∀ m, m ≠ n → t.locate m = s.locate m) ∧
      t.active.map Piston.id = s.active.map Piston.id ∧ t.detached.map Prod.fst = s.detached.map Prod.fst ∧
      t.mq = s.mq ∧ (∀ a, t.mem.read a = s.mem.read a) ∧
      t = { s with active := t.active, detached := t.detached }

/-- 40_decode_dispatch.md R169: the `opts` and `arg` fields of a `META_D5` word do not matter. -/
def Obligations.MetaD5IgnoresOptsAndArg : Prop :=
  ∀ (s : State) (reg : BitVec 3) (o o' : BitVec 2) (a a' : BitVec 12), (s.cfg.selReg reg).isSome = true →
    exec (.metaD5 reg o a) s = exec (.metaD5 reg o' a') s

/-- 70_reset_and_hazards.md R441, 44_host_interface.md R353: a lone piston on a `META_D5` cell stays there and runs it in
every later cycle; the run does not end. -/
def Obligations.LonePistonOnMetaD5RunsForever : Prop :=
  ∀ (s : State) (p : Piston) (w : Word24) (reg : BitVec 3) (opts : BitVec 2) (arg : BitVec 12) (r : RegName),
    s.cfg.registry.initError = none → (s.phase = .ready ∨ s.phase = .running) →
    s.active = [p] → s.mq = [] → s.detached = [] → p.ended = false →
    Grid.at s.cfg.grid p.x p.y = some w → decode s.cfg w = .metaD5 reg opts arg → s.cfg.selReg reg = some r →
    ∀ k, ∃ t p', Host.Core.run core (k + 1) s = .next t ∧ t.phase = .running ∧ t.cycle = s.cycle + (k + 1) ∧
      t.active = [p'] ∧ p' = { p with reg := p'.reg } ∧
      p'.cell r = .val (p.y % s.cfg.maxInteger) s.cfg.optD5 ∧ t.mem = s.mem ∧ t.output = s.output ∧ t.input = s.input

/-! ### The dispatch forms -/

/-- 40_decode_dispatch.md R159, R164: a dispatched word runs the program of its handler on the receiver; the step is the
program's end, or the abort of the error it raises, on the state before the step (60_exceptions.md R387). Before that, how a
program runs (R159): `Done` ends it; a primitive takes effect and the continuation of its result runs on the state it
left; the first error ends the program with that error; a primitive that stops the program (`KILL`) ends it there. -/
def Obligations.DispatchRunsTheHandlerProgram : Prop :=
  (∀ s : State, HProg.exec .done s = .finished s) ∧
  (∀ (prim : Prim) (k : prim.Result → HProg) (s : State),
    (∀ v t, Prim.perform prim s = .done v t → HProg.exec (.op prim k) s = HProg.exec (k v) t) ∧
    (∀ t, Prim.perform prim s = .stop t → HProg.exec (.op prim k) s = .finished t) ∧
    (∀ e, Prim.perform prim s = .raise e → HProg.exec (.op prim k) s = .raised e)) ∧
  ∀ (s : State) (n : PistonId) (p : Piston) (h : Handler), s.receiver = some n → s.locate n = some p →
    (∀ cc tail, s.cfg.registry.plainHandler cc = some h →
      ∃ t, exec (.plainDispatch cc tail) s = .next t ∧
        (HProg.exec (h.program s.cfg (.plain (cc ++ tail) cc tail)) s = .finished t ∨
          ∃ k, HProg.exec (h.program s.cfg (.plain (cc ++ tail) cc tail)) s = .raised k ∧
            t = s.enterAbort k p (some (cc ++ tail)))) ∧
    (∀ cc mc reg opts arg r, s.cfg.registry.metaHandler cc mc = some h → s.cfg.selReg reg = some r →
      ∃ t, exec (.metaADispatch cc mc reg opts arg) s = .next t ∧
        (HProg.exec (h.program s.cfg (.metaA (cc ++ mc ++ reg ++ opts ++ arg) cc mc reg opts arg)) s = .finished t ∨
          ∃ k, HProg.exec (h.program s.cfg (.metaA (cc ++ mc ++ reg ++ opts ++ arg) cc mc reg opts arg)) s = .raised k ∧
            t = s.enterAbort k p (some (cc ++ mc ++ reg ++ opts ++ arg)))) ∧
    (∀ cc mc arg, s.cfg.registry.metaHandler cc mc = some h →
      ∃ t, exec (.metaBDispatch cc mc arg) s = .next t ∧
        (HProg.exec (h.program s.cfg (.metaB (cc ++ mc ++ arg) cc mc arg)) s = .finished t ∨
          ∃ k, HProg.exec (h.program s.cfg (.metaB (cc ++ mc ++ arg) cc mc arg)) s = .raised k ∧
            t = s.enterAbort k p (some (cc ++ mc ++ arg))))

/-- The dispatch forms complete, with their handler's effect and no abort, whenever the handler's program uses neither
`GET_REG` nor `OUT_TOKEN`, the only primitives with an exception (41_piston_ops.md R205, 43_memory_io.md R306). -/
def Obligations.QuietHandlersComplete : Prop :=
  ∀ (s : State) (n : PistonId) (p : Piston) (h : Handler) (k : Code), s.receiver = some n → s.locate n = some p →
    h.run = .code k → Code.quiet k = true →
    (∀ cc tail, s.cfg.registry.plainHandler cc = some h →
      ∃ t, exec (.plainDispatch cc tail) s = .next t ∧ t.phase = s.phase ∧ t.abort = s.abort ∧
        HProg.exec (k.program s.cfg (.plain (cc ++ tail) cc tail) []) s = .finished t) ∧
    (∀ cc mc reg opts arg r, s.cfg.registry.metaHandler cc mc = some h → s.cfg.selReg reg = some r →
      ∃ t, exec (.metaADispatch cc mc reg opts arg) s = .next t ∧ t.phase = s.phase ∧ t.abort = s.abort ∧
        HProg.exec (k.program s.cfg (.metaA (cc ++ mc ++ reg ++ opts ++ arg) cc mc reg opts arg) []) s = .finished t) ∧
    (∀ cc mc arg, s.cfg.registry.metaHandler cc mc = some h →
      ∃ t, exec (.metaBDispatch cc mc arg) s = .next t ∧ t.phase = s.phase ∧ t.abort = s.abort ∧
        HProg.exec (k.program s.cfg (.metaB (cc ++ mc ++ arg) cc mc arg) []) s = .finished t)

/-- 40_decode_dispatch.md R160: whatever handler runs, it changes no piston but its receiver, unless it ran `KILL`. Every
other active or detached piston is found unchanged, its priority included, and the copies waiting in the fork requests
(10_state.md R41) stay as they are, new ones behind them. -/
def Obligations.HandlerChangesOnlyItsReceiver : Prop :=
  ∀ (prog : HProg) (s t : State) (n : PistonId), s.receiver = some n → s.killed = false →
    HProg.exec prog s = .finished t → t.killed = false →
    (∀ m, m ≠ n → t.locate m = s.locate m) ∧ copiesOf s.mq <+: copiesOf t.mq

/-- 42_scheduler.md R254, R266: during a handler the active list changes only by the removal of the receiver, or is
emptied by `KILL`, which empties the queue and the detached pool with it. -/
def Obligations.HandlerOnlyRemovesItsReceiver : Prop :=
  ∀ (prog : HProg) (s t : State) (n : PistonId), s.receiver = some n → s.killed = false →
    HProg.exec prog s = .finished t →
    (t.killed = true ∧ t.active = [] ∧ t.mq = [] ∧ t.detached = []) ∨
    (t.killed = false ∧
      (t.active.map Piston.id = s.active.map Piston.id ∨
        t.active.map Piston.id = (s.active.map Piston.id).filter (· ≠ n)))

/-- The frame of every instruction: the parameters, the cycle and run counters, the initial input and the snapshot are
unchanged; ids only move on (10_state.md R51), output is only appended to (R49), input is only consumed from the front
(R48); the phase and the abort record change only together, by an abort (60_exceptions.md R387). -/
def Obligations.InstructionsLeaveTheEngineRegisters : Prop :=
  ∀ (i : Instr) (s t : State), exec i s = .next t →
    t.cfg = s.cfg ∧ t.cycle = s.cycle ∧ t.runs = s.runs ∧ t.initialInput = s.initialInput ∧
    t.snapshot = s.snapshot ∧ t.receiver = s.receiver ∧ s.nextId ≤ t.nextId ∧
    (∃ x, t.output = s.output ++ x) ∧ (∃ x, s.input = x ++ t.input) ∧
    ((t.phase = s.phase ∧ t.abort = s.abort) ∨ (t.phase = .aborted ∧ t.abort.isSome = true))

/-! ### Aborts -/

/-- The two illegal forms (30_encoding.md R120, 60_exceptions.md R381) and the form of an invalid selector
(40_decode_dispatch.md R155, 30_encoding.md R121) take their abort (60_exceptions.md R380, R387): the record holds the kind
with its info, the cycle, the piston and its place, and the word; only the phase changes beside it. That a form does so
under a registry that does not make it one, which no word decodes to, is the model's choice (log entry 8). -/
def Obligations.IllegalFormsTakeTheirAbort : Prop :=
  ∀ (s : State) (n : PistonId) (p : Piston), s.receiver = some n → s.locate n = some p →
    (∀ cc rest, exec (.decodeErrorCc cc rest) s =
      .next { s with
        phase := .aborted
        abort := some { kind := .unknownControlCode cc, cycle := s.cycle, pistonId := p.id, x := p.x, y := p.y,
                        word := some (cc ++ rest) } }) ∧
    (∀ cc mc rest, exec (.decodeErrorMc cc mc rest) s =
      .next { s with
        phase := .aborted
        abort := some { kind := .unknownMetaCommand cc mc, cycle := s.cycle, pistonId := p.id, x := p.x, y := p.y,
                        word := some (cc ++ mc ++ rest) } }) ∧
    (∀ cc mc reg rest, exec (.invalidRegisterSelector cc mc reg rest) s =
      .next { s with
        phase := .aborted
        abort := some { kind := .invalidRegisterSelector cc mc reg, cycle := s.cycle, pistonId := p.id, x := p.x,
                        y := p.y, word := some (cc ++ mc ++ reg ++ rest) } })

/-- 60_exceptions.md R388: a failing step leaves nothing of itself. The state after it is the state before it, with what
the earlier pistons of the cycle did, their pending requests and detached pistons, and the abort entered. -/
def Obligations.FailingStepHasNoEffect : Prop :=
  ∀ (i : Instr) (s t : State), s.phase ≠ .aborted → exec i s = .next t → t.phase = .aborted →
    ∃ k p, s.receiverPiston = some p ∧
      t = { s with
        phase := .aborted
        abort := some { kind := k, cycle := s.cycle, pistonId := p.id, x := p.x, y := p.y, word := some (encode i) } }

/-- 40_decode_dispatch.md R165: fetching a place outside the image aborts, with no word in the record, and nothing else
changes. -/
def Obligations.FetchOutsideTheImageAborts : Prop :=
  ∀ (s : State) (n : PistonId) (p : Piston), s.receiver = none →
    (s.active.find? fun q => q.id == n) = some p → Grid.at s.cfg.grid p.x p.y = none →
    s.stepPiston n =
      .next { s with
        phase := .aborted
        abort := some { kind := .fetchOutOfGrid p.x p.y, cycle := s.cycle, pistonId := p.id, x := p.x, y := p.y,
                        word := none } }

/-- 60_exceptions.md R386, R387: the first piston of the snapshot whose step aborts ends the cycle. The state is the one
its step left: nothing is drained or pruned, the cycle is not counted, and the pistons after it do not step. The resting
values of the three transient fields are the model's choice (log entry 3). -/
def Obligations.FirstFailingPistonEndsTheCycle : Prop :=
  ∀ (s u v : State) (before after : List PistonId) (n : PistonId),
    s.cfg.registry.initError = none → (s.phase = .ready ∨ s.phase = .running) →
    s.active.map Piston.id = before ++ n :: after →
    runPass before s.beginPass = .next u → u.phase ≠ .aborted → u.killed = false →
    u.stepPiston n = .next v → v.phase = .aborted →
    step s = .next { v with snapshot := [], killed := false, receiver := none } ∧ v.mq = u.mq ∧
      v.active = u.active ∧ v.cycle = s.cycle

/-- 60_exceptions.md R390: a cycle and a run change nothing in ABORTED, a host `kill()` empties the lists and keeps the
phase and the record, and only `reset()` leaves the phase, clearing the record. -/
def Obligations.OnlyResetLeavesAborted : Prop :=
  ∀ s : State, s.cfg.registry.initError = none → s.phase = .aborted →
    step s = .next s ∧ (∀ k, runBounded k s = .next s) ∧
    hostKill s = .next { s with active := [], mq := [], detached := [] } ∧
    ∃ t, hostReset s = .next t ∧ t.phase ≠ .aborted ∧ t.abort = none ∧
      t.active.length = s.cfg.startPoints.length

/-! ### The piston primitives -/

/-- 41_piston_ops.md R211. -/
def Obligations.TurnAndMoveLaws : Prop :=
  (∀ d : Dir, d.cw.ccw = d ∧ d.ccw.cw = d ∧ d.opp.opp = d ∧ d.cw.cw.cw.cw = d ∧ d.ccw.ccw.ccw.ccw = d) ∧
  (∀ (m : Nat) (a b : Int) (p : Piston), 1 ≤ m → (p.move m a).move m b = p.move m (a + b)) ∧
  (∀ (m : Nat) (n : Int) (p : Piston), 1 ≤ m → p.x < m → p.y < m →
    ((p.move m n).turnBack.move m n).turnBack = p)

/-- 41_piston_ops.md R212: every receiver primitive keeps the receiver's place and registers within their bounds. -/
def Obligations.ReceiverPrimitivesKeepBounds : Prop :=
  ∀ (prim : Prim) (v : prim.Result) (s t : State) (n : PistonId) (p : Piston), prim.isReceiver = true →
    1 ≤ s.cfg.maxInteger → s.receiver = some n → s.locate n = some p → Piston.Ok s.cfg.maxInteger p →
    Prim.perform prim s = .done v t →
    ∃ p', t.locate n = some p' ∧ p'.x < s.cfg.maxInteger ∧ p'.y < s.cfg.maxInteger ∧
      ∀ r, p'.cell r = .unset ∨ ∃ w o, p'.cell r = .val w o ∧ w < s.cfg.maxInteger

/-- 10_state.md R37, R38; 41_piston_ops.md R205, R206: a register write stores the value mod M with its options, and
changes nothing else; reading gives the value and changes nothing; reading an unset register raises
`UnsetRegisterRead`. -/
def Obligations.RegisterWriteThenRead : Prop :=
  ∀ (s : State) (n : PistonId) (p : Piston) (r : RegName), 1 ≤ s.cfg.maxInteger → s.receiver = some n →
    s.locate n = some p →
    (∀ (v : Int) (o : Opts), ∃ t p' z, Prim.perform (.setReg r v o) s = .done () t ∧ t.locate n = some p' ∧
      p'.cell r = .val z o ∧ (z : Int) = v % (s.cfg.maxInteger : Int) ∧ z < s.cfg.maxInteger ∧
      Prim.perform (.getReg r) t = .done z t ∧
      p' = { p with reg := p'.reg } ∧ (∀ q, q ≠ r → p'.cell q = p.cell q) ∧ (∀ m, m ≠ n → t.locate m = s.locate m) ∧
      t.active.map Piston.id = s.active.map Piston.id ∧ t.detached.map Prod.fst = s.detached.map Prod.fst ∧
      t = { s with active := t.active, detached := t.detached }) ∧
    (∀ v o, p.cell r = .val v o → Prim.perform (.getReg r) s = .done v s) ∧
    (p.cell r = .unset → Prim.perform (.getReg r) s = .raise (.unsetRegisterRead r))

/-- 41_piston_ops.md R200–R203, R207–R210: what the receiver primitives other than the two on registers make of the
receiver or read from it, and their frame: every other piston, every list order, memory, IO and engine field stays.
The unit steps and the turns are those of the tables of 10_state.md R34 and R201–R203. -/
def Obligations.ReceiverPrimitiveEffects : Prop :=
  ([Dir.up, Dir.right, Dir.down, Dir.left].map Dir.unit = [(0, -1), (1, 0), (0, 1), (-1, 0)] ∧
    [Dir.up, Dir.right, Dir.down, Dir.left].map Dir.cw = [.right, .down, .left, .up] ∧
    [Dir.up, Dir.right, Dir.down, Dir.left].map Dir.ccw = [.left, .up, .right, .down] ∧
    [Dir.up, Dir.right, Dir.down, Dir.left].map Dir.opp = [.down, .left, .up, .right]) ∧
  ∀ (s : State) (n : PistonId) (p : Piston), 1 ≤ s.cfg.maxInteger → s.receiver = some n → s.locate n = some p →
    (∀ (prim : Prim) (p' : Piston),
      ((∃ k, prim = .move k ∧
          p' = { p with
            x := ((p.x + k * (Dir.unit p.dir).1) % (s.cfg.maxInteger : Int)).toNat
            y := ((p.y + k * (Dir.unit p.dir).2) % (s.cfg.maxInteger : Int)).toNat }) ∨
        (prim = .turnLeft ∧ p' = { p with dir := p.dir.ccw }) ∨
        (prim = .turnRight ∧ p' = { p with dir := p.dir.cw }) ∨
        (prim = .reverse ∧ p' = { p with dir := p.dir.opp }) ∨
        (prim = .endPiston ∧ p' = { p with ended := true })) →
      ∃ v t, Prim.perform prim s = .done v t ∧ t.locate n = some p' ∧
        (∀ m, m ≠ n → t.locate m = s.locate m) ∧
        t.active.map Piston.id = s.active.map Piston.id ∧ t.detached.map Prod.fst = s.detached.map Prod.fst ∧
        t = { s with active := t.active, detached := t.detached }) ∧
    Prim.perform .getPos s = .done (p.x, p.y) s ∧ Prim.perform .getDir s = .done p.dir s ∧
    Prim.perform .getPrio s = .done p.priority s

/-! ### The scheduler -/

/-- 42_scheduler.md R260: a fork queues a copy of the receiver with a fresh id, turned and moved one cell, on its side of
the receiver, and changes nothing else. -/
def Obligations.ForkQueuesATurnedCopy : Prop :=
  ∀ (s : State) (n : PistonId) (p : Piston) (d : ForkDir), s.receiver = some n → s.locate n = some p →
    ∃ q side, Prim.perform (.fork d) s =
        .done () { s with
          nextId := s.nextId + 1
          mq := s.mq ++ [{ anchor := .id n, entrant := .copy q, side := side }] } ∧
      q.id = s.nextId ∧ q.reg = p.reg ∧ q.priority = p.priority ∧ q.ended = p.ended ∧
      (d = .left → q.dir = p.dir.ccw ∧ side = .left) ∧
      (d = .right → q.dir = p.dir.cw ∧ side = .right) ∧
      (d = .reverse → q.dir = p.dir.opp ∧ side = s.cfg.reverseForkSide) ∧
      q.x = ((p.x + (Dir.unit q.dir).1) % (s.cfg.maxInteger : Int)).toNat ∧
      q.y = ((p.y + (Dir.unit q.dir).2) % (s.cfg.maxInteger : Int)).toNat

/-- 42_scheduler.md R263, R265: a priority change takes the receiver out of the active list, holds it with its new
priority, and queues its return before the first remaining piston of no greater priority, or at the end. -/
def Obligations.PriorityChangeDetachesAndQueues : Prop :=
  ∀ (s : State) (n : PistonId) (p : Piston) (v : Int), s.receiver = some n → Map.get s.detached n = none →
    (s.active.find? fun q => q.id == n) = some p →
    ∃ t anchor, Prim.perform (.setPriority v) s = .done () t ∧
      t.active = s.active.filter (fun q => decide (q.id ≠ n)) ∧
      t.mq = s.mq ++ [{ anchor := anchor, entrant := .detached n, side := .left }] ∧
      t.locate n = some { p with priority := v } ∧ (∀ m, m ≠ n → t.locate m = s.locate m) ∧
      (∀ l q r, t.active = l ++ q :: r → (∀ a ∈ l, v < a.priority) → q.priority ≤ v → anchor = .id q.id) ∧
      ((∀ a ∈ t.active, v < a.priority) → anchor = .listEnd) ∧
      t = { s with active := t.active, mq := t.mq, detached := t.detached }

/-- 42_scheduler.md R264: a second priority change of one piston in one cycle replaces the first, and every detached
piston keeps exactly one `PRIO` request. -/
def Obligations.SecondPriorityChangeReplacesTheFirst : Prop :=
  ∀ (s t u : State) (n : PistonId) (p : Piston) (v w : Int), s.Held → s.receiver = some n → s.locate n = some p →
    Prim.perform (.setPriority v) s = .done () t → Prim.perform (.setPriority w) t = .done () u →
    u.mq = (s.mq.filter fun q => !q.isPrioOf n) ++
        [{ anchor := prioAnchor u.active w, entrant := .detached n, side := .left }] ∧
      u.locate n = some { p with priority := w } ∧
      ∀ m ∈ u.detached.map Prod.fst, (prioIdsOf u.mq).count m = 1

/-- 42_scheduler.md R263 ("the protocol's intent is to keep the active list in non-increasing priority order"), R265: one
priority change, drained, gives back an ordered list of the same pistons. -/
def Obligations.OnePriorityChangeKeepsTheOrder : Prop :=
  ∀ (s t : State) (n : PistonId) (p : Piston) (v : Int), (s.active.map Piston.id).Nodup → s.mq = [] →
    s.detached = [] → s.receiver = some n → s.locate n = some p → PriorityOrdered s.active →
    Prim.perform (.setPriority v) s = .done () t →
    PriorityOrdered t.drain.active ∧
      t.drain.active.Perm ({ p with priority := v } :: s.active.filter fun q => decide (q.id ≠ n))

/-- 42_scheduler.md R266: `KILL` empties the three lists, marks the pass as killed, changes nothing else, and ends its
handler program, whose later primitives do not run (60_exceptions.md R386). Once a handler has run it, the lists are empty, nothing later in the snapshot steps, and the
cycle ends: it is counted, the phase is ENDED, and memory, IO and the id generator are as the handler left them. The
resting values of the three transient fields are the model's choice (log entry 3). -/
def Obligations.KillEndsThePassAndTheCycle : Prop :=
  (∀ s : State,
    Prim.perform .kill s = .stop { s with active := [], mq := [], detached := [], killed := true } ∧
    ∀ k, HProg.exec (.op .kill k) s = .finished { s with active := [], mq := [], detached := [], killed := true }) ∧
  ∀ (s t : State) (n : PistonId) (ns : List PistonId), s.phase ≠ .aborted → s.killed = false →
    s.stepPiston n = .next t → t.killed = true →
    runPass (n :: ns) s = .next t ∧ t.active = [] ∧ t.mq = [] ∧ t.detached = [] ∧
      t.afterPass = { t with cycle := s.cycle + 1, phase := .ended, snapshot := [], killed := false, receiver := none }

/-- 42_scheduler.md R257: after the drain no piston is detached, and the queue is emptied. -/
def Obligations.DrainLeavesNothingDetached : Prop :=
  ∀ s : State, s.Held → s.drain.detached = [] ∧ s.drain.emptyQueue.mq = []

/-- 42_scheduler.md R255, R256, 60_exceptions.md R383: draining keeps every piston the engine holds, each once; it drains
the requests head first; and one request puts its entrant immediately before or after its anchor in the list as it then is,
or at the end where the anchor is `END` or not in the list, taking a detached entrant out of the pool. -/
def Obligations.DrainKeepsEveryPiston : Prop :=
  (∀ s : State, s.Held → s.drain.active.Perm s.held) ∧
  (∀ s : State, s.drain = s.mq.foldl State.drainOne s) ∧
  ∀ (s : State) (q : MergeRequest) (e : Piston),
    (q.entrant = .copy e ∨ ∃ n, q.entrant = .detached n ∧ Map.get s.detached n = some e) →
    (∀ l a r, s.active = l ++ a :: r → (∀ b ∈ l, b.id ≠ a.id) → q.anchor = .id a.id →
      (q.side = .left → (s.drainOne q).active = l ++ e :: a :: r) ∧
      (q.side = .right → (s.drainOne q).active = l ++ a :: e :: r)) ∧
    ((q.anchor = .listEnd ∨ ∃ n, q.anchor = .id n ∧ ∀ b ∈ s.active, b.id ≠ n) →
      (s.drainOne q).active = s.active ++ [e]) ∧
    (∀ m, Map.get (s.drainOne q).detached m = if q.entrant = .detached m then none else Map.get s.detached m) ∧
    s.drainOne q = { s with active := (s.drainOne q).active, detached := (s.drainOne q).detached }

/-- 42_scheduler.md R258, R259: steps 5 and 6. The ended pistons and no others leave the list, which keeps its order; the
cycle is counted; the phase is ENDED exactly when no piston is left, else RUNNING. -/
def Obligations.EndOfCyclePrunesAndCounts : Prop :=
  ∀ s : State,
    s.finishCycle.active = s.drain.active.filter (fun p => !p.ended) ∧
    (∀ p, p ∈ s.finishCycle.active ↔ p ∈ s.drain.active ∧ p.ended = false) ∧
    s.finishCycle.active.Sublist s.drain.active ∧
    s.finishCycle.cycle = s.cycle + 1 ∧
    (s.finishCycle.active = [] → s.finishCycle.phase = .ended) ∧
    (s.finishCycle.active ≠ [] → s.finishCycle.phase = .running) ∧
    (s.finishCycle.phase = .ended ↔ s.finishCycle.isEnded = true)

/-- 42_scheduler.md R268: the order of two forks by one lone piston in one handler. -/
def Obligations.TwoForksAtOneAnchor : Prop :=
  ∀ (s t u : State) (p : Piston) (d e : ForkDir), s.active = [p] → s.mq = [] → s.detached = [] →
    s.receiver = some p.id → p.id < s.nextId →
    Prim.perform (.fork d) s = .done () t → Prim.perform (.fork e) t = .done () u →
    ∃ a b, a.id = s.nextId ∧ b.id = s.nextId + 1 ∧
      (d = .right → e = .right → u.drain.active = [p, b, a]) ∧
      (d = .left → e = .left → u.drain.active = [a, b, p]) ∧
      (d = .left → e = .right → u.drain.active = [a, p, b])

/-- 42_scheduler.md R269: the copy of a left fork stands immediately before its original at the start of the next cycle,
one movement step on, under the three conditions of the rule (no later request on the left of the original, neither
ended, the original in the active list at the drain). Requests anchored on the copy cannot exist, since the copy is in no
list before the drain; ids are unique. The second clause is the movement step: the copy a left fork queues has turned and
moved one cell from the place of its original at fork time. -/
def Obligations.LeftForkStandsBeforeItsOriginal : Prop :=
  (∀ (s : State) (p q : Piston) (before after : List MergeRequest), s.Held → p ∈ s.active →
    s.mq = before ++ { anchor := .id p.id, entrant := .copy q, side := .left } :: after →
    (∀ m ∈ s.mq, m.anchor ≠ .id q.id) →
    (∀ m ∈ after, ¬ (m.anchor = .id p.id ∧ m.side = .left)) →
    p.ended = false → q.ended = false →
    ∃ l r, s.finishCycle.active = l ++ q :: p :: r) ∧
  ∀ (s t : State) (n : PistonId) (p q : Piston), s.receiver = some n → s.locate n = some p →
    Prim.perform (.fork .left) s = .done () t →
    t.mq = s.mq ++ [{ anchor := .id n, entrant := .copy q, side := .left }] →
    q.dir = p.dir.ccw ∧
      q.x = ((p.x + (Dir.unit p.dir.ccw).1) % (s.cfg.maxInteger : Int)).toNat ∧
      q.y = ((p.y + (Dir.unit p.dir.ccw).2) % (s.cfg.maxInteger : Int)).toNat

/-! ### Memory and IO -/

/-- 43_memory_io.md R300, R301; 20_memory.md R80, R81: reading gives the last value written to the address, unreduced, and 0
before any write; a write changes no other address and nothing but memory. -/
def Obligations.MemoryReadsTheLastWrite : Prop :=
  (∀ a, Memory.read [] a = 0) ∧
  ∀ (s : State) (a v : Nat),
    Prim.perform (.memRead a) s = .done (s.mem.read a) s ∧
    ∃ t, Prim.perform (.memWrite a v) s = .done () t ∧ t = { s with mem := t.mem } ∧
      ∀ b, t.mem.read b = if b = a then v else s.mem.read b

/-- 10_state.md R47: memory is a map. Two memories in canonical form that read alike at every address are equal data,
and a write keeps the form; so a write of what an address already holds changes nothing (20_memory.md R84). -/
def Obligations.MemoryIsItsReads : Prop :=
  (∀ m m' : Memory, Memory.wf m → Memory.wf m' → (∀ a, m.read a = m'.read a) → m = m') ∧
  (∀ (m : Memory) (a v : Nat), Memory.wf m → Memory.wf (m.write a v) ∧ (m.write a v).write a v = m.write a v ∧
    m.write a (m.read a) = m)

/-- 43_memory_io.md R302: `IN_NUM` consumes the longest leading run of decimal digits, and gives its value mod M, 0 for
an empty run; nothing but the input changes. -/
def Obligations.InNumConsumesTheDigitRun : Prop :=
  ∀ (s : State) (digits rest : Text), 1 ≤ s.cfg.maxInteger → s.input = digits ++ rest →
    (∀ c ∈ digits, 48 ≤ c ∧ c ≤ 57) → (∀ c cs, rest = c :: cs → ¬ (48 ≤ c ∧ c ≤ 57)) →
    Prim.perform .inNum s =
      .done (Nat.ofDigits 10 ((digits.map fun c => c - 48).reverse) % s.cfg.maxInteger) { s with input := rest }

/-- 43_memory_io.md R302, R305: a number written by `OUT_NUM` is read back by `IN_NUM`, mod M, when no digit follows it. -/
def Obligations.InNumReadsBackAWrittenNumber : Prop :=
  ∀ (s : State) (n : Nat) (rest : Text), 1 ≤ s.cfg.maxInteger → s.input = decimal n ++ rest →
    (∀ c cs, rest = c :: cs → ¬ (48 ≤ c ∧ c ≤ 57)) →
    Prim.perform .inNum s = .done (n % s.cfg.maxInteger) { s with input := rest }

/-- 43_memory_io.md R303, R304: `IN_CHAR` gives the first code point, unreduced, and removes it, or gives 0 on exhausted
input; `IN_NUM` gives 0 there too; neither input primitive raises. -/
def Obligations.InputPrimitivesNeverRaise : Prop :=
  ∀ s : State,
    (∀ k, Prim.perform .inNum s ≠ .raise k) ∧ (∀ k, Prim.perform .inChar s ≠ .raise k) ∧
    (s.input = [] → Prim.perform .inChar s = .done 0 s ∧ Prim.perform .inNum s = .done 0 s) ∧
    (∀ c cs, s.input = c :: cs → Prim.perform .inChar s = .done c { s with input := cs })

/-- 43_memory_io.md R305: `OUT_NUM(n)` stores `n` unreduced as the last value and appends its decimal text: digits only,
no leading zero but in `"0"`, whose value is `n`. -/
def Obligations.OutNumAppendsTheDecimalText : Prop :=
  ∀ (s : State) (n : Nat), ∃ ds : Text,
    Prim.perform (.outNum n) s = .done () { s with lastOut := some n, output := s.output ++ ds } ∧
    ds ≠ [] ∧ (∀ c ∈ ds, 48 ≤ c ∧ c ≤ 57) ∧ Nat.ofDigits 10 ((ds.map fun c => c - 48).reverse) = n ∧
    (ds.head? = some 48 → ds = [48] ∧ n = 0)

/-- 43_memory_io.md R306, R307: what `OUT_TOKEN(t)` stores, appends and raises, for every token. -/
def Obligations.OutTokenStoresItsValue : Prop :=
  ∀ s : State,
    Prim.perform (.outToken []) s = .raise .emptyOutputToken ∧
    (∀ c, Prim.perform (.outToken [c]) s = .done () { s with lastOut := some c, output := s.output ++ [c] }) ∧
    (∀ c d rest, d ≠ 120 → Prim.perform (.outToken (c :: d :: rest)) s =
      .done () { s with lastOut := some c, output := s.output ++ c :: d :: rest }) ∧
    (∀ (ds : Text) (vs : List Nat), ds ≠ [] → ds.map hexDigit = vs.map some →
      Prim.perform (.outToken (48 :: 120 :: ds)) s =
        .done () { s with lastOut := some (Nat.ofDigits 16 vs.reverse), output := s.output ++ 48 :: 120 :: ds }) ∧
    (∀ c ds, (c ≠ 48 ∨ ds = [] ∨ ∃ d ∈ ds, hexDigit d = none) →
      Prim.perform (.outToken (c :: 120 :: ds)) s = .raise (.malformedHexToken (c :: 120 :: ds))) ∧
    (∀ c v : Nat, hexDigit c = some v ↔
      (48 ≤ c ∧ c ≤ 57 ∧ v = c - 48) ∨ (97 ≤ c ∧ c ≤ 102 ∧ v = c - 97 + 10) ∨ (65 ≤ c ∧ c ≤ 70 ∧ v = c - 65 + 10))

/-! ### The cycle -/

/-- 40_decode_dispatch.md R164: the step of a piston whose place holds a word is the execution of the decoded instruction
with that piston as receiver; afterwards there is no receiver. -/
def Obligations.PistonStepRunsTheDecodedInstruction : Prop :=
  ∀ (s : State) (n : PistonId) (p : Piston) (w : Word24) (i : Instr),
    (s.active.find? fun q => q.id == n) = some p → Grid.at s.cfg.grid p.x p.y = some w → decode s.cfg w = i →
    s.stepPiston n = mapNext (fun u => { u with receiver := none }) (exec i { s with receiver := some n })

/-- 42_scheduler.md R250–R259: the step of the machine with one active piston on a word of the image. The instruction is
executed; an abort ends the cycle there, else the queue is drained and emptied, the ended are pruned, and the cycle is
counted. The resting values of the three transient fields are the model's choice (log entry 3). -/
def Obligations.StepOfOnePistonRunsItsInstruction : Prop :=
  ∀ (s u : State) (p : Piston) (w : Word24) (i : Instr),
    s.cfg.registry.initError = none → (s.phase = .ready ∨ s.phase = .running) → s.active = [p] →
    Grid.at s.cfg.grid p.x p.y = some w → decode s.cfg w = i →
    exec i { s with snapshot := [p.id], killed := false, receiver := some p.id } = .next u →
    (u.phase = .aborted → step s = .next { u with snapshot := [], killed := false, receiver := none }) ∧
    (u.phase ≠ .aborted → ∃ t, step s = .next t ∧
      t.active = (u.drain.active.filter fun q => !q.ended) ∧ t.mq = [] ∧ t.detached = u.drain.detached ∧
      t.cycle = u.cycle + 1 ∧ (t.phase = .ended ↔ t.active = []) ∧ (t.phase = .running ↔ t.active ≠ []) ∧
      t = { u with
        active := t.active, mq := t.mq, detached := t.detached, cycle := t.cycle, phase := t.phase,
        snapshot := [], killed := false, receiver := none })

/-- 42_scheduler.md R251, R252: step 2 takes the ids of the active list in order and steps the pistons one after another,
each on the state the one before it left, until one aborts or kills. The step of the machine, whatever the number of
pistons, is that pass with steps 3 to 6 after it (R250–R259), or with nothing after it when it aborted (60_exceptions.md
R387). The resting values of the three transient fields are the model's choice (log entry 3). -/
def Obligations.PassStepsThePistonsInOrder : Prop :=
  (∀ s u : State, s.cfg.registry.initError = none → (s.phase = .ready ∨ s.phase = .running) →
    runPass (s.active.map Piston.id) s.beginPass = .next u →
    (u.phase ≠ .aborted → step s = .next u.finishCycle ∧
      u.finishCycle =
        { u with
          active := u.drain.active.filter fun q => !q.ended
          mq := []
          detached := u.drain.detached
          cycle := u.cycle + 1
          phase := if (u.drain.active.filter fun q => !q.ended) = [] then .ended else .running
          snapshot := []
          killed := false
          receiver := none }) ∧
    (u.phase = .aborted → step s = .next { u with snapshot := [], killed := false, receiver := none })) ∧
  ∀ (s : State) (n : PistonId) (ns : List PistonId),
    s.beginPass.snapshot = s.active.map Piston.id ∧
    (s.killed = true → runPass (n :: ns) s = .next s) ∧
    (∀ t, s.killed = false → s.stepPiston n = .next t → t.phase ≠ .aborted → runPass (n :: ns) s = runPass ns t) ∧
    (∀ t, s.killed = false → s.stepPiston n = .next t → t.phase = .aborted → runPass (n :: ns) s = .next t) ∧
    runPass [] s = .next s

/-- 42_scheduler.md R250: in ENDED and ABORTED a cycle changes no field. With it, what the host reads of the status
registers in every state: the encoding of the phase (10_state.md R42), the outcome of the run, by which a normal end and an
abort are told apart (44_host_interface.md R358), and each value of the observation (R357, 10_state.md R53, R54), with the
run counter (60_exceptions.md R393; that it stands beside the values of R357 is log entry 24). -/
def Obligations.EndedOrAbortedStepDoesNothing : Prop :=
  (∀ s : State, s.cfg.registry.initError = none → (s.phase = .ended ∨ s.phase = .aborted) → step s = .next s) ∧
  [Phase.ready, .running, .ended, .aborted].map Phase.encoding = [0, 1, 2, 3] ∧
  ∀ s : State,
    (s.phase = .ended → s.runOutcome = .ended) ∧
    (s.phase = .aborted → s.runOutcome = .aborted s.abort) ∧
    (s.phase = .ready ∨ s.phase = .running → s.runOutcome = .running) ∧
    s.observe =
      { cycle := s.cycle
        runs := s.runs
        output := s.output
        lastOut := s.lastOut
        isEnded := decide (s.active = [] ∧ s.mq = [])
        isAborted := decide (s.phase = .aborted)
        abort := s.abort
        phase := s.phase
        pistons := s.active.map fun p =>
          { id := p.id, x := p.x, y := p.y, dir := p.dir, reg := s.cfg.regs.map fun r => (r, p.cell r),
            priority := p.priority, ended := p.ended } }

/-- 10_state.md R43: the cycle counter is 0 after reset, counts each executed cycle once, and stands still in a cycle that
aborts (60_exceptions.md R387), in ENDED and in ABORTED; the host reads it. The same of the run counter, which a reset alone counts up
(10_state.md R50, 60_exceptions.md R393); that the observation holds it is log entry 24 (DEDUCED). No primitive reads or
writes either (R393). -/
def Obligations.CycleCounterCountsExecutedCycles : Prop :=
  (∀ s : State, s.resetProcedure.cycle = 0 ∧ s.resetProcedure.runs = s.runs + 1) ∧
  (∀ (prim : Prim) (s : State) (c r : Nat),
    (∀ v t, Prim.perform prim s = .done v t →
      Prim.perform prim { s with cycle := c, runs := r } = .done v { t with cycle := c, runs := r }) ∧
    (∀ t, Prim.perform prim s = .stop t →
      Prim.perform prim { s with cycle := c, runs := r } = .stop { t with cycle := c, runs := r }) ∧
    (∀ k, Prim.perform prim s = .raise k → Prim.perform prim { s with cycle := c, runs := r } = .raise k)) ∧
  ∀ s t : State, step s = .next t →
    t.runs = s.runs ∧ t.observe.runs = t.runs ∧
    ((s.phase = .ready ∨ s.phase = .running) → t.phase ≠ .aborted → t.cycle = s.cycle + 1) ∧
    ((s.phase = .ready ∨ s.phase = .running) → t.phase = .aborted → t.cycle = s.cycle) ∧
    ((s.phase = .ended ∨ s.phase = .aborted) → t.cycle = s.cycle) ∧ t.observe.cycle = t.cycle

/-! ### Host commands -/

/-- 70_reset_and_hazards.md R431: every field after `reset()`, for every prior state. The values of the three transient
fields are the model's choice (log entry 3). -/
def Obligations.ResetSeedsOnePistonPerStartPoint : Prop :=
  ∀ s : State, s.cfg.registry.initError = none →
    hostReset s = .next
      { cfg := s.cfg
        phase := if s.cfg.startPoints = [] then .ended else .ready
        cycle := 0
        active := s.cfg.startPoints.mapIdx fun i sp =>
          { id := s.nextId + i, x := sp.x % s.cfg.maxInteger, y := sp.y % s.cfg.maxInteger, dir := sp.dir, reg := [],
            priority := s.cfg.prioInit, ended := false }
        mq := []
        detached := []
        mem := []
        input := s.initialInput
        initialInput := s.initialInput
        output := []
        lastOut := none
        runs := s.runs + 1
        nextId := s.nextId + s.cfg.startPoints.length
        abort := none
        snapshot := []
        killed := false
        receiver := none }

/-- 44_host_interface.md R350: the engine right after `new(text)` is the reset of the engine it builds (`State.blank`), with
one piston per start point as 70_reset_and_hazards.md R431 spawns it, ids from 0. -/
def Obligations.NewEngineRightAfterConstruction : Prop :=
  ∀ (c : Config) (text : Text), c.registry.initError = none →
    ∃ t, newEngine c text = .next t ∧ hostReset (State.blank c text) = .next t ∧
      (t.active = c.startPoints.mapIdx fun i sp =>
        { id := i, x := sp.x % c.maxInteger, y := sp.y % c.maxInteger, dir := sp.dir, reg := [],
          priority := c.prioInit, ended := false }) ∧
      t.cfg = c ∧ t.runs = 1 ∧ t.cycle = 0 ∧ t.input = text ∧
      t.initialInput = text ∧ t.output = [] ∧ t.lastOut = none ∧ t.abort = none ∧ t.mq = [] ∧ t.detached = [] ∧
      (∀ a, t.mem.read a = 0) ∧ t.active.map Piston.id = List.range c.startPoints.length ∧
      t.nextId = c.startPoints.length ∧ (∀ p ∈ t.active, ∀ r, p.cell r = .unset) ∧
      (t.phase = .ended ↔ c.startPoints = []) ∧ (t.phase = .ready ↔ c.startPoints ≠ [])

/-- 44_host_interface.md R354. -/
def Obligations.HostKillEmptiesTheLists : Prop :=
  ∀ s : State, s.cfg.registry.initError = none →
    ∃ t, hostKill s = .next t ∧ t.isEnded = true ∧ t.detached = [] ∧ t.cycle = s.cycle ∧
      (s.phase ≠ .aborted → t.phase = .ended) ∧ (s.phase = .aborted → t.phase = .aborted ∧ t.abort = s.abort) ∧
      t = { s with active := [], mq := [], detached := [], phase := t.phase }

/-- `State.reset` is the engine right after `new("")` under the parameters the model chose (log entry 2). -/
def Obligations.ResetStateIsANewEngine : Prop := newEngine Config.boot [] = .next State.reset

/-! ### Invariants -/

/-- The invariant holds in the state right after reset (whose parameters are the model's choice, log entry 2, and so are
the resting values of the three transient fields, log entry 3). -/
def Obligations.ResetStateIsSound : Prop := State.reset.Inv

/-- Every step keeps the invariant: bounds (10_state.md R33, R36), unique ids (R32), an empty queue and pool (R46) and no
ended piston (70_reset_and_hazards.md R439) between cycles, the phase (R42) and the abort record (R52). That the three
transient fields are at their resting values between cycles is the model's choice (log entry 3). -/
def Obligations.StepKeepsTheInvariant : Prop :=
  ∀ s t : State, s.Inv → step s = .next t → t.Inv

/-- The host's commands keep the invariant; `new` and `reset` establish it whenever `M ≥ 1`. The resting values of the
three transient fields in it are the model's choice (log entry 3). -/
def Obligations.HostCommandsKeepTheInvariant : Prop :=
  (∀ (c : Config) (text : Text) (t : State), 1 ≤ c.maxInteger → newEngine c text = .next t → t.Inv) ∧
  (∀ s t : State, 1 ≤ s.cfg.maxInteger → hostReset s = .next t → t.Inv) ∧
  (∀ s t : State, s.Inv → hostKill s = .next t → t.Inv)

/-- 42_scheduler.md R252: the piston whose turn comes is always in the active list; so a sound engine never stops with a
fault, in any number of steps. -/
def Obligations.SoundEngineNeverFaults : Prop :=
  ∀ s : State, s.Inv → s.cfg.registry.initError = none → ∀ k, Safe s k

/-- 10_state.md R58, 30_encoding.md R122, R123: no step changes the parameters, so the image, the registry and with them
every later fetch and decoding stay as they are. -/
def Obligations.ParametersNeverChange : Prop :=
  ∀ s t : State, step s = .next t → t.cfg = s.cfg ∧ (∀ p, t.fetch p = s.fetch p) ∧
    ∀ w, decode t.cfg w = decode s.cfg w

/-- 60_exceptions.md R387, R388; 10_state.md R52: when a cycle aborts, the abort record is of this cycle, about a piston
that was active before it and still is, at its place and with the word there. The host reads the record and the outcome
from it (44_host_interface.md R357, R358). The first clause is the codes of the kinds (60_exceptions.md R380). -/
def Obligations.AbortRecordNamesTheFailingPiston : Prop :=
  (∀ (cc : BitVec 4) (mc reg : BitVec 3) (x y : Nat) (r : RegName) (tok : Text),
    [ErrorKind.unknownControlCode cc, .unknownMetaCommand cc mc, .invalidRegisterSelector cc mc reg,
      .fetchOutOfGrid x y, .unsetRegisterRead r, .malformedHexToken tok, .emptyOutputToken].map ErrorKind.code =
    [1, 2, 3, 4, 5, 6, 7]) ∧
  ∀ s t : State, s.Inv → s.phase ≠ .aborted → step s = .next t → t.phase = .aborted →
    ∃ a, t.abort = some a ∧ t.observe.abort = some a ∧ t.observe.isAborted = true ∧ t.runOutcome = .aborted (some a) ∧
      a.cycle = s.cycle ∧ (∃ p ∈ t.active, p.id = a.pistonId ∧ p.x = a.x ∧ p.y = a.y) ∧
      a.word = Grid.at s.cfg.grid a.x a.y ∧ ∃ p ∈ s.active, p.id = a.pistonId
end

