-- ==== Sys2Proof/Laws/Maps.lean ====
section
/-!
SUPPORT. The laws of the finite maps: reads after writes, the canonical form, membership; and of the grid.
-/
namespace Sys2Proof.Machine

variable {α : Type}

@[simp] theorem Map.get_nil (j : Nat) : Map.get ([] : List (Nat × α)) j = none := rfl

theorem Map.get_put_self (m : List (Nat × α)) (k : Nat) (v : α) : Map.get (Map.put m k v) k = some v := by
  induction m with
  | nil => simp [Map.put, Map.get]
  | cons e m ih =>
    obtain ⟨j, w⟩ := e
    simp only [Map.put]
    split
    · simp [Map.get]
    · split
      · simp [Map.get]
      · simp [Map.get, *]

theorem Map.get_put_other (m : List (Nat × α)) {j k : Nat} (v : α) (h : j ≠ k) :
    Map.get (Map.put m k v) j = Map.get m j := by
  induction m with
  | nil => simp [Map.put, Map.get, Ne.symm h]
  | cons e m ih =>
    obtain ⟨i, w⟩ := e
    simp only [Map.put]
    split
    · subst i; simp [Map.get, Ne.symm h]
    · split
      · simp [Map.get, Ne.symm h]
      · simp only [Map.get, ih]

theorem Map.get_put (m : List (Nat × α)) (j k : Nat) (v : α) :
    Map.get (Map.put m k v) j = if j = k then some v else Map.get m j := by
  split
  · subst k; exact Map.get_put_self m j v
  · exact Map.get_put_other m v ‹_›

theorem Map.get_erase_self (m : List (Nat × α)) (k : Nat) : Map.get (Map.erase m k) k = none := by
  induction m with
  | nil => rfl
  | cons e m ih => obtain ⟨i, w⟩ := e; simp only [Map.erase]; split <;> simp [Map.get, *]

theorem Map.get_erase_other (m : List (Nat × α)) {j k : Nat} (h : j ≠ k) :
    Map.get (Map.erase m k) j = Map.get m j := by
  induction m with
  | nil => rfl
  | cons e m ih =>
    obtain ⟨i, w⟩ := e
    simp only [Map.erase]
    split
    · subst i; simp [Map.get, Ne.symm h, ih]
    · simp [Map.get, ih]

/-- Changing the values at one key. -/
theorem Map.get_adjust (m : List (Nat × α)) (k j : Nat) (f : α → α) :
    Map.get (m.map fun e => if e.1 = k then (e.1, f e.2) else e) j =
      if j = k then (Map.get m k).map f else Map.get m j := by
  induction m with
  | nil => simp
  | cons e m ih =>
    obtain ⟨i, w⟩ := e
    simp only [List.map_cons]
    by_cases hi : i = k
    · subst hi
      by_cases hj : j = i
      · subst hj; simp [Map.get]
      · simp [Map.get, ih, hj, Ne.symm hj]
    · by_cases hj : j = k
      · subst hj; simp only [if_true] at ih ⊢; simp [Map.get, ih, hi]
      · simp [Map.get, ih, hj, hi]

theorem Map.keys_adjust (m : List (Nat × α)) (k : Nat) (f : α → α) :
    (m.map fun e => if e.1 = k then (e.1, f e.2) else e).map Prod.fst = m.map Prod.fst := by
  rw [List.map_map]
  refine List.map_congr_left fun e _ => ?_
  simp only [Function.comp]
  split <;> rfl

theorem Map.mem_of_get {m : List (Nat × α)} {j : Nat} {v : α} (h : Map.get m j = some v) : (j, v) ∈ m := by
  induction m with
  | nil => simp at h
  | cons e m ih =>
    obtain ⟨i, w⟩ := e
    simp only [Map.get] at h
    split at h
    · simp_all
    · exact List.mem_cons_of_mem _ (ih h)

theorem Map.get_eq_none_iff {m : List (Nat × α)} {j : Nat} : Map.get m j = none ↔ j ∉ m.map Prod.fst := by
  induction m with
  | nil => simp
  | cons e m ih =>
    obtain ⟨i, w⟩ := e
    simp only [Map.get, List.map_cons, List.mem_cons, not_or]
    split
    · simp_all
    · simp only [ih]
      exact ⟨fun h => ⟨Ne.symm ‹_›, h⟩, fun h => h.2⟩

theorem Map.mem_put {m : List (Nat × α)} {k : Nat} {v : α} {e : Nat × α} (h : e ∈ Map.put m k v) :
    e = (k, v) ∨ e ∈ m := by
  induction m with
  | nil => simpa [Map.put] using h
  | cons a m ih =>
    obtain ⟨i, w⟩ := a
    simp only [Map.put] at h
    split at h
    · simp only [List.mem_cons] at h ⊢; tauto
    · split at h
      · simp only [List.mem_cons] at h ⊢; tauto
      · simp only [List.mem_cons] at h ⊢; rcases h with h | h
        · tauto
        · rcases ih h with h | h <;> tauto

theorem Map.mem_erase {m : List (Nat × α)} {k : Nat} {e : Nat × α} (h : e ∈ Map.erase m k) : e ∈ m := by
  induction m with
  | nil => simp [Map.erase] at h
  | cons a m ih =>
    obtain ⟨i, w⟩ := a
    simp only [Map.erase] at h
    split at h
    · exact List.mem_cons_of_mem _ (ih h)
    · simp only [List.mem_cons] at h ⊢
      rcases h with h | h
      · exact .inl h
      · exact .inr (ih h)

theorem Map.keys_put_mem {m : List (Nat × α)} {k j : Nat} {v : α} :
    j ∈ (Map.put m k v).map Prod.fst ↔ j = k ∨ j ∈ m.map Prod.fst := by
  have h := @Map.get_eq_none_iff α (Map.put m k v) j
  have h' := @Map.get_eq_none_iff α m j
  rw [Map.get_put] at h
  by_cases e : j = k
  · simp only [e, if_true] at h ⊢
    simp only [true_or, iff_true]
    by_contra hc
    exact absurd (h.2 hc) (by simp)
  · simp only [e, if_false, false_or] at h ⊢
    rw [h'] at h
    tauto

/-- Setting a key keeps the canonical form. -/
theorem Map.put_canon {m : List (Nat × α)} (h : Map.Canon m) (k : Nat) (v : α) : Map.Canon (Map.put m k v) := by
  induction m with
  | nil => simp [Map.Canon, Map.put]
  | cons e m ih =>
    obtain ⟨i, w⟩ := e
    simp only [Map.Canon, List.map_cons, List.pairwise_cons] at h
    simp only [Map.put]
    split
    · subst i; simpa [Map.Canon] using h
    · split
      · simp only [Map.Canon, List.map_cons, List.pairwise_cons, List.mem_cons]
        refine ⟨?_, h⟩
        rintro j (rfl | hj)
        · assumption
        · exact Nat.lt_trans ‹_› (h.1 j hj)
      · simp only [Map.Canon, List.map_cons, List.pairwise_cons]
        refine ⟨fun j hj => ?_, ih h.2⟩
        rcases Map.keys_put_mem.1 hj with rfl | hj
        · omega
        · exact h.1 j hj

/-- Removing a key keeps the canonical form. -/
theorem Map.erase_canon {m : List (Nat × α)} (h : Map.Canon m) (k : Nat) : Map.Canon (Map.erase m k) := by
  induction m with
  | nil => exact h
  | cons e m ih =>
    obtain ⟨i, w⟩ := e
    simp only [Map.Canon, List.map_cons, List.pairwise_cons] at h
    simp only [Map.erase]
    split
    · exact ih h.2
    · simp only [Map.Canon, List.map_cons, List.pairwise_cons]
      refine ⟨fun j hj => ?_, ih h.2⟩
      obtain ⟨e, he, rfl⟩ := List.mem_map.1 hj
      exact h.1 _ (List.mem_map_of_mem (Map.mem_erase he))

/-- In canonical form, membership is reading. -/
theorem Map.get_of_mem {m : List (Nat × α)} (h : Map.Canon m) {k : Nat} {v : α} (hm : (k, v) ∈ m) :
    Map.get m k = some v := by
  induction m with
  | nil => simp at hm
  | cons e m ih =>
    obtain ⟨i, w⟩ := e
    simp only [Map.Canon, List.map_cons, List.pairwise_cons] at h
    simp only [List.mem_cons, Prod.mk.injEq] at hm
    rcases hm with ⟨rfl, rfl⟩ | hm
    · simp [Map.get]
    · have := h.1 k (List.mem_map_of_mem (f := Prod.fst) hm)
      simp only [Map.get]
      rw [if_neg (by omega), ih h.2 hm]

/-- Two maps in canonical form that read alike are equal. -/
theorem Map.ext_of_get {m m' : List (Nat × α)} (h : Map.Canon m) (h' : Map.Canon m')
    (e : ∀ k, Map.get m k = Map.get m' k) : m = m' := by
  induction m generalizing m' with
  | nil =>
    cases m' with
    | nil => rfl
    | cons a m' =>
      obtain ⟨i, w⟩ := a
      have := e i
      simp [Map.get] at this
  | cons a m ih =>
    obtain ⟨i, w⟩ := a
    cases m' with
    | nil => have := e i; simp [Map.get] at this
    | cons b m' =>
      obtain ⟨j, u⟩ := b
      simp only [Map.Canon, List.map_cons, List.pairwise_cons] at h h'
      have hi := e i
      have hj := e j
      simp only [Map.get, if_true] at hi hj
      have hij : i = j := by
        by_contra hne
        rw [if_neg (Ne.symm hne)] at hi
        rw [if_neg hne] at hj
        have h1 := h'.1 i (List.mem_map_of_mem (f := Prod.fst) (Map.mem_of_get hi.symm))
        have h2 := h.1 j (List.mem_map_of_mem (f := Prod.fst) (Map.mem_of_get hj))
        omega
      subst hij
      simp only [if_true, Option.some.injEq] at hi
      subst hi
      congr 1
      refine ih h.2 h'.2 fun k => ?_
      have hk := e k
      simp only [Map.get] at hk
      by_cases hik : i = k
      · subst hik
        rw [Map.get_eq_none_iff.2 fun hm => absurd (h.1 i hm) (by omega),
          Map.get_eq_none_iff.2 fun hm => absurd (h'.1 i hm) (by omega)]
      · simpa [hik] using hk

/-- Setting a new key adds one entry. -/
theorem Map.put_perm {m : List (Nat × α)} {k : Nat} (h : Map.get m k = none) (v : α) :
    (Map.put m k v).Perm ((k, v) :: m) := by
  induction m with
  | nil => exact .refl _
  | cons e m ih =>
    obtain ⟨i, w⟩ := e
    simp only [Map.get] at h
    simp only [Map.put]
    split at h
    · cases h
    · rw [if_neg ‹_›]
      split
      · exact .refl _
      · exact ((ih h).cons _).trans (.swap _ _ _)

/-- Setting a key that is there changes its value. -/
theorem Map.put_eq_adjust {m : List (Nat × α)} (hm : Map.Canon m) {k : Nat} {w : α} (h : Map.get m k = some w) (v : α) :
    Map.put m k v = m.map fun e => if e.1 = k then (e.1, v) else e := by
  refine Map.ext_of_get (Map.put_canon hm k v) ?_ fun j => ?_
  · unfold Map.Canon; rw [Map.keys_adjust m k fun _ => v]; exact hm
  · rw [Map.get_put, Map.get_adjust m k j fun _ => v, h]; rfl

/-- Removing a key that is there removes its entry. -/
theorem Map.erase_perm {m : List (Nat × α)} (hm : Map.Canon m) {k : Nat} {v : α} (h : Map.get m k = some v) :
    m.Perm ((k, v) :: Map.erase m k) := by
  induction m with
  | nil => cases h
  | cons e m ih =>
    obtain ⟨i, w⟩ := e
    have hm' := hm
    simp only [Map.Canon, List.map_cons, List.pairwise_cons] at hm
    simp only [Map.get] at h
    by_cases hi : i = k
    · subst hi
      rw [if_pos rfl] at h
      cases h
      have hn : Map.get m i = none := Map.get_eq_none_iff.2 fun hc => absurd (hm.1 i hc) (by omega)
      have : Map.erase m i = m := by
        refine Map.ext_of_get (Map.erase_canon hm.2 i) hm.2 fun j => ?_
        by_cases hj : j = i
        · subst hj; rw [Map.get_erase_self, hn]
        · exact Map.get_erase_other m hj
      simp [Map.erase, this]
    · rw [if_neg hi] at h
      simp only [Map.erase, if_neg hi]
      exact ((ih hm.2 h).cons _).trans (.swap _ _ _)

theorem Map.keys_erase_mem {m : List (Nat × α)} {k j : Nat} :
    j ∈ (Map.erase m k).map Prod.fst ↔ j ≠ k ∧ j ∈ m.map Prod.fst := by
  have h := @Map.get_eq_none_iff α (Map.erase m k) j
  have h' := @Map.get_eq_none_iff α m j
  by_cases e : j = k
  · subst e
    simp only [Map.get_erase_self, true_iff] at h
    simp [h]
  · rw [Map.get_erase_other m e, h'] at h
    tauto

/-- The placed cell reads as the placed word. -/
theorem Grid.at_putCell (g : Grid) (x y : Nat) (w : Word24) : Grid.at (Grid.putCell g x y w) x y = some w := by
  unfold Grid.at Grid.putCell
  cases h : Map.get g y with
  | none => simp [Map.get_put_self, Map.get]
  | some row => simp [Map.get_put_self]

end Sys2Proof.Machine
end

