-- ==== Sys2Proof/Laws/State.lean ====
section
/-!
SUPPORT. The record updates of State: one lemma per field per update, so that no proof unfolds an update.
-/
namespace Sys2Proof.Machine

variable (s : State)

/-! ### enterAbort -/

@[simp] theorem State.enterAbort_cfg (k : ErrorKind) (p : Piston) (w : Option Word24) : (s.enterAbort k p w).cfg = s.cfg := rfl
@[simp] theorem State.enterAbort_phase (k : ErrorKind) (p : Piston) (w : Option Word24) : (s.enterAbort k p w).phase = .aborted := rfl
@[simp] theorem State.enterAbort_cycle (k : ErrorKind) (p : Piston) (w : Option Word24) : (s.enterAbort k p w).cycle = s.cycle := rfl
@[simp] theorem State.enterAbort_active (k : ErrorKind) (p : Piston) (w : Option Word24) : (s.enterAbort k p w).active = s.active := rfl
@[simp] theorem State.enterAbort_mq (k : ErrorKind) (p : Piston) (w : Option Word24) : (s.enterAbort k p w).mq = s.mq := rfl
@[simp] theorem State.enterAbort_detached (k : ErrorKind) (p : Piston) (w : Option Word24) : (s.enterAbort k p w).detached = s.detached := rfl
@[simp] theorem State.enterAbort_mem (k : ErrorKind) (p : Piston) (w : Option Word24) : (s.enterAbort k p w).mem = s.mem := rfl
@[simp] theorem State.enterAbort_input (k : ErrorKind) (p : Piston) (w : Option Word24) : (s.enterAbort k p w).input = s.input := rfl
@[simp] theorem State.enterAbort_initialInput (k : ErrorKind) (p : Piston) (w : Option Word24) : (s.enterAbort k p w).initialInput = s.initialInput := rfl
@[simp] theorem State.enterAbort_output (k : ErrorKind) (p : Piston) (w : Option Word24) : (s.enterAbort k p w).output = s.output := rfl
@[simp] theorem State.enterAbort_lastOut (k : ErrorKind) (p : Piston) (w : Option Word24) : (s.enterAbort k p w).lastOut = s.lastOut := rfl
@[simp] theorem State.enterAbort_runs (k : ErrorKind) (p : Piston) (w : Option Word24) : (s.enterAbort k p w).runs = s.runs := rfl
@[simp] theorem State.enterAbort_nextId (k : ErrorKind) (p : Piston) (w : Option Word24) : (s.enterAbort k p w).nextId = s.nextId := rfl
@[simp] theorem State.enterAbort_abort (k : ErrorKind) (p : Piston) (w : Option Word24) : (s.enterAbort k p w).abort = some { kind := k, cycle := s.cycle, pistonId := p.id, x := p.x, y := p.y, word := w } := rfl
@[simp] theorem State.enterAbort_snapshot (k : ErrorKind) (p : Piston) (w : Option Word24) : (s.enterAbort k p w).snapshot = s.snapshot := rfl
@[simp] theorem State.enterAbort_killed (k : ErrorKind) (p : Piston) (w : Option Word24) : (s.enterAbort k p w).killed = s.killed := rfl
@[simp] theorem State.enterAbort_receiver (k : ErrorKind) (p : Piston) (w : Option Word24) : (s.enterAbort k p w).receiver = s.receiver := rfl

/-! ### emit -/

@[simp] theorem State.emit_cfg (v : Nat) (t : Text) : (s.emit v t).cfg = s.cfg := rfl
@[simp] theorem State.emit_phase (v : Nat) (t : Text) : (s.emit v t).phase = s.phase := rfl
@[simp] theorem State.emit_cycle (v : Nat) (t : Text) : (s.emit v t).cycle = s.cycle := rfl
@[simp] theorem State.emit_active (v : Nat) (t : Text) : (s.emit v t).active = s.active := rfl
@[simp] theorem State.emit_mq (v : Nat) (t : Text) : (s.emit v t).mq = s.mq := rfl
@[simp] theorem State.emit_detached (v : Nat) (t : Text) : (s.emit v t).detached = s.detached := rfl
@[simp] theorem State.emit_mem (v : Nat) (t : Text) : (s.emit v t).mem = s.mem := rfl
@[simp] theorem State.emit_input (v : Nat) (t : Text) : (s.emit v t).input = s.input := rfl
@[simp] theorem State.emit_initialInput (v : Nat) (t : Text) : (s.emit v t).initialInput = s.initialInput := rfl
@[simp] theorem State.emit_output (v : Nat) (t : Text) : (s.emit v t).output = s.output ++ t := rfl
@[simp] theorem State.emit_lastOut (v : Nat) (t : Text) : (s.emit v t).lastOut = some v := rfl
@[simp] theorem State.emit_runs (v : Nat) (t : Text) : (s.emit v t).runs = s.runs := rfl
@[simp] theorem State.emit_nextId (v : Nat) (t : Text) : (s.emit v t).nextId = s.nextId := rfl
@[simp] theorem State.emit_abort (v : Nat) (t : Text) : (s.emit v t).abort = s.abort := rfl
@[simp] theorem State.emit_snapshot (v : Nat) (t : Text) : (s.emit v t).snapshot = s.snapshot := rfl
@[simp] theorem State.emit_killed (v : Nat) (t : Text) : (s.emit v t).killed = s.killed := rfl
@[simp] theorem State.emit_receiver (v : Nat) (t : Text) : (s.emit v t).receiver = s.receiver := rfl

/-! ### emptyLists -/

@[simp] theorem State.emptyLists_cfg : (s.emptyLists).cfg = s.cfg := rfl
@[simp] theorem State.emptyLists_phase : (s.emptyLists).phase = s.phase := rfl
@[simp] theorem State.emptyLists_cycle : (s.emptyLists).cycle = s.cycle := rfl
@[simp] theorem State.emptyLists_active : (s.emptyLists).active = [] := rfl
@[simp] theorem State.emptyLists_mq : (s.emptyLists).mq = [] := rfl
@[simp] theorem State.emptyLists_detached : (s.emptyLists).detached = [] := rfl
@[simp] theorem State.emptyLists_mem : (s.emptyLists).mem = s.mem := rfl
@[simp] theorem State.emptyLists_input : (s.emptyLists).input = s.input := rfl
@[simp] theorem State.emptyLists_initialInput : (s.emptyLists).initialInput = s.initialInput := rfl
@[simp] theorem State.emptyLists_output : (s.emptyLists).output = s.output := rfl
@[simp] theorem State.emptyLists_lastOut : (s.emptyLists).lastOut = s.lastOut := rfl
@[simp] theorem State.emptyLists_runs : (s.emptyLists).runs = s.runs := rfl
@[simp] theorem State.emptyLists_nextId : (s.emptyLists).nextId = s.nextId := rfl
@[simp] theorem State.emptyLists_abort : (s.emptyLists).abort = s.abort := rfl
@[simp] theorem State.emptyLists_snapshot : (s.emptyLists).snapshot = s.snapshot := rfl
@[simp] theorem State.emptyLists_killed : (s.emptyLists).killed = s.killed := rfl
@[simp] theorem State.emptyLists_receiver : (s.emptyLists).receiver = s.receiver := rfl

/-! ### insertEntrant -/

@[simp] theorem State.insertEntrant_cfg (q : MergeRequest) (p : Piston) : (s.insertEntrant q p).cfg = s.cfg := rfl
@[simp] theorem State.insertEntrant_phase (q : MergeRequest) (p : Piston) : (s.insertEntrant q p).phase = s.phase := rfl
@[simp] theorem State.insertEntrant_cycle (q : MergeRequest) (p : Piston) : (s.insertEntrant q p).cycle = s.cycle := rfl
@[simp] theorem State.insertEntrant_active (q : MergeRequest) (p : Piston) : (s.insertEntrant q p).active = insertAt s.active (insertIndex s.active q.anchor q.side) p := rfl
@[simp] theorem State.insertEntrant_mq (q : MergeRequest) (p : Piston) : (s.insertEntrant q p).mq = s.mq := rfl
@[simp] theorem State.insertEntrant_detached (q : MergeRequest) (p : Piston) : (s.insertEntrant q p).detached = s.detached := rfl
@[simp] theorem State.insertEntrant_mem (q : MergeRequest) (p : Piston) : (s.insertEntrant q p).mem = s.mem := rfl
@[simp] theorem State.insertEntrant_input (q : MergeRequest) (p : Piston) : (s.insertEntrant q p).input = s.input := rfl
@[simp] theorem State.insertEntrant_initialInput (q : MergeRequest) (p : Piston) : (s.insertEntrant q p).initialInput = s.initialInput := rfl
@[simp] theorem State.insertEntrant_output (q : MergeRequest) (p : Piston) : (s.insertEntrant q p).output = s.output := rfl
@[simp] theorem State.insertEntrant_lastOut (q : MergeRequest) (p : Piston) : (s.insertEntrant q p).lastOut = s.lastOut := rfl
@[simp] theorem State.insertEntrant_runs (q : MergeRequest) (p : Piston) : (s.insertEntrant q p).runs = s.runs := rfl
@[simp] theorem State.insertEntrant_nextId (q : MergeRequest) (p : Piston) : (s.insertEntrant q p).nextId = s.nextId := rfl
@[simp] theorem State.insertEntrant_abort (q : MergeRequest) (p : Piston) : (s.insertEntrant q p).abort = s.abort := rfl
@[simp] theorem State.insertEntrant_snapshot (q : MergeRequest) (p : Piston) : (s.insertEntrant q p).snapshot = s.snapshot := rfl
@[simp] theorem State.insertEntrant_killed (q : MergeRequest) (p : Piston) : (s.insertEntrant q p).killed = s.killed := rfl
@[simp] theorem State.insertEntrant_receiver (q : MergeRequest) (p : Piston) : (s.insertEntrant q p).receiver = s.receiver := rfl

/-! ### emptyQueue -/

@[simp] theorem State.emptyQueue_cfg : (s.emptyQueue).cfg = s.cfg := rfl
@[simp] theorem State.emptyQueue_phase : (s.emptyQueue).phase = s.phase := rfl
@[simp] theorem State.emptyQueue_cycle : (s.emptyQueue).cycle = s.cycle := rfl
@[simp] theorem State.emptyQueue_active : (s.emptyQueue).active = s.active := rfl
@[simp] theorem State.emptyQueue_mq : (s.emptyQueue).mq = [] := rfl
@[simp] theorem State.emptyQueue_detached : (s.emptyQueue).detached = s.detached := rfl
@[simp] theorem State.emptyQueue_mem : (s.emptyQueue).mem = s.mem := rfl
@[simp] theorem State.emptyQueue_input : (s.emptyQueue).input = s.input := rfl
@[simp] theorem State.emptyQueue_initialInput : (s.emptyQueue).initialInput = s.initialInput := rfl
@[simp] theorem State.emptyQueue_output : (s.emptyQueue).output = s.output := rfl
@[simp] theorem State.emptyQueue_lastOut : (s.emptyQueue).lastOut = s.lastOut := rfl
@[simp] theorem State.emptyQueue_runs : (s.emptyQueue).runs = s.runs := rfl
@[simp] theorem State.emptyQueue_nextId : (s.emptyQueue).nextId = s.nextId := rfl
@[simp] theorem State.emptyQueue_abort : (s.emptyQueue).abort = s.abort := rfl
@[simp] theorem State.emptyQueue_snapshot : (s.emptyQueue).snapshot = s.snapshot := rfl
@[simp] theorem State.emptyQueue_killed : (s.emptyQueue).killed = s.killed := rfl
@[simp] theorem State.emptyQueue_receiver : (s.emptyQueue).receiver = s.receiver := rfl

/-! ### prune -/

@[simp] theorem State.prune_cfg : (s.prune).cfg = s.cfg := rfl
@[simp] theorem State.prune_phase : (s.prune).phase = s.phase := rfl
@[simp] theorem State.prune_cycle : (s.prune).cycle = s.cycle := rfl
@[simp] theorem State.prune_active : (s.prune).active = s.active.filter fun p => !p.ended := rfl
@[simp] theorem State.prune_mq : (s.prune).mq = s.mq := rfl
@[simp] theorem State.prune_detached : (s.prune).detached = s.detached := rfl
@[simp] theorem State.prune_mem : (s.prune).mem = s.mem := rfl
@[simp] theorem State.prune_input : (s.prune).input = s.input := rfl
@[simp] theorem State.prune_initialInput : (s.prune).initialInput = s.initialInput := rfl
@[simp] theorem State.prune_output : (s.prune).output = s.output := rfl
@[simp] theorem State.prune_lastOut : (s.prune).lastOut = s.lastOut := rfl
@[simp] theorem State.prune_runs : (s.prune).runs = s.runs := rfl
@[simp] theorem State.prune_nextId : (s.prune).nextId = s.nextId := rfl
@[simp] theorem State.prune_abort : (s.prune).abort = s.abort := rfl
@[simp] theorem State.prune_snapshot : (s.prune).snapshot = s.snapshot := rfl
@[simp] theorem State.prune_killed : (s.prune).killed = s.killed := rfl
@[simp] theorem State.prune_receiver : (s.prune).receiver = s.receiver := rfl

/-! ### tick -/

@[simp] theorem State.tick_cfg : (s.tick).cfg = s.cfg := rfl
@[simp] theorem State.tick_phase : (s.tick).phase = phaseAfterCycle s.active := rfl
@[simp] theorem State.tick_cycle : (s.tick).cycle = s.cycle + 1 := rfl
@[simp] theorem State.tick_active : (s.tick).active = s.active := rfl
@[simp] theorem State.tick_mq : (s.tick).mq = s.mq := rfl
@[simp] theorem State.tick_detached : (s.tick).detached = s.detached := rfl
@[simp] theorem State.tick_mem : (s.tick).mem = s.mem := rfl
@[simp] theorem State.tick_input : (s.tick).input = s.input := rfl
@[simp] theorem State.tick_initialInput : (s.tick).initialInput = s.initialInput := rfl
@[simp] theorem State.tick_output : (s.tick).output = s.output := rfl
@[simp] theorem State.tick_lastOut : (s.tick).lastOut = s.lastOut := rfl
@[simp] theorem State.tick_runs : (s.tick).runs = s.runs := rfl
@[simp] theorem State.tick_nextId : (s.tick).nextId = s.nextId := rfl
@[simp] theorem State.tick_abort : (s.tick).abort = s.abort := rfl
@[simp] theorem State.tick_snapshot : (s.tick).snapshot = s.snapshot := rfl
@[simp] theorem State.tick_killed : (s.tick).killed = s.killed := rfl
@[simp] theorem State.tick_receiver : (s.tick).receiver = s.receiver := rfl

/-! ### endPass -/

@[simp] theorem State.endPass_cfg : (s.endPass).cfg = s.cfg := rfl
@[simp] theorem State.endPass_phase : (s.endPass).phase = s.phase := rfl
@[simp] theorem State.endPass_cycle : (s.endPass).cycle = s.cycle := rfl
@[simp] theorem State.endPass_active : (s.endPass).active = s.active := rfl
@[simp] theorem State.endPass_mq : (s.endPass).mq = s.mq := rfl
@[simp] theorem State.endPass_detached : (s.endPass).detached = s.detached := rfl
@[simp] theorem State.endPass_mem : (s.endPass).mem = s.mem := rfl
@[simp] theorem State.endPass_input : (s.endPass).input = s.input := rfl
@[simp] theorem State.endPass_initialInput : (s.endPass).initialInput = s.initialInput := rfl
@[simp] theorem State.endPass_output : (s.endPass).output = s.output := rfl
@[simp] theorem State.endPass_lastOut : (s.endPass).lastOut = s.lastOut := rfl
@[simp] theorem State.endPass_runs : (s.endPass).runs = s.runs := rfl
@[simp] theorem State.endPass_nextId : (s.endPass).nextId = s.nextId := rfl
@[simp] theorem State.endPass_abort : (s.endPass).abort = s.abort := rfl
@[simp] theorem State.endPass_snapshot : (s.endPass).snapshot = [] := rfl
@[simp] theorem State.endPass_killed : (s.endPass).killed = false := rfl
@[simp] theorem State.endPass_receiver : (s.endPass).receiver = none := rfl

/-! ### beginPass -/

@[simp] theorem State.beginPass_cfg : (s.beginPass).cfg = s.cfg := rfl
@[simp] theorem State.beginPass_phase : (s.beginPass).phase = s.phase := rfl
@[simp] theorem State.beginPass_cycle : (s.beginPass).cycle = s.cycle := rfl
@[simp] theorem State.beginPass_active : (s.beginPass).active = s.active := rfl
@[simp] theorem State.beginPass_mq : (s.beginPass).mq = s.mq := rfl
@[simp] theorem State.beginPass_detached : (s.beginPass).detached = s.detached := rfl
@[simp] theorem State.beginPass_mem : (s.beginPass).mem = s.mem := rfl
@[simp] theorem State.beginPass_input : (s.beginPass).input = s.input := rfl
@[simp] theorem State.beginPass_initialInput : (s.beginPass).initialInput = s.initialInput := rfl
@[simp] theorem State.beginPass_output : (s.beginPass).output = s.output := rfl
@[simp] theorem State.beginPass_lastOut : (s.beginPass).lastOut = s.lastOut := rfl
@[simp] theorem State.beginPass_runs : (s.beginPass).runs = s.runs := rfl
@[simp] theorem State.beginPass_nextId : (s.beginPass).nextId = s.nextId := rfl
@[simp] theorem State.beginPass_abort : (s.beginPass).abort = s.abort := rfl
@[simp] theorem State.beginPass_snapshot : (s.beginPass).snapshot = s.active.map Piston.id := rfl
@[simp] theorem State.beginPass_killed : (s.beginPass).killed = false := rfl
@[simp] theorem State.beginPass_receiver : (s.beginPass).receiver = none := rfl

/-! ### clear -/

@[simp] theorem State.clear_cfg : (s.clear).cfg = s.cfg := rfl
@[simp] theorem State.clear_phase : (s.clear).phase = s.phase := rfl
@[simp] theorem State.clear_cycle : (s.clear).cycle = 0 := rfl
@[simp] theorem State.clear_active : (s.clear).active = [] := rfl
@[simp] theorem State.clear_mq : (s.clear).mq = [] := rfl
@[simp] theorem State.clear_detached : (s.clear).detached = [] := rfl
@[simp] theorem State.clear_mem : (s.clear).mem = [] := rfl
@[simp] theorem State.clear_input : (s.clear).input = s.initialInput := rfl
@[simp] theorem State.clear_initialInput : (s.clear).initialInput = s.initialInput := rfl
@[simp] theorem State.clear_output : (s.clear).output = [] := rfl
@[simp] theorem State.clear_lastOut : (s.clear).lastOut = none := rfl
@[simp] theorem State.clear_runs : (s.clear).runs = s.runs + 1 := rfl
@[simp] theorem State.clear_nextId : (s.clear).nextId = s.nextId := rfl
@[simp] theorem State.clear_abort : (s.clear).abort = none := rfl
@[simp] theorem State.clear_snapshot : (s.clear).snapshot = [] := rfl
@[simp] theorem State.clear_killed : (s.clear).killed = false := rfl
@[simp] theorem State.clear_receiver : (s.clear).receiver = none := rfl

/-! ### spawn -/

@[simp] theorem State.spawn_cfg (sp : StartPoint) : (s.spawn sp).cfg = s.cfg := rfl
@[simp] theorem State.spawn_phase (sp : StartPoint) : (s.spawn sp).phase = s.phase := rfl
@[simp] theorem State.spawn_cycle (sp : StartPoint) : (s.spawn sp).cycle = s.cycle := rfl
@[simp] theorem State.spawn_mq (sp : StartPoint) : (s.spawn sp).mq = s.mq := rfl
@[simp] theorem State.spawn_detached (sp : StartPoint) : (s.spawn sp).detached = s.detached := rfl
@[simp] theorem State.spawn_mem (sp : StartPoint) : (s.spawn sp).mem = s.mem := rfl
@[simp] theorem State.spawn_input (sp : StartPoint) : (s.spawn sp).input = s.input := rfl
@[simp] theorem State.spawn_initialInput (sp : StartPoint) : (s.spawn sp).initialInput = s.initialInput := rfl
@[simp] theorem State.spawn_output (sp : StartPoint) : (s.spawn sp).output = s.output := rfl
@[simp] theorem State.spawn_lastOut (sp : StartPoint) : (s.spawn sp).lastOut = s.lastOut := rfl
@[simp] theorem State.spawn_runs (sp : StartPoint) : (s.spawn sp).runs = s.runs := rfl
@[simp] theorem State.spawn_nextId (sp : StartPoint) : (s.spawn sp).nextId = s.nextId + 1 := rfl
@[simp] theorem State.spawn_abort (sp : StartPoint) : (s.spawn sp).abort = s.abort := rfl
@[simp] theorem State.spawn_snapshot (sp : StartPoint) : (s.spawn sp).snapshot = s.snapshot := rfl
@[simp] theorem State.spawn_killed (sp : StartPoint) : (s.spawn sp).killed = s.killed := rfl
@[simp] theorem State.spawn_receiver (sp : StartPoint) : (s.spawn sp).receiver = s.receiver := rfl

/-! ### killProcedure -/

@[simp] theorem State.killProcedure_cfg : (s.killProcedure).cfg = s.cfg := rfl
@[simp] theorem State.killProcedure_phase : (s.killProcedure).phase = if s.phase = .aborted then .aborted else .ended := rfl
@[simp] theorem State.killProcedure_cycle : (s.killProcedure).cycle = s.cycle := rfl
@[simp] theorem State.killProcedure_active : (s.killProcedure).active = [] := rfl
@[simp] theorem State.killProcedure_mq : (s.killProcedure).mq = [] := rfl
@[simp] theorem State.killProcedure_detached : (s.killProcedure).detached = [] := rfl
@[simp] theorem State.killProcedure_mem : (s.killProcedure).mem = s.mem := rfl
@[simp] theorem State.killProcedure_input : (s.killProcedure).input = s.input := rfl
@[simp] theorem State.killProcedure_initialInput : (s.killProcedure).initialInput = s.initialInput := rfl
@[simp] theorem State.killProcedure_output : (s.killProcedure).output = s.output := rfl
@[simp] theorem State.killProcedure_lastOut : (s.killProcedure).lastOut = s.lastOut := rfl
@[simp] theorem State.killProcedure_runs : (s.killProcedure).runs = s.runs := rfl
@[simp] theorem State.killProcedure_nextId : (s.killProcedure).nextId = s.nextId := rfl
@[simp] theorem State.killProcedure_abort : (s.killProcedure).abort = s.abort := rfl
@[simp] theorem State.killProcedure_snapshot : (s.killProcedure).snapshot = s.snapshot := rfl
@[simp] theorem State.killProcedure_killed : (s.killProcedure).killed = s.killed := rfl
@[simp] theorem State.killProcedure_receiver : (s.killProcedure).receiver = s.receiver := rfl

/-! ### updatePiston -/

@[simp] theorem State.updatePiston_cfg (n : PistonId) (f : Piston → Piston) : (s.updatePiston n f).cfg = s.cfg := by unfold State.updatePiston; split <;> rfl
@[simp] theorem State.updatePiston_phase (n : PistonId) (f : Piston → Piston) : (s.updatePiston n f).phase = s.phase := by unfold State.updatePiston; split <;> rfl
@[simp] theorem State.updatePiston_cycle (n : PistonId) (f : Piston → Piston) : (s.updatePiston n f).cycle = s.cycle := by unfold State.updatePiston; split <;> rfl
@[simp] theorem State.updatePiston_mq (n : PistonId) (f : Piston → Piston) : (s.updatePiston n f).mq = s.mq := by unfold State.updatePiston; split <;> rfl
@[simp] theorem State.updatePiston_mem (n : PistonId) (f : Piston → Piston) : (s.updatePiston n f).mem = s.mem := by unfold State.updatePiston; split <;> rfl
@[simp] theorem State.updatePiston_input (n : PistonId) (f : Piston → Piston) : (s.updatePiston n f).input = s.input := by unfold State.updatePiston; split <;> rfl
@[simp] theorem State.updatePiston_initialInput (n : PistonId) (f : Piston → Piston) : (s.updatePiston n f).initialInput = s.initialInput := by unfold State.updatePiston; split <;> rfl
@[simp] theorem State.updatePiston_output (n : PistonId) (f : Piston → Piston) : (s.updatePiston n f).output = s.output := by unfold State.updatePiston; split <;> rfl
@[simp] theorem State.updatePiston_lastOut (n : PistonId) (f : Piston → Piston) : (s.updatePiston n f).lastOut = s.lastOut := by unfold State.updatePiston; split <;> rfl
@[simp] theorem State.updatePiston_runs (n : PistonId) (f : Piston → Piston) : (s.updatePiston n f).runs = s.runs := by unfold State.updatePiston; split <;> rfl
@[simp] theorem State.updatePiston_nextId (n : PistonId) (f : Piston → Piston) : (s.updatePiston n f).nextId = s.nextId := by unfold State.updatePiston; split <;> rfl
@[simp] theorem State.updatePiston_abort (n : PistonId) (f : Piston → Piston) : (s.updatePiston n f).abort = s.abort := by unfold State.updatePiston; split <;> rfl
@[simp] theorem State.updatePiston_snapshot (n : PistonId) (f : Piston → Piston) : (s.updatePiston n f).snapshot = s.snapshot := by unfold State.updatePiston; split <;> rfl
@[simp] theorem State.updatePiston_killed (n : PistonId) (f : Piston → Piston) : (s.updatePiston n f).killed = s.killed := by unfold State.updatePiston; split <;> rfl
@[simp] theorem State.updatePiston_receiver (n : PistonId) (f : Piston → Piston) : (s.updatePiston n f).receiver = s.receiver := by unfold State.updatePiston; split <;> rfl

/-! ### detach -/

@[simp] theorem State.detach_cfg (n : PistonId) (p : Piston) : (s.detach n p).cfg = s.cfg := by unfold State.detach; split <;> rfl
@[simp] theorem State.detach_phase (n : PistonId) (p : Piston) : (s.detach n p).phase = s.phase := by unfold State.detach; split <;> rfl
@[simp] theorem State.detach_cycle (n : PistonId) (p : Piston) : (s.detach n p).cycle = s.cycle := by unfold State.detach; split <;> rfl
@[simp] theorem State.detach_mem (n : PistonId) (p : Piston) : (s.detach n p).mem = s.mem := by unfold State.detach; split <;> rfl
@[simp] theorem State.detach_input (n : PistonId) (p : Piston) : (s.detach n p).input = s.input := by unfold State.detach; split <;> rfl
@[simp] theorem State.detach_initialInput (n : PistonId) (p : Piston) : (s.detach n p).initialInput = s.initialInput := by unfold State.detach; split <;> rfl
@[simp] theorem State.detach_output (n : PistonId) (p : Piston) : (s.detach n p).output = s.output := by unfold State.detach; split <;> rfl
@[simp] theorem State.detach_lastOut (n : PistonId) (p : Piston) : (s.detach n p).lastOut = s.lastOut := by unfold State.detach; split <;> rfl
@[simp] theorem State.detach_runs (n : PistonId) (p : Piston) : (s.detach n p).runs = s.runs := by unfold State.detach; split <;> rfl
@[simp] theorem State.detach_nextId (n : PistonId) (p : Piston) : (s.detach n p).nextId = s.nextId := by unfold State.detach; split <;> rfl
@[simp] theorem State.detach_abort (n : PistonId) (p : Piston) : (s.detach n p).abort = s.abort := by unfold State.detach; split <;> rfl
@[simp] theorem State.detach_snapshot (n : PistonId) (p : Piston) : (s.detach n p).snapshot = s.snapshot := by unfold State.detach; split <;> rfl
@[simp] theorem State.detach_killed (n : PistonId) (p : Piston) : (s.detach n p).killed = s.killed := by unfold State.detach; split <;> rfl
@[simp] theorem State.detach_receiver (n : PistonId) (p : Piston) : (s.detach n p).receiver = s.receiver := by unfold State.detach; split <;> rfl

/-! ### drainOne -/

@[simp] theorem State.drainOne_cfg (q : MergeRequest) : (s.drainOne q).cfg = s.cfg := by unfold State.drainOne; split <;> (try split) <;> rfl
@[simp] theorem State.drainOne_phase (q : MergeRequest) : (s.drainOne q).phase = s.phase := by unfold State.drainOne; split <;> (try split) <;> rfl
@[simp] theorem State.drainOne_cycle (q : MergeRequest) : (s.drainOne q).cycle = s.cycle := by unfold State.drainOne; split <;> (try split) <;> rfl
@[simp] theorem State.drainOne_mq (q : MergeRequest) : (s.drainOne q).mq = s.mq := by unfold State.drainOne; split <;> (try split) <;> rfl
@[simp] theorem State.drainOne_mem (q : MergeRequest) : (s.drainOne q).mem = s.mem := by unfold State.drainOne; split <;> (try split) <;> rfl
@[simp] theorem State.drainOne_input (q : MergeRequest) : (s.drainOne q).input = s.input := by unfold State.drainOne; split <;> (try split) <;> rfl
@[simp] theorem State.drainOne_initialInput (q : MergeRequest) : (s.drainOne q).initialInput = s.initialInput := by unfold State.drainOne; split <;> (try split) <;> rfl
@[simp] theorem State.drainOne_output (q : MergeRequest) : (s.drainOne q).output = s.output := by unfold State.drainOne; split <;> (try split) <;> rfl
@[simp] theorem State.drainOne_lastOut (q : MergeRequest) : (s.drainOne q).lastOut = s.lastOut := by unfold State.drainOne; split <;> (try split) <;> rfl
@[simp] theorem State.drainOne_runs (q : MergeRequest) : (s.drainOne q).runs = s.runs := by unfold State.drainOne; split <;> (try split) <;> rfl
@[simp] theorem State.drainOne_nextId (q : MergeRequest) : (s.drainOne q).nextId = s.nextId := by unfold State.drainOne; split <;> (try split) <;> rfl
@[simp] theorem State.drainOne_abort (q : MergeRequest) : (s.drainOne q).abort = s.abort := by unfold State.drainOne; split <;> (try split) <;> rfl
@[simp] theorem State.drainOne_snapshot (q : MergeRequest) : (s.drainOne q).snapshot = s.snapshot := by unfold State.drainOne; split <;> (try split) <;> rfl
@[simp] theorem State.drainOne_killed (q : MergeRequest) : (s.drainOne q).killed = s.killed := by unfold State.drainOne; split <;> (try split) <;> rfl
@[simp] theorem State.drainOne_receiver (q : MergeRequest) : (s.drainOne q).receiver = s.receiver := by unfold State.drainOne; split <;> (try split) <;> rfl

end Sys2Proof.Machine
end

