-- ==== Sys2Proof/Laws/Ops.lean ====
section
/-!
SUPPORT. What the shared operations do: modular reduction, memory, registers, finding and changing the receiver,
taking an abort.
-/
namespace Sys2Proof.Machine

/-! ### Modular reduction -/

theorem modM_lt {m : Nat} (h : 1 ≤ m) (a : Int) : modM m a < m := by
  have h0 := Int.emod_nonneg a (show (m : Int) ≠ 0 by omega)
  have h1 := Int.emod_lt_of_pos a (show (0 : Int) < m by omega)
  unfold modM; omega

theorem modM_cast {m : Nat} (h : 1 ≤ m) (a : Int) : (modM m a : Int) = a % (m : Int) := by
  have h0 := Int.emod_nonneg a (show (m : Int) ≠ 0 by omega)
  unfold modM; omega

theorem modM_of_lt {m v : Nat} (h : v < m) : modM m v = v := by
  unfold modM
  rw [Int.emod_eq_of_lt (by omega) (by omega)]; rfl

/-! ### Memory -/

theorem Memory.read_write (m : Memory) (a b v : Nat) :
    (Memory.write m a v).read b = if b = a then v else m.read b := by
  unfold Memory.read Memory.write
  by_cases hb : b = a
  · subst hb
    by_cases hv : v = Memory.unwritten
    · simp [hv, Map.get_erase_self]
    · simp [hv, Map.get_put_self]
  · by_cases hv : v = Memory.unwritten
    · simp [hv, hb, Map.get_erase_other _ hb]
    · simp [hv, hb, Map.get_put_other _ _ hb]

theorem Memory.write_wf {m : Memory} (h : Memory.wf m) (a v : Nat) : Memory.wf (m.write a v) := by
  unfold Memory.write
  by_cases hv : v = Memory.unwritten
  · rw [if_pos hv]
    exact ⟨Map.erase_canon h.1 a, fun c hc => h.2 c (Map.mem_erase hc)⟩
  · rw [if_neg hv]
    refine ⟨Map.put_canon h.1 a v, fun c hc => ?_⟩
    rcases Map.mem_put hc with rfl | hc
    · exact hv
    · exact h.2 c hc

theorem Memory.nil_wf : Memory.wf [] := by simp [Memory.wf, Map.Canon]

/-- Memories in canonical form that read alike are equal. -/
theorem Memory.ext_of_read {m m' : Memory} (h : Memory.wf m) (h' : Memory.wf m')
    (e : ∀ a, m.read a = m'.read a) : m = m' := by
  refine Map.ext_of_get h.1 h'.1 fun k => ?_
  have hk := e k
  unfold Memory.read at hk
  cases h1 : Map.get m k with
  | none =>
    cases h2 : Map.get m' k with
    | none => rfl
    | some v => exact absurd (by simpa [h1, h2] using hk.symm) (h'.2 _ (Map.mem_of_get h2))
  | some v =>
    cases h2 : Map.get m' k with
    | none => exact absurd (by simpa [h1, h2] using hk) (h.2 _ (Map.mem_of_get h1))
    | some w => simpa [h1, h2] using hk

/-! ### Registers -/

theorem RegFile.cell_set (f : RegFile) (r q : RegName) (v : Nat) (o : Opts) :
    RegFile.cell (RegFile.set f r v o) q = if q = r then .val v o else RegFile.cell f q := by
  unfold RegFile.cell RegFile.set
  rw [Map.get_put]
  by_cases h : q = r <;> simp [h]

/-! ### Finding a piston -/

theorem State.locate_congr {s t : State} (ha : t.active = s.active) (hd : t.detached = s.detached) (n : PistonId) :
    t.locate n = s.locate n := by
  unfold State.locate; rw [ha, hd]

theorem State.receiverPiston_some {s : State} {n : PistonId} (h : s.receiver = some n) :
    s.receiverPiston = s.locate n := by
  unfold State.receiverPiston; rw [h]

theorem State.withReceiver_some {α : Type} {s : State} {n : PistonId} {p : Piston} (f : PistonId → Piston → PrimOut α)
    (hr : s.receiver = some n) (hp : s.locate n = some p) : s.withReceiver f = f n p := by
  unfold State.withReceiver; rw [hr]; simp only; rw [hp]

/-- What a primitive on the receiver needs to answer anything but `lost`. -/
theorem State.withReceiver_cases {α : Type} (s : State) (f : PistonId → Piston → PrimOut α) :
    (∃ n p, s.receiver = some n ∧ s.locate n = some p ∧ s.withReceiver f = f n p) ∨ s.withReceiver f = .lost := by
  unfold State.withReceiver
  cases hr : s.receiver with
  | none => exact .inr rfl
  | some n =>
    cases hp : s.locate n with
    | none => exact .inr (by simp [hp])
    | some p => exact .inl ⟨n, p, rfl, hp, by simp [hp]⟩

/-- Finding an id after the entries with id `n` were changed, ids kept. -/
theorem find_id_update (l : List Piston) (n : PistonId) {f : Piston → Piston} (hf : ∀ p, (f p).id = p.id)
    (m : PistonId) :
    ((l.map fun p => if p.id = n then f p else p).find? fun p => p.id == m) =
      if m = n then (l.find? fun p => p.id == n).map f else l.find? fun p => p.id == m := by
  induction l with
  | nil => simp
  | cons a l ih =>
    simp only [List.map_cons, List.find?_cons]
    by_cases ha : a.id = n
    · by_cases hm : m = n
      · simp [ha, hm, hf]
      · have hnm : (n == m) = false := by simpa using Ne.symm hm
        simp [ha, hf, hnm, ih, hm]
    · by_cases hm : m = n
      · have han : (a.id == n) = false := by simpa using ha
        simp only [hm, if_true] at ih ⊢
        simp [ha, han, ih]
      · simp only [ha, if_false, ih, hm]

/-- Changing the piston with id `n` changes what is found under `n` and nothing else, if the change keeps the id. -/
theorem State.locate_updatePiston (s : State) (n : PistonId) {f : Piston → Piston} (hf : ∀ p, (f p).id = p.id)
    (m : PistonId) :
    (s.updatePiston n f).locate m = if m = n then (s.locate n).map f else s.locate m := by
  unfold State.updatePiston
  cases hd : Map.get s.detached n with
  | some p =>
    simp only [State.locate, Map.get_adjust]
    by_cases hm : m = n
    · simp [hm, hd]
    · simp [hm]
  | none =>
    simp only [State.locate]
    by_cases hm : m = n
    · subst hm; simp [hd, find_id_update _ _ hf]
    · simp [find_id_update _ _ hf, hm]

theorem State.active_ids_updatePiston (s : State) (n : PistonId) {f : Piston → Piston} (hf : ∀ p, (f p).id = p.id) :
    (s.updatePiston n f).active.map Piston.id = s.active.map Piston.id := by
  unfold State.updatePiston
  split
  · rfl
  · simp only [List.map_map]
    refine List.map_congr_left fun p _ => ?_
    simp only [Function.comp]
    split
    · exact hf p
    · rfl

theorem State.detached_ids_updatePiston (s : State) (n : PistonId) (f : Piston → Piston) :
    (s.updatePiston n f).detached.map Prod.fst = s.detached.map Prod.fst := by
  unfold State.updatePiston
  split
  · exact Map.keys_adjust _ _ _
  · rfl

/-- Changing a piston touches the two places it can be, and nothing else. -/
theorem State.updatePiston_frame (s : State) (n : PistonId) (f : Piston → Piston) :
    s.updatePiston n f =
      { s with active := (s.updatePiston n f).active, detached := (s.updatePiston n f).detached } := by
  unfold State.updatePiston; split <;> rfl

/-! ### Raising before a handler runs -/

theorem State.raiseStep_some {s : State} {n : PistonId} {p : Piston} (hr : s.receiver = some n)
    (hp : s.locate n = some p) (k : ErrorKind) (w : Option Word24) :
    s.raiseStep k w = .next (s.enterAbort k p w) := by
  unfold State.raiseStep; rw [State.receiverPiston_some hr, hp]

end Sys2Proof.Machine
end

