-- ==== Sys2Proof/Laws/Handlers.lean ====
section
/-!
SUPPORT. What a primitive and a handler program can do, said once: every effect of a primitive that goes on is one of
seven (`Effect`), and a property that these and `KILL` keep is kept by every handler program.
-/
namespace Sys2Proof.Machine

/-- The changes a receiver primitive makes to its piston, with modulus `m`. -/
inductive ReceiverChange (m : Nat) : (Piston → Piston) → Prop
  | move (n : Int) : ReceiverChange m (Piston.move m n)
  | turnLeft : ReceiverChange m Piston.turnLeft
  | turnRight : ReceiverChange m Piston.turnRight
  | turnBack : ReceiverChange m Piston.turnBack
  | setReg (r : RegName) (v : Int) (o : Opts) : ReceiverChange m (Piston.setReg m r v o)
  | markEnded : ReceiverChange m Piston.markEnded

theorem ReceiverChange.id_eq {m : Nat} {f : Piston → Piston} (h : ReceiverChange m f) (p : Piston) : (f p).id = p.id := by
  cases h <;> rfl

theorem ReceiverChange.priority_eq {m : Nat} {f : Piston → Piston} (h : ReceiverChange m f) (p : Piston) :
    (f p).priority = p.priority := by
  cases h <;> rfl

theorem Piston.setReg_ok {m : Nat} (hm : 1 ≤ m) {p : Piston} (hp : Piston.Ok m p) (r : RegName) (v : Int) (o : Opts) :
    Piston.Ok m (Piston.setReg m r v o p) := by
  refine ⟨hp.1, hp.2.1, Map.put_canon hp.2.2.1 _ _, fun c hc => ?_⟩
  rcases Map.mem_put hc with rfl | hc
  · exact modM_lt hm v
  · exact hp.2.2.2 c hc

theorem Piston.move_ok {m : Nat} (hm : 1 ≤ m) {p : Piston} (hp : Piston.Ok m p) (n : Int) :
    Piston.Ok m (Piston.move m n p) :=
  ⟨modM_lt hm _, modM_lt hm _, hp.2.2.1, hp.2.2.2⟩

/-- A receiver primitive keeps its piston within bounds. -/
theorem ReceiverChange.ok {m : Nat} (hm : 1 ≤ m) {f : Piston → Piston} (h : ReceiverChange m f) {p : Piston}
    (hp : Piston.Ok m p) : Piston.Ok m (f p) := by
  cases h with
  | move n => exact Piston.move_ok hm hp n
  | setReg r v o => exact Piston.setReg_ok hm hp r v o
  | turnLeft => exact hp
  | turnRight => exact hp
  | turnBack => exact hp
  | markEnded => exact hp

/-- The state after a fork by the receiver `n` with contents `p`. -/
def State.afterFork (s : State) (n : PistonId) (p : Piston) (d : ForkDir) : State :=
  { s with
    nextId := s.nextId + 1
    mq := s.mq ++
      [{ anchor := .id n, entrant := .copy (forkCopy s.cfg d s.nextId p), side := forkSide s.cfg d }] }

/-- The state after a priority change by the receiver `n` with contents `p`. -/
def State.afterPriority (s : State) (n : PistonId) (p : Piston) (v : Int) : State :=
  { s.detach n p with
    detached := Map.put (s.detach n p).detached n { p with priority := v }
    mq := (s.detach n p).mq ++
      [{ anchor := prioAnchor (s.detach n p).active v, entrant := .detached n, side := .left }] }

/-- What one primitive that goes on can do to the state. -/
inductive Effect (s : State) : State → Prop
  | none : Effect s s
  | receiver (n : PistonId) (p : Piston) (f : Piston → Piston) (hr : s.receiver = some n) (hp : s.locate n = some p)
      (hf : ReceiverChange s.cfg.maxInteger f) : Effect s (s.updatePiston n f)
  | memory (a v : Nat) : Effect s { s with mem := s.mem.write a v }
  | input (taken rest : Text) (h : s.input = taken ++ rest) : Effect s { s with input := rest }
  | output (v : Nat) (t : Text) : Effect s (s.emit v t)
  | fork (n : PistonId) (p : Piston) (d : ForkDir) (hr : s.receiver = some n) (hp : s.locate n = some p) :
      Effect s (s.afterFork n p d)
  | priority (n : PistonId) (p : Piston) (v : Int) (hr : s.receiver = some n) (hp : s.locate n = some p) :
      Effect s (s.afterPriority n p v)

/-- The state after `KILL`. -/
def State.afterKill (s : State) : State := { s.emptyLists with killed := true }

/-- A primitive on the receiver that goes on had a receiver in reach. -/
theorem State.withReceiver_done {α : Type} {s t : State} {f : PistonId → Piston → PrimOut α} {v : α}
    (h : s.withReceiver f = .done v t) :
    ∃ n p, s.receiver = some n ∧ s.locate n = some p ∧ f n p = .done v t := by
  rcases s.withReceiver_cases f with ⟨n, p, hr, hp, e⟩ | e
  · exact ⟨n, p, hr, hp, by rw [← e, h]⟩
  · rw [e] at h; cases h

theorem State.changeReceiver_done {s t : State} {f : Piston → Piston} {u : Unit}
    (h : s.changeReceiver f = .done u t) : ∃ n p, s.receiver = some n ∧ s.locate n = some p ∧ t = s.updatePiston n f := by
  obtain ⟨n, p, hr, hp, e⟩ := State.withReceiver_done h
  cases e
  exact ⟨n, p, hr, hp, rfl⟩

theorem State.readReceiver_done {α : Type} {s t : State} {f : Piston → α} {v : α}
    (h : s.readReceiver f = .done v t) : ∃ n p, s.receiver = some n ∧ s.locate n = some p ∧ t = s ∧ v = f p := by
  obtain ⟨n, p, hr, hp, e⟩ := State.withReceiver_done h
  cases e
  exact ⟨n, p, hr, hp, rfl, rfl⟩

theorem receiver_effect {s t : State} {f : Piston → Piston} {u : Unit} (hf : ReceiverChange s.cfg.maxInteger f)
    (h : s.changeReceiver f = .done u t) : Effect s t := by
  obtain ⟨n, p, hr, hp, rfl⟩ := State.changeReceiver_done h
  exact .receiver n p f hr hp hf

theorem read_effect {α : Type} {s t : State} {f : Piston → α} {v : α} (h : s.readReceiver f = .done v t) :
    Effect s t := by
  obtain ⟨_, _, _, _, rfl, _⟩ := State.readReceiver_done h
  exact .none

/-- Every primitive that goes on has one of the effects. -/
theorem Prim.perform_effect (p : Prim) {s t : State} {v : p.Result} (h : Prim.perform p s = .done v t) : Effect s t := by
  cases p with
  | move n => exact receiver_effect (.move n) h
  | turnLeft => exact receiver_effect .turnLeft h
  | turnRight => exact receiver_effect .turnRight h
  | reverse => exact receiver_effect .turnBack h
  | setReg r z o => exact receiver_effect (.setReg r z o) h
  | endPiston => exact receiver_effect .markEnded h
  | getPos => exact read_effect h
  | getDir => exact read_effect h
  | getPrio => exact read_effect h
  | getReg r =>
    obtain ⟨n, p, _, _, e⟩ := State.withReceiver_done h
    split at e
    · cases e; exact .none
    · cases e
  | fork d =>
    obtain ⟨n, p, hr, hp, e⟩ := State.withReceiver_done h
    cases e; exact .fork n p d hr hp
  | setPriority z =>
    obtain ⟨n, p, hr, hp, e⟩ := State.withReceiver_done h
    cases e; exact .priority n p z hr hp
  | kill => cases h
  | memRead a => cases h; exact .none
  | memWrite a v => cases h; exact .memory a v
  | inNum => cases h; exact .input _ _ List.takeWhile_append_dropWhile.symm
  | inChar =>
    change primInChar s = _ at h
    unfold primInChar at h
    split at h <;> cases h
    · exact .none
    · exact .input [_] _ ‹_›
  | outNum n => cases h; exact .output n _
  | outToken x =>
    change primOutToken x s = _ at h
    unfold primOutToken at h
    split at h <;> cases h
    exact .output _ _

/-- The only primitive that ends a program is `KILL`. -/
theorem Prim.perform_stop (p : Prim) {s t : State} (h : Prim.perform p s = .stop t) : p = .kill ∧ t = s.afterKill := by
  have hw : ∀ {α : Type} (f : PistonId → Piston → PrimOut α), s.withReceiver f = .stop t →
      ∃ n q, f n q = .stop t := by
    intro α f hf
    rcases s.withReceiver_cases f with ⟨n, q, _, _, e⟩ | e
    · exact ⟨n, q, by rw [← e, hf]⟩
    · rw [e] at hf; cases hf
  cases p with
  | kill => cases h; exact ⟨rfl, rfl⟩
  | move n => obtain ⟨_, _, e⟩ := hw _ h; cases e
  | turnLeft => obtain ⟨_, _, e⟩ := hw _ h; cases e
  | turnRight => obtain ⟨_, _, e⟩ := hw _ h; cases e
  | reverse => obtain ⟨_, _, e⟩ := hw _ h; cases e
  | setReg r v o => obtain ⟨_, _, e⟩ := hw _ h; cases e
  | endPiston => obtain ⟨_, _, e⟩ := hw _ h; cases e
  | getPos => obtain ⟨_, _, e⟩ := hw _ h; cases e
  | getDir => obtain ⟨_, _, e⟩ := hw _ h; cases e
  | getPrio => obtain ⟨_, _, e⟩ := hw _ h; cases e
  | getReg r => obtain ⟨_, _, e⟩ := hw _ h; split at e <;> cases e
  | fork d => obtain ⟨_, _, e⟩ := hw _ h; cases e
  | setPriority v => obtain ⟨_, _, e⟩ := hw _ h; cases e
  | memRead a => cases h
  | memWrite a v => cases h
  | inNum => cases h
  | inChar => change primInChar s = _ at h; unfold primInChar at h; split at h <;> cases h
  | outNum n => cases h
  | outToken x => change primOutToken x s = _ at h; unfold primOutToken at h; split at h <;> cases h

/-- The induction over a handler program: what every effect and `KILL` keep, the program keeps. -/
theorem HProg.exec_induction {Q : State → Prop} (hstep : ∀ s t, Effect s t → Q s → Q t)
    (hkill : ∀ s, Q s → Q s.afterKill) (prog : HProg) {s t : State} (hs : Q s)
    (h : HProg.exec prog s = .finished t) : Q t := by
  induction prog generalizing s with
  | done => cases h; exact hs
  | op p k ih =>
    simp only [HProg.exec] at h
    split at h
    · exact ih _ (hstep _ _ (Prim.perform_effect p ‹_›) hs) h
    · rename_i e
      cases h
      exact (Prim.perform_stop p e).2 ▸ hkill _ hs
    · cases h
    · cases h

/-! ### The receiver stays in reach -/

theorem State.locate_afterFork (s : State) (n : PistonId) (p : Piston) (d : ForkDir) (m : PistonId) :
    (s.afterFork n p d).locate m = s.locate m := rfl

theorem find_filter_ne {l : List Piston} {m n : PistonId} (h : m ≠ n) :
    ((l.filter fun q => decide (q.id ≠ n)).find? fun q => q.id == m) = l.find? fun q => q.id == m := by
  induction l with
  | nil => rfl
  | cons a l ih =>
    by_cases ha : a.id = n
    · have : (a.id == m) = false := by simpa [ha] using Ne.symm h
      simp only [List.find?_cons, this]
      simp [ha, ← ih]
    · rw [List.filter_cons_of_pos (by simpa using ha), List.find?_cons, List.find?_cons, ih]

/-- A priority change sets the receiver's priority and leaves every other piston as it is. -/
theorem State.locate_afterPriority (s : State) (n : PistonId) (p : Piston) (v : Int) (m : PistonId) :
    (s.afterPriority n p v).locate m = if m = n then some { p with priority := v } else s.locate m := by
  unfold State.afterPriority State.detach
  by_cases hm : m = n
  · subst hm
    simp [State.locate, Map.get_put_self]
  · cases hd : Map.get s.detached n with
    | some q => simp only [State.locate, Map.get_put_other _ _ hm, if_neg hm]
    | none => simp only [State.locate, Map.get_put_other _ _ hm, find_filter_ne hm, if_neg hm]

/-- No effect loses the receiver, nor changes another piston. -/
theorem Effect.locate {s t : State} (h : Effect s t) {n : PistonId} (hr : s.receiver = some n) :
    t.receiver = some n ∧ ((s.locate n).isSome → (t.locate n).isSome) ∧ ∀ m, m ≠ n → t.locate m = s.locate m := by
  cases h with
  | none => exact ⟨hr, id, fun _ _ => rfl⟩
  | memory a v => exact ⟨hr, id, fun _ _ => rfl⟩
  | input _ _ _ => exact ⟨hr, id, fun _ _ => rfl⟩
  | output v x => exact ⟨hr, id, fun _ _ => rfl⟩
  | receiver n' p f hr' hp hf =>
    obtain rfl : n' = n := by rw [hr] at hr'; exact (Option.some.inj hr').symm
    refine ⟨by simpa using hr, fun h => ?_, fun m hm => ?_⟩
    · rw [State.locate_updatePiston _ _ hf.id_eq]; simpa using h
    · rw [State.locate_updatePiston _ _ hf.id_eq, if_neg hm]
  | fork n' p d hr' hp => exact ⟨hr, id, fun _ _ => rfl⟩
  | priority n' p v hr' hp =>
    obtain rfl : n' = n := by rw [hr] at hr'; exact (Option.some.inj hr').symm
    refine ⟨?_, fun _ => ?_, fun m hm => ?_⟩
    · simpa [State.afterPriority] using hr
    · rw [State.locate_afterPriority]; simp
    · rw [State.locate_afterPriority, if_neg hm]

/-- With the receiver in reach, no primitive answers `lost`. -/
theorem Prim.perform_ne_lost (p : Prim) {s : State} {n : PistonId} {q : Piston} (hr : s.receiver = some n)
    (hq : s.locate n = some q) : Prim.perform p s ≠ .lost := by
  have hw : ∀ {α : Type} (f : PistonId → Piston → PrimOut α), f n q ≠ .lost → s.withReceiver f ≠ .lost := by
    intro α f hf; rwa [State.withReceiver_some f hr hq]
  cases p with
  | move n => exact hw _ (by simp)
  | turnLeft => exact hw _ (by simp)
  | turnRight => exact hw _ (by simp)
  | reverse => exact hw _ (by simp)
  | setReg r v o => exact hw _ (by simp)
  | endPiston => exact hw _ (by simp)
  | getPos => exact hw _ (by simp)
  | getDir => exact hw _ (by simp)
  | getPrio => exact hw _ (by simp)
  | getReg r => exact hw _ (by split <;> simp)
  | fork d => exact hw _ (by simp)
  | setPriority v => exact hw _ (by simp)
  | kill => exact nofun
  | memRead a => exact nofun
  | memWrite a v => exact nofun
  | inNum => exact nofun
  | inChar => change primInChar s ≠ _; unfold primInChar; split <;> exact nofun
  | outNum n => exact nofun
  | outToken x => change primOutToken x s ≠ _; unfold primOutToken; split <;> exact nofun

/-- With the receiver in reach, a handler program finishes or raises: it is never lost. -/
theorem HProg.exec_ne_lost (prog : HProg) {s : State} {n : PistonId} {q : Piston} (hr : s.receiver = some n)
    (hq : s.locate n = some q) : HProg.exec prog s ≠ .lost := by
  induction prog generalizing s q with
  | done => simp [HProg.exec]
  | op p k ih =>
    simp only [HProg.exec]
    split
    · rename_i v t e
      have hl := (Prim.perform_effect p e).locate hr
      obtain ⟨q', hq'⟩ := Option.isSome_iff_exists.1 (hl.2.1 (by simp [hq]))
      exact ih v hl.1 hq'
    · simp
    · simp
    · exact absurd ‹_› (Prim.perform_ne_lost p hr hq)

/-- Running a handler with the receiver in reach: the program's end, or the abort it raises. -/
theorem State.runHandler_some {s : State} {n : PistonId} {q : Piston} (hr : s.receiver = some n)
    (hq : s.locate n = some q) (w : Word24) (prog : HProg) :
    (∃ t, HProg.exec prog s = .finished t ∧ s.runHandler w prog = .next t) ∨
      ∃ k, HProg.exec prog s = .raised k ∧ s.runHandler w prog = .next (s.enterAbort k q (some w)) := by
  unfold State.runHandler
  rw [State.receiverPiston_some hr, hq]
  cases h : HProg.exec prog s with
  | finished t => exact .inl ⟨t, rfl, rfl⟩
  | raised k => exact .inr ⟨k, rfl, rfl⟩
  | lost => exact absurd h (HProg.exec_ne_lost prog hr hq)

/-- The fields no handler program writes. -/
theorem HProg.exec_frame (prog : HProg) {s t : State} (h : HProg.exec prog s = .finished t) :
    t.cfg = s.cfg ∧ t.phase = s.phase ∧ t.cycle = s.cycle ∧ t.initialInput = s.initialInput ∧ t.runs = s.runs ∧
      t.abort = s.abort ∧ t.snapshot = s.snapshot ∧ t.receiver = s.receiver := by
  refine HProg.exec_induction (Q := fun t => t.cfg = s.cfg ∧ t.phase = s.phase ∧ t.cycle = s.cycle ∧
    t.initialInput = s.initialInput ∧ t.runs = s.runs ∧ t.abort = s.abort ∧ t.snapshot = s.snapshot ∧
    t.receiver = s.receiver) ?_ (fun s hs => by simpa [State.afterKill] using hs) prog (by simp) h
  intro a b hab ha
  cases hab with
  | none => exact ha
  | memory _ _ => exact ha
  | input _ _ _ => exact ha
  | output _ _ => exact ha
  | receiver n p f _ _ _ => simpa using ha
  | fork n p d _ _ => exact ha
  | priority n p v _ _ => simpa [State.afterPriority] using ha

end Sys2Proof.Machine
end

