-- ==== Sys2Proof/Laws/Exec.lean ====
section
/-!
SUPPORT. What an instruction can do, said once for `exec`: it runs a handler program on its own word or raises, and what
it leaves is the program's end or an abort on the state before it (60_exceptions.md R388).
-/
namespace Sys2Proof.Machine

/-- Every instruction either runs a handler program on its word, or raises. -/
theorem exec_cases (i : Instr) (s : State) :
    (∃ prog, exec i s = s.runHandler (encode i) prog) ∨ ∃ k, exec i s = s.raiseStep k (some (encode i)) := by
  cases i with
  | metaD5 reg opts arg =>
    simp only [exec, execMetaD5]
    split
    · exact .inl ⟨_, rfl⟩
    · exact .inr ⟨_, rfl⟩
  | plainDispatch cc tail =>
    simp only [exec, execPlainDispatch]
    split
    · exact .inl ⟨_, rfl⟩
    · exact .inr ⟨_, rfl⟩
  | metaADispatch cc mc reg opts arg =>
    simp only [exec, execMetaADispatch]
    split
    · split
      · exact .inl ⟨_, rfl⟩
      · exact .inr ⟨_, rfl⟩
    · exact .inr ⟨_, rfl⟩
  | metaBDispatch cc mc arg =>
    simp only [exec, execMetaBDispatch]
    split
    · exact .inl ⟨_, rfl⟩
    · exact .inr ⟨_, rfl⟩
  | decodeErrorCc cc rest => exact .inr ⟨_, rfl⟩
  | decodeErrorMc cc mc rest => exact .inr ⟨_, rfl⟩
  | invalidRegisterSelector cc mc reg rest => exact .inr ⟨_, rfl⟩

/-- What an instruction that goes on has done: run a handler program to its end, or taken an abort. -/
theorem exec_next {i : Instr} {s t : State} (h : exec i s = .next t) :
    (∃ prog, HProg.exec prog s = .finished t) ∨
      ∃ n p k, s.receiver = some n ∧ s.locate n = some p ∧ t = s.enterAbort k p (some (encode i)) := by
  rcases exec_cases i s with ⟨prog, e⟩ | ⟨k, e⟩ <;> rw [e] at h
  · unfold State.runHandler State.receiverPiston at h
    split at h
    · rename_i p e
      split at e <;> try cases e
      split at h <;> cases h
      · exact .inl ⟨_, ‹_›⟩
      · exact .inr ⟨_, _, _, ‹_›, e, rfl⟩
    · cases h
  · unfold State.raiseStep State.receiverPiston at h
    split at h
    · rename_i p e
      split at e <;> try cases e
      cases h
      exact .inr ⟨_, _, _, ‹_›, e, rfl⟩
    · cases h

/-- With the receiver in reach an instruction always goes on. -/
theorem exec_ne_stop (i : Instr) {s : State} {n : PistonId} {p : Piston} (hr : s.receiver = some n)
    (hp : s.locate n = some p) : ∃ t, exec i s = .next t := by
  rcases exec_cases i s with ⟨prog, e⟩ | ⟨k, e⟩ <;> rw [e]
  · rcases State.runHandler_some hr hp (encode i) prog with ⟨t, _, h⟩ | ⟨k, _, h⟩
    · exact ⟨t, h⟩
    · exact ⟨_, h⟩
  · exact ⟨_, State.raiseStep_some hr hp _ _⟩

end Sys2Proof.Machine
end

