-- ==== Sys2Proof/Laws/Scheduler.lean ====
section
/-!
SUPPORT. The merge queue and the lists of pistons: what each effect of a primitive does to the pistons the engine holds,
and what draining does.
-/
namespace Sys2Proof.Machine

/-! ### The requests of a queue -/

theorem copiesOf_append (a b : List MergeRequest) : copiesOf (a ++ b) = copiesOf a ++ copiesOf b := by
  induction a with
  | nil => rfl
  | cons q a ih => obtain ⟨_, e, _⟩ := q; cases e <;> simp [copiesOf, ih]

theorem prioIdsOf_append (a b : List MergeRequest) : prioIdsOf (a ++ b) = prioIdsOf a ++ prioIdsOf b := by
  induction a with
  | nil => rfl
  | cons q a ih => obtain ⟨_, e, _⟩ := q; cases e <;> simp [prioIdsOf, ih]

/-- Withdrawing a `PRIO` request withdraws no copy. -/
theorem copiesOf_withdraw (q : List MergeRequest) (n : PistonId) :
    copiesOf (q.filter fun r => !r.isPrioOf n) = copiesOf q := by
  induction q with
  | nil => rfl
  | cons a q ih =>
    obtain ⟨_, e, _⟩ := a
    cases e with
    | copy c => simp only [List.filter_cons]; simp [MergeRequest.isPrioOf, copiesOf] at ih ⊢; exact ih
    | detached m =>
      by_cases h : m = n
      · simp [MergeRequest.isPrioOf, copiesOf, h] at ih ⊢; exact ih
      · simp [MergeRequest.isPrioOf, copiesOf, h] at ih ⊢; exact ih

theorem prioIdsOf_withdraw (q : List MergeRequest) (n : PistonId) :
    prioIdsOf (q.filter fun r => !r.isPrioOf n) = (prioIdsOf q).filter (· ≠ n) := by
  induction q with
  | nil => rfl
  | cons a q ih =>
    obtain ⟨_, e, _⟩ := a
    cases e with
    | copy c => simp [MergeRequest.isPrioOf, prioIdsOf] at ih ⊢; exact ih
    | detached m =>
      by_cases h : m = n
      · simp [MergeRequest.isPrioOf, prioIdsOf, h] at ih ⊢; exact ih
      · simp [MergeRequest.isPrioOf, prioIdsOf, h] at ih ⊢; exact ih

/-! ### Finding a piston by its id -/

theorem find_id {l : List Piston} {n : PistonId} {p : Piston} (h : (l.find? fun q => q.id == n) = some p) :
    p ∈ l ∧ p.id = n :=
  ⟨List.mem_of_find?_eq_some h, by simpa using List.find?_some h⟩

/-- Where ids are unique, the piston with an id is the one found under it. -/
theorem find_id_of_mem {l : List Piston} (hn : (l.map Piston.id).Nodup) {p : Piston} (hp : p ∈ l) :
    (l.find? fun q => q.id == p.id) = some p := by
  induction l with
  | nil => simp at hp
  | cons a l ih =>
    simp only [List.map_cons, List.nodup_cons] at hn
    rcases List.mem_cons.1 hp with rfl | hp
    · simp
    · have : (a.id == p.id) = false := by
        have hne : a.id ≠ p.id := fun e => hn.1 (e ▸ List.mem_map_of_mem hp)
        simpa using hne
      rw [List.find?_cons, this, ih hn.2 hp]

/-- Taking the piston with an id out of a list with unique ids. -/
theorem perm_take_id {l : List Piston} (hn : (l.map Piston.id).Nodup) {n : PistonId} {p : Piston}
    (h : (l.find? fun q => q.id == n) = some p) : l.Perm (p :: l.filter fun q => decide (q.id ≠ n)) := by
  induction l with
  | nil => cases h
  | cons a l ih =>
    simp only [List.map_cons, List.nodup_cons] at hn
    rw [List.find?_cons] at h
    by_cases ha : a.id = n
    · subst ha
      simp only [beq_self_eq_true] at h
      cases h
      have : (l.filter fun q => decide (q.id ≠ p.id)) = l := by
        rw [List.filter_eq_self]
        intro q hq
        have : q.id ≠ p.id := fun e => hn.1 (e ▸ List.mem_map_of_mem hq)
        simpa using this
      rw [List.filter_cons_of_neg (by simp), this]
    · have hb : (a.id == n) = false := by simpa using ha
      rw [hb] at h
      rw [List.filter_cons_of_pos (by simpa using ha)]
      exact ((ih hn.2 h).cons _).trans (.swap _ _ _)

/-! ### The pistons the engine holds -/

/-- What is located is held. -/
theorem State.locate_mem_held {s : State} {n : PistonId} {p : Piston} (h : s.locate n = some p) : p ∈ s.held := by
  unfold State.locate at h
  unfold State.held
  split at h
  · cases h
    exact List.mem_append_right _ (List.mem_append_left _ (List.mem_map_of_mem (Map.mem_of_get ‹_›)))
  · exact List.mem_append_left _ (find_id h).1

/-- What is located under an id has that id. -/
theorem State.Held.locate_id {s : State} (hs : s.Held) {n : PistonId} {p : Piston} (h : s.locate n = some p) :
    p.id = n := by
  unfold State.locate at h
  split at h
  · cases h
    exact hs.pool.2 _ (Map.mem_of_get ‹_›)
  · exact (find_id h).2

theorem State.Held.active_nodup {s : State} (hs : s.Held) : (s.active.map Piston.id).Nodup := by
  have := hs.unique
  unfold State.held at this
  rw [List.map_append] at this
  exact (List.nodup_append.1 this).1

/-- An active piston is located where it is. -/
theorem State.Held.locate_active {s : State} (hs : s.Held) {p : Piston} (hp : p ∈ s.active) :
    s.locate p.id = some p := by
  unfold State.locate
  have : Map.get s.detached p.id = none := by
    cases hg : Map.get s.detached p.id with
    | none => rfl
    | some q =>
      have hm := Map.mem_of_get hg
      have hu := hs.unique
      unfold State.held at hu
      rw [List.map_append, List.nodup_append] at hu
      refine absurd (hs.pool.2 _ hm) (hu.2.2 p.id (List.mem_map_of_mem hp) _ ?_ ∘ Eq.symm)
      rw [List.map_append]
      exact List.mem_append_left _ (List.mem_map_of_mem (List.mem_map_of_mem (f := Prod.snd) hm))
  rw [this]
  exact find_id_of_mem hs.active_nodup hp

/-- `Held` speaks of the parameters, the memory, the lists and the id generator, and of the lists of pistons only up to
order and up to a move of the generator. -/
theorem State.Held.of_perm {s t : State} (hs : s.Held) (hc : t.cfg = s.cfg) (hm : Memory.wf t.mem)
    {ps : List Piston} (hp : t.held.Perm ps) (hid : (ps.map Piston.id).Nodup)
    (hok : ∀ p ∈ ps, Piston.Ok s.cfg.maxInteger p ∧ p.id < t.nextId)
    (hpool : Map.Canon t.detached ∧ ∀ e ∈ t.detached, e.2.id = e.1)
    (hreq : (prioIdsOf t.mq).Nodup ∧ ∀ n, n ∈ prioIdsOf t.mq ↔ n ∈ t.detached.map Prod.fst) : t.Held where
  modulus := hc ▸ hs.modulus
  memory := hm
  bounds := fun p h => hc ▸ (hok p (hp.subset h)).1
  unique := (hp.map Piston.id).nodup_iff.2 hid
  given := fun p h => (hok p (hp.subset h)).2
  pool := hpool
  requests := hreq

theorem State.Held.ok {s : State} (hs : s.Held) : ∀ p ∈ s.held, Piston.Ok s.cfg.maxInteger p ∧ p.id < s.nextId :=
  fun p h => ⟨hs.bounds p h, hs.given p h⟩

/-- Where the lists and the generator stay, so does `Held`. -/
theorem State.Held.of_same {s t : State} (hs : s.Held) (hc : t.cfg = s.cfg) (hm : Memory.wf t.mem)
    (ha : t.active = s.active) (hd : t.detached = s.detached) (hq : t.mq = s.mq) (hn : t.nextId = s.nextId) :
    t.Held := by
  have hh : t.held = s.held := by unfold State.held; rw [ha, hd, hq]
  exact hs.of_perm hc hm (List.Perm.of_eq hh) hs.unique (hn ▸ hs.ok) (hd ▸ hs.pool) (by rw [hq, hd]; exact hs.requests)

/-- The pistons held after a change of the receiver. -/
theorem State.Held.updatePiston {s : State} (hs : s.Held) (n : PistonId) {f : Piston → Piston}
    (hf : ReceiverChange s.cfg.maxInteger f) : (s.updatePiston n f).Held := by
  have key : ∀ (g : Piston → Piston), (∀ p, g p = p ∨ g p = f p) → ∀ ps : List Piston, ∀ p ∈ ps.map g,
      ∃ q ∈ ps, p.id = q.id ∧ (Piston.Ok s.cfg.maxInteger q → Piston.Ok s.cfg.maxInteger p) := by
    intro g hg ps p hp
    obtain ⟨q, hq, rfl⟩ := List.mem_map.1 hp
    refine ⟨q, hq, ?_⟩
    rcases hg q with e | e <;> rw [e]
    · exact ⟨rfl, id⟩
    · exact ⟨hf.id_eq q, hf.ok hs.modulus⟩
  have hids : (s.updatePiston n f).held.map Piston.id = s.held.map Piston.id := by
    unfold State.held
    simp only [List.map_append, State.active_ids_updatePiston s n hf.id_eq, State.updatePiston_mq]
    congr 2
    unfold State.updatePiston
    split
    · simp only [List.map_map]
      refine List.map_congr_left fun e _ => ?_
      simp only [Function.comp]
      split
      · exact hf.id_eq _
      · rfl
    · rfl
  refine hs.of_perm (by simp) (by simpa using hs.memory) (.refl _) (hids ▸ hs.unique) ?_ ?_ ?_
  · intro p hp
    obtain ⟨q, hq, hi, ho⟩ : ∃ q ∈ s.held, p.id = q.id ∧
        (Piston.Ok s.cfg.maxInteger q → Piston.Ok s.cfg.maxInteger p) := by
      unfold State.held State.updatePiston at hp
      unfold State.held
      split at hp
      · simp only [List.mem_append, List.map_map] at hp ⊢
        rcases hp with hp | hp | hp
        · exact ⟨p, .inl hp, rfl, id⟩
        · obtain ⟨e, he, rfl⟩ := List.mem_map.1 hp
          refine ⟨e.2, .inr (.inl (List.mem_map_of_mem he)), ?_⟩
          simp only [Function.comp]
          split
          · exact ⟨hf.id_eq _, hf.ok hs.modulus⟩
          · exact ⟨rfl, id⟩
        · exact ⟨p, .inr (.inr hp), rfl, id⟩
      · simp only [List.mem_append] at hp ⊢
        rcases hp with hp | hp
        · obtain ⟨q, hq, h⟩ := key (fun p => if p.id = n then f p else p)
            (fun p => by by_cases h : p.id = n <;> simp [h]) _ _ hp
          exact ⟨q, .inl hq, h⟩
        · exact ⟨p, .inr hp, rfl, id⟩
    exact ⟨ho (hs.bounds q hq), by rw [hi, State.updatePiston_nextId]; exact hs.given q hq⟩
  · constructor
    · unfold Map.Canon; rw [State.detached_ids_updatePiston]; exact hs.pool.1
    · unfold State.updatePiston
      split
      · intro e he
        obtain ⟨e', he', rfl⟩ := List.mem_map.1 he
        split
        · exact (hf.id_eq _).trans (hs.pool.2 e' he')
        · exact hs.pool.2 e' he'
      · exact hs.pool.2
  · rw [State.updatePiston_mq, State.detached_ids_updatePiston]; exact hs.requests

/-- A fork holds one piston more, the copy. -/
theorem State.held_afterFork (s : State) (n : PistonId) (p : Piston) (d : ForkDir) :
    (s.afterFork n p d).held = s.held ++ [forkCopy s.cfg d s.nextId p] := by
  simp [State.afterFork, State.held, copiesOf_append, copiesOf]

theorem forkCopy_id (c : Config) (d : ForkDir) (n : PistonId) (p : Piston) : (forkCopy c d n p).id = n := by
  cases d <;> rfl

theorem forkCopy_ok {c : Config} (hm : 1 ≤ c.maxInteger) {p : Piston} (hp : Piston.Ok c.maxInteger p) (d : ForkDir)
    (n : PistonId) : Piston.Ok c.maxInteger (forkCopy c d n p) := by
  cases d <;> exact Piston.move_ok hm (p := { p with id := n, dir := _ }) hp 1

theorem State.Held.afterFork {s : State} (hs : s.Held) {n : PistonId} {p : Piston} (hp : s.locate n = some p)
    (d : ForkDir) : (s.afterFork n p d).Held := by
  refine hs.of_perm rfl hs.memory (List.Perm.of_eq (State.held_afterFork s n p d)) ?_ ?_ hs.pool ?_
  · rw [List.map_append, List.nodup_append]
    refine ⟨hs.unique, by simp, fun a ha b hb => ?_⟩
    obtain ⟨q, hq, rfl⟩ := List.mem_map.1 ha
    simp only [List.map_cons, List.map_nil, List.mem_singleton, forkCopy_id] at hb
    exact fun e => Nat.lt_irrefl _ (hb ▸ e ▸ hs.given q hq)
  · intro q hq
    have hn : (s.afterFork n p d).nextId = s.nextId + 1 := rfl
    rcases List.mem_append.1 hq with hq | hq
    · exact ⟨hs.bounds q hq, by rw [hn]; exact Nat.lt_succ_of_lt (hs.given q hq)⟩
    · obtain rfl := List.mem_singleton.1 hq
      exact ⟨forkCopy_ok hs.modulus (hs.bounds p (State.locate_mem_held hp)) d _, by rw [forkCopy_id, hn]; exact Nat.lt_succ_self _⟩
  · simpa [State.afterFork, prioIdsOf_append, prioIdsOf] using hs.requests

/-- The pistons held after a priority change: the receiver with its new priority, and the others. -/
theorem State.Held.held_afterPriority {s : State} (hs : s.Held) {n : PistonId} {p : Piston} (hp : s.locate n = some p)
    (v : Int) : ∃ rest, s.held.Perm (p :: rest) ∧ (s.afterPriority n p v).held.Perm ({ p with priority := v } :: rest) := by
  have move : ∀ {a b c : List Piston} {x : Piston}, (a ++ (x :: b ++ c)).Perm (x :: (a ++ (b ++ c))) :=
    fun {a b c x} => List.perm_middle (a := x) (l₁ := a) (l₂ := b ++ c)
  cases hd : Map.get s.detached n with
  | some q =>
    have hq : q = p := by simpa [State.locate, hd] using hp
    subst hq
    refine ⟨s.active ++ ((Map.erase s.detached n).map Prod.snd ++ copiesOf s.mq), ?_, ?_⟩
    · have := (Map.erase_perm hs.pool.1 hd).map Prod.snd
      exact ((this.append_right _).append_left _).trans move
    · have h1 := Map.erase_perm (Map.put_canon hs.pool.1 n { q with priority := v })
        (Map.get_put_self s.detached n { q with priority := v })
      have h2 : Map.erase (Map.put s.detached n { q with priority := v }) n = Map.erase s.detached n := by
        refine Map.ext_of_get (Map.erase_canon (Map.put_canon hs.pool.1 _ _) n) (Map.erase_canon hs.pool.1 n) fun j => ?_
        by_cases hj : j = n
        · subst hj; rw [Map.get_erase_self, Map.get_erase_self]
        · rw [Map.get_erase_other _ hj, Map.get_erase_other _ hj, Map.get_put_other _ _ hj]
      rw [h2] at h1
      have hh : (s.afterPriority n q v).held =
          s.active ++ ((Map.put s.detached n { q with priority := v }).map Prod.snd ++ copiesOf s.mq) := by
        simp [State.afterPriority, State.detach, hd, State.held, copiesOf_append, copiesOf_withdraw, copiesOf]
      rw [hh]
      exact (((h1.map Prod.snd).append_right _).append_left _).trans move
  | none =>
    have hf : (s.active.find? fun q => q.id == n) = some p := by simpa [State.locate, hd] using hp
    refine ⟨(s.active.filter fun q => decide (q.id ≠ n)) ++ (s.detached.map Prod.snd ++ copiesOf s.mq), ?_, ?_⟩
    · exact (perm_take_id hs.active_nodup hf).append_right _
    · have h1 := Map.put_perm hd p
      have hh : (s.afterPriority n p v).held = (s.active.filter fun q => decide (q.id ≠ n)) ++
          ((Map.put (Map.put s.detached n p) n { p with priority := v }).map Prod.snd ++ copiesOf s.mq) := by
        simp [State.afterPriority, State.detach, hd, State.held, copiesOf_append, copiesOf]
      have h2 : Map.put (Map.put s.detached n p) n { p with priority := v } =
          Map.put s.detached n { p with priority := v } := by
        refine Map.ext_of_get (Map.put_canon (Map.put_canon hs.pool.1 _ _) _ _) (Map.put_canon hs.pool.1 _ _) fun j => ?_
        simp only [Map.get_put]
        split <;> rfl
      rw [hh, h2]
      exact (((Map.put_perm hd { p with priority := v }).map Prod.snd).append_right _ |>.append_left _).trans move

theorem State.detached_ids_afterPriority (s : State) (n : PistonId) (p : Piston) (v : Int) (m : PistonId) :
    m ∈ (s.afterPriority n p v).detached.map Prod.fst ↔ m = n ∨ m ∈ s.detached.map Prod.fst := by
  simp only [State.afterPriority, State.detach]
  split
  · exact Map.keys_put_mem
  · simp only [Map.keys_put_mem]; tauto

theorem State.Held.afterPriority {s : State} (hs : s.Held) {n : PistonId} {p : Piston} (hp : s.locate n = some p)
    (v : Int) : (s.afterPriority n p v).Held := by
  obtain ⟨rest, h1, h2⟩ := hs.held_afterPriority hp v
  have hids : (p :: rest).map Piston.id = ({ p with priority := v } :: rest : List Piston).map Piston.id := rfl
  have hpid := hs.locate_id hp
  refine hs.of_perm (by simp [State.afterPriority]) (by simpa [State.afterPriority] using hs.memory) h2
    (hids ▸ (h1.map Piston.id).nodup_iff.1 hs.unique) ?_ ?_ ?_
  · intro q hq
    have hn : (s.afterPriority n p v).nextId = s.nextId := by simp [State.afterPriority]
    rw [hn]
    rcases List.mem_cons.1 hq with rfl | hq
    · exact hs.ok p (State.locate_mem_held hp)
    · exact hs.ok q (h1.symm.subset (List.mem_cons_of_mem _ hq))
  · have hput : ∀ {m : List (PistonId × Piston)} {q : Piston}, q.id = n →
        (Map.Canon m ∧ ∀ e ∈ m, e.2.id = e.1) →
        Map.Canon (Map.put m n q) ∧ ∀ e ∈ Map.put m n q, e.2.id = e.1 := by
      intro m q hq hm
      refine ⟨Map.put_canon hm.1 _ _, fun e he => ?_⟩
      rcases Map.mem_put he with rfl | he
      · exact hq
      · exact hm.2 e he
    simp only [State.afterPriority, State.detach]
    split
    · exact hput hpid hs.pool
    · exact hput hpid (hput hpid hs.pool)
  · have hmq : prioIdsOf (s.afterPriority n p v).mq = (prioIdsOf s.mq).filter (· ≠ n) ++ [n] := by
      simp only [State.afterPriority, State.detach]
      split
      · simp only [prioIdsOf_append, prioIdsOf_withdraw, prioIdsOf]
      · rename_i hd
        simp only [prioIdsOf_append, prioIdsOf]
        congr 1
        symm
        rw [List.filter_eq_self]
        intro m hm
        have : m ≠ n := fun e => Map.get_eq_none_iff.1 hd (e ▸ (hs.requests.2 m).1 hm)
        simpa using this
    rw [hmq]
    constructor
    · rw [List.nodup_append]
      refine ⟨hs.requests.1.filter _, by simp, ?_⟩
      intro a ha b hb
      rw [List.mem_singleton] at hb
      subst hb
      simpa using (List.mem_filter.1 ha).2
    · intro m
      rw [State.detached_ids_afterPriority, ← hs.requests.2 m]
      simp only [List.mem_append, List.mem_filter, List.mem_singleton, decide_eq_true_eq]
      tauto

/-- Every effect of a primitive keeps what holds at every moment. -/
theorem State.Held.effect {s t : State} (hs : s.Held) (h : Effect s t) : t.Held := by
  cases h with
  | none => exact hs
  | receiver n p f _ _ hf => exact hs.updatePiston n hf
  | memory a v => exact hs.of_same rfl (Memory.write_wf hs.memory a v) rfl rfl rfl rfl
  | input _ _ _ => exact hs.of_same rfl hs.memory rfl rfl rfl rfl
  | output _ _ => exact hs.of_same rfl hs.memory rfl rfl rfl rfl
  | fork n p d _ hp => exact hs.afterFork hp d
  | priority n p v _ hp => exact hs.afterPriority hp v

/-- A state that holds no piston keeps what holds at every moment. -/
theorem State.Held.emptyLists {s : State} (hs : s.Held) : s.emptyLists.Held := by
  refine hs.of_perm rfl hs.memory (ps := []) (.refl _) ?_ ?_ ?_ ?_ <;> simp [Map.Canon, prioIdsOf]

theorem State.Held.afterKill {s : State} (hs : s.Held) : s.afterKill.Held :=
  hs.emptyLists.of_same rfl hs.memory rfl rfl rfl rfl

/-- Every handler program keeps what holds at every moment. -/
theorem State.Held.program {s t : State} (hs : s.Held) {prog : HProg} (h : HProg.exec prog s = .finished t) : t.Held :=
  HProg.exec_induction (Q := State.Held) (fun _ _ he hq => hq.effect he) (fun _ hq => hq.afterKill) prog hs h

/-- Every instruction keeps what holds at every moment. -/
theorem State.Held.exec {s t : State} (hs : s.Held) {i : Instr} (h : exec i s = .next t) : t.Held := by
  rcases exec_next h with ⟨prog, h⟩ | ⟨n, p, k, _, _, rfl⟩
  · exact hs.program h
  · exact hs.of_same rfl hs.memory rfl rfl rfl rfl

/-! ### Draining -/

/-- The index of the first piston with an id. -/
theorem indexOfId_append {l r : List Piston} {p : Piston} (h : ∀ q ∈ l, q.id ≠ p.id) :
    indexOfId (l ++ p :: r) p.id = some l.length := by
  induction l with
  | nil => simp [indexOfId]
  | cons a l ih =>
    have ha : a.id ≠ p.id := h a (by simp)
    simp [indexOfId, ha, ih fun q hq => h q (by simp [hq])]

/-- An id no piston of the list has is not found. -/
theorem indexOfId_eq_none {l : List Piston} {n : PistonId} (h : ∀ q ∈ l, q.id ≠ n) : indexOfId l n = none := by
  induction l with
  | nil => rfl
  | cons a l ih =>
    have ha : a.id ≠ n := h a (by simp)
    simp [indexOfId, ha, ih fun q hq => h q (by simp [hq])]

theorem insertAt_perm (l : List Piston) (i : Nat) (p : Piston) : (insertAt l i p).Perm (p :: l) := by
  have h := List.perm_middle (a := p) (l₁ := l.take i) (l₂ := l.drop i)
  rwa [List.take_append_drop] at h

/-- Draining a queue whose `PRIO` requests are exactly the detached pistons empties the pool, and puts every detached
piston and every copy into the active list. -/
theorem drain_all (qs : List MergeRequest) (s : State) (hpool : Map.Canon s.detached)
    (hreq : (prioIdsOf qs).Nodup ∧ ∀ n, n ∈ prioIdsOf qs ↔ n ∈ s.detached.map Prod.fst) :
    (qs.foldl State.drainOne s).detached = [] ∧
      (qs.foldl State.drainOne s).active.Perm (s.active ++ (s.detached.map Prod.snd ++ copiesOf qs)) := by
  induction qs generalizing s with
  | nil =>
    have hd : s.detached = [] := by
      cases h : s.detached with
      | nil => rfl
      | cons e m =>
        have := (hreq.2 e.1).2 (by simp [h])
        simp [prioIdsOf] at this
    simp [hd, copiesOf]
  | cons q qs ih =>
    obtain ⟨a, e, sd⟩ := q
    cases e with
    | copy p =>
      have := ih (s.drainOne ⟨a, .copy p, sd⟩) hpool hreq
      refine ⟨this.1, this.2.trans ?_⟩
      have h1 : (s.drainOne ⟨a, .copy p, sd⟩).active.Perm (p :: s.active) := insertAt_perm _ _ _
      have h2 : (s.drainOne ⟨a, .copy p, sd⟩).detached = s.detached := rfl
      rw [h2]
      refine (h1.append_right _).trans ?_
      simp only [copiesOf, List.cons_append]
      rw [← List.append_assoc, ← List.append_assoc]
      exact List.perm_middle.symm
    | detached n =>
      simp only [prioIdsOf, List.nodup_cons] at hreq
      have hn : n ∈ s.detached.map Prod.fst := (hreq.2 n).1 (by simp)
      cases hg : Map.get s.detached n with
      | none => exact absurd hn (Map.get_eq_none_iff.1 hg)
      | some p =>
        have hone : s.drainOne ⟨a, .detached n, sd⟩ =
            State.insertEntrant { s with detached := Map.erase s.detached n } ⟨a, .detached n, sd⟩ p := by
          simp only [State.drainOne, hg]
        have := ih (s.drainOne ⟨a, .detached n, sd⟩) (by rw [hone]; exact Map.erase_canon hpool n)
          (by
            rw [hone]
            refine ⟨hreq.1.2, fun m => ?_⟩
            change _ ↔ m ∈ (Map.erase s.detached n).map Prod.fst
            rw [Map.keys_erase_mem, ← hreq.2 m]
            simp only [List.mem_cons]
            constructor
            · intro h
              exact ⟨fun e => hreq.1.1 (e ▸ h), .inr h⟩
            · rintro ⟨h1, h2 | h2⟩
              · exact absurd h2 h1
              · exact h2)
        refine ⟨this.1, this.2.trans ?_⟩
        have h1 : (s.drainOne ⟨a, .detached n, sd⟩).active.Perm (p :: s.active) := by
          rw [hone]; exact insertAt_perm _ _ _
        have h2 : (s.drainOne ⟨a, .detached n, sd⟩).detached = Map.erase s.detached n := by rw [hone]; rfl
        rw [h2]
        refine (h1.append_right _).trans ?_
        have h3 := (Map.erase_perm hpool hg).map Prod.snd
        simp only [copiesOf, List.cons_append]
        refine List.Perm.trans ?_ ((h3.append_right _).append_left _).symm
        simp only [List.map_cons, List.cons_append]
        exact List.perm_middle.symm

/-- What a fold of `drainOne` writes. -/
theorem drain_fold_frame (qs : List MergeRequest) (s : State) :
    qs.foldl State.drainOne s =
      { s with
        active := (qs.foldl State.drainOne s).active
        detached := (qs.foldl State.drainOne s).detached } := by
  induction qs generalizing s with
  | nil => rfl
  | cons q qs ih =>
    have h1 : s.drainOne q = { s with active := (s.drainOne q).active, detached := (s.drainOne q).detached } := by
      unfold State.drainOne
      split
      · rfl
      · split <;> rfl
    rw [List.foldl_cons, ih]
    rw [h1]

/-- Draining writes the active list and the pool, and nothing else. -/
theorem State.drain_frame (s : State) :
    s.drain = { s with active := s.drain.active, detached := s.drain.detached } := drain_fold_frame s.mq s

end Sys2Proof.Machine
end

