-- ==== Sys2Proof/Laws/Cycle.lean ====
section
/-!
SUPPORT. What a piston step, a pass and a cycle can do, said once each, and what they leave alone.
-/
namespace Sys2Proof.Machine

/-- A piston step that goes on had its piston in the active list, and either executed the word of its place or aborted for
want of one. -/
theorem State.stepPiston_cases {s t : State} {n : PistonId} (h : s.stepPiston n = .next t) :
    ∃ p, (s.active.find? fun q => q.id == n) = some p ∧
      ((s.fetch p = none ∧
          t = { { s with receiver := some n }.enterAbort (.fetchOutOfGrid p.x p.y) p none with receiver := none }) ∨
        ∃ w u, s.fetch p = some w ∧ exec (decode s.cfg w) { s with receiver := some n } = .next u ∧
          t = { u with receiver := none }) := by
  unfold State.stepPiston at h
  split at h
  · cases h
  · rename_i p hp
    refine ⟨p, hp, ?_⟩
    dsimp only at h
    split at h
    · cases h
      exact .inl ⟨‹_›, rfl⟩
    · rename_i w hw
      split at h <;> cases h
      exact .inr ⟨w, _, hw, ‹_›, rfl⟩

/-- A step of the machine that goes on: nothing in ENDED and ABORTED, else one cycle. -/
theorem stepCycle_cases {s t : State} (h : stepCycle s = .next t) :
    s.cfg.registry.initError = none ∧
      (((s.phase = .ended ∨ s.phase = .aborted) ∧ t = s) ∨ ((s.phase = .ready ∨ s.phase = .running) ∧ s.runCycle = .next t)) := by
  unfold stepCycle at h
  split at h
  · cases h
  · rename_i hi
    refine ⟨hi, ?_⟩
    split at h <;> rename_i hp
    · cases h; exact .inl ⟨.inl hp, rfl⟩
    · cases h; exact .inl ⟨.inr hp, rfl⟩
    · exact .inr ⟨.inl hp, h⟩
    · exact .inr ⟨.inr hp, h⟩

/-- A cycle that goes on is a pass and what follows it. -/
theorem State.runCycle_cases {s t : State} (h : s.runCycle = .next t) :
    ∃ u, runPass (s.active.map Piston.id) s.beginPass = .next u ∧ t = u.afterPass := by
  unfold State.runCycle at h
  split at h <;> cases h
  exact ⟨_, ‹_›, rfl⟩

/-- The induction over a pass: what every piston step keeps, the pass keeps. -/
theorem runPass_induction {Q : State → Prop} (hstep : ∀ s t n, s.stepPiston n = .next t → Q s → Q t)
    {ns : List PistonId} {s t : State} (hs : Q s) (h : runPass ns s = .next t) : Q t := by
  induction ns generalizing s with
  | nil => cases h; exact hs
  | cons n ns ih =>
    unfold runPass at h
    split at h
    · cases h; exact hs
    · split at h
      · rename_i u hu
        split at h
        · cases h; exact hstep _ _ _ hu hs
        · exact ih (hstep _ _ _ hu hs) h
      · cases h
      · cases h

/-! ### What an instruction, a piston step and a pass leave alone -/

/-- The fields no instruction writes. -/
theorem exec_frame {i : Instr} {s t : State} (h : exec i s = .next t) :
    t.cfg = s.cfg ∧ t.cycle = s.cycle ∧ t.initialInput = s.initialInput ∧ t.runs = s.runs ∧ t.snapshot = s.snapshot ∧
      t.receiver = s.receiver := by
  rcases exec_next h with ⟨prog, h⟩ | ⟨n, p, k, _, _, rfl⟩
  · have h := HProg.exec_frame _ h
    exact ⟨h.1, h.2.2.1, h.2.2.2.1, h.2.2.2.2.1, h.2.2.2.2.2.2.1, h.2.2.2.2.2.2.2⟩
  · simp

/-- The fields no piston step writes. -/
theorem State.stepPiston_frame {s t : State} {n : PistonId} (h : s.stepPiston n = .next t) :
    t.cfg = s.cfg ∧ t.cycle = s.cycle ∧ t.initialInput = s.initialInput ∧ t.runs = s.runs ∧
      t.snapshot = s.snapshot ∧ t.receiver = none := by
  obtain ⟨p, _, ⟨_, rfl⟩ | ⟨w, u, _, hu, rfl⟩⟩ := State.stepPiston_cases h
  · exact ⟨rfl, rfl, rfl, rfl, rfl, rfl⟩
  · have h := exec_frame hu
    exact ⟨h.1, h.2.1, h.2.2.1, h.2.2.2.1, h.2.2.2.2.1, rfl⟩

/-- Every piston step keeps what holds at every moment. -/
theorem State.Held.stepPiston {s t : State} (hs : s.Held) {n : PistonId} (h : s.stepPiston n = .next t) : t.Held := by
  have hr : State.Held { s with receiver := some n } := hs.of_same rfl hs.memory rfl rfl rfl rfl
  obtain ⟨p, _, ⟨_, rfl⟩ | ⟨w, u, _, hu, rfl⟩⟩ := State.stepPiston_cases h
  · exact hs.of_same rfl hs.memory rfl rfl rfl rfl
  · have hu := hr.exec hu
    exact hu.of_same rfl hu.memory rfl rfl rfl rfl

/-- The fields no pass writes. -/
theorem runPass_frame {ns : List PistonId} {s t : State} (h : runPass ns s = .next t) :
    t.cfg = s.cfg ∧ t.cycle = s.cycle ∧ t.initialInput = s.initialInput ∧ t.runs = s.runs :=
  runPass_induction (Q := fun t => t.cfg = s.cfg ∧ t.cycle = s.cycle ∧ t.initialInput = s.initialInput ∧ t.runs = s.runs)
    (fun a b n h hq => by
      have hf := State.stepPiston_frame h
      rw [hf.1, hf.2.1, hf.2.2.1, hf.2.2.2.1]; exact hq)
    ⟨rfl, rfl, rfl, rfl⟩ h

/-! ### Runs -/

theorem run_zero (s : State) : Host.Core.run Sys2Proof.core 0 s = .next s := rfl

theorem run_next (k : Nat) {s t : State} (h : step s = .next t) :
    Host.Core.run Sys2Proof.core (k + 1) s = Host.Core.run Sys2Proof.core k t := by
  have e := Host.Core.run.eq_2 Sys2Proof.core s k
  rw [show Sys2Proof.core.step s = .next t from h] at e
  exact e

/-! ### The end of a cycle -/

@[simp] theorem State.finishCycle_active (s : State) :
    s.finishCycle.active = s.drain.active.filter fun p => !p.ended := rfl

@[simp] theorem State.finishCycle_mq (s : State) : s.finishCycle.mq = [] := rfl

@[simp] theorem State.finishCycle_detached (s : State) : s.finishCycle.detached = s.drain.detached := rfl

@[simp] theorem State.finishCycle_phase (s : State) :
    s.finishCycle.phase = phaseAfterCycle (s.drain.active.filter fun p => !p.ended) := rfl

/-- The end of a cycle writes the lists, the counter, the phase and the transient values, and nothing else. -/
theorem State.finishCycle_frame (s : State) :
    s.finishCycle =
      { s with
        active := s.drain.active.filter fun p => !p.ended
        mq := []
        detached := s.drain.detached
        cycle := s.cycle + 1
        phase := phaseAfterCycle (s.drain.active.filter fun p => !p.ended)
        snapshot := []
        killed := false
        receiver := none } := by
  unfold State.finishCycle
  rw [State.drain_frame s]
  rfl

end Sys2Proof.Machine
end

