-- ==== Sys2Proof/Laws/Decode.lean ====
section
/-!
SUPPORT. The laws of the word layouts, in numbers: a field is a quotient and remainder of the word (00_scope.md R11), and
an encoded word is the sum of its fields at their weights (95_test_vectors.md section 2.1).
-/
namespace Sys2Proof

theorem toNat_append_eq {m n : Nat} (x : BitVec m) (y : BitVec n) : (x ++ y).toNat = x.toNat * 2 ^ n + y.toNat := by
  rw [BitVec.toNat_append, ← Nat.shiftLeft_add_eq_or_of_lt y.isLt, Nat.shiftLeft_eq]

/-! ### Fields of a word -/

theorem ccOf_toNat (w : Word24) : (ccOf w).toNat = w.toNat / 2 ^ 20 := by
  have := w.isLt
  simp only [ccOf, BitVec.extractLsb'_toNat, Nat.shiftRight_eq_div_pow]
  omega

theorem tailOf_toNat (w : Word24) : (tailOf w).toNat = w.toNat % 2 ^ 20 := by
  simp [tailOf, BitVec.extractLsb'_toNat]

theorem mcOf_toNat (w : Word24) : (mcOf w).toNat = w.toNat / 2 ^ 17 % 2 ^ 3 := by
  simp [mcOf, BitVec.extractLsb'_toNat, Nat.shiftRight_eq_div_pow]

theorem regOf_toNat (w : Word24) : (regOf w).toNat = w.toNat / 2 ^ 14 % 2 ^ 3 := by
  simp [regOf, BitVec.extractLsb'_toNat, Nat.shiftRight_eq_div_pow]

theorem optsOf_toNat (w : Word24) : (optsOf w).toNat = w.toNat / 2 ^ 12 % 2 ^ 2 := by
  simp [optsOf, BitVec.extractLsb'_toNat, Nat.shiftRight_eq_div_pow]

theorem argAOf_toNat (w : Word24) : (argAOf w).toNat = w.toNat % 2 ^ 12 := by
  simp [argAOf, BitVec.extractLsb'_toNat]

theorem argBOf_toNat (w : Word24) : (argBOf w).toNat = w.toNat % 2 ^ 17 := by
  simp [argBOf, BitVec.extractLsb'_toNat]

theorem belowRegOf_toNat (w : Word24) : (belowRegOf w).toNat = w.toNat % 2 ^ 14 := by
  simp [belowRegOf, BitVec.extractLsb'_toNat]

/-! ### The word of an instruction -/

theorem encode_metaD5_toNat (reg : BitVec 3) (opts : BitVec 2) (arg : BitVec 12) :
    (encode (.metaD5 reg opts arg)).toNat =
      13 * 2 ^ 20 + 5 * 2 ^ 17 + reg.toNat * 2 ^ 14 + opts.toNat * 2 ^ 12 + arg.toNat := by
  change ((0xD : BitVec 4) ++ (5 : BitVec 3) ++ reg ++ opts ++ arg).toNat = _
  simp only [toNat_append_eq]
  simp
  omega

theorem encode_plainDispatch_toNat (cc : BitVec 4) (tail : BitVec 20) :
    (encode (.plainDispatch cc tail)).toNat = cc.toNat * 2 ^ 20 + tail.toNat :=
  toNat_append_eq cc tail

theorem encode_metaADispatch_toNat (cc : BitVec 4) (mc reg : BitVec 3) (opts : BitVec 2) (arg : BitVec 12) :
    (encode (.metaADispatch cc mc reg opts arg)).toNat =
      cc.toNat * 2 ^ 20 + mc.toNat * 2 ^ 17 + reg.toNat * 2 ^ 14 + opts.toNat * 2 ^ 12 + arg.toNat := by
  change (cc ++ mc ++ reg ++ opts ++ arg).toNat = _
  simp only [toNat_append_eq]
  omega

theorem encode_metaBDispatch_toNat (cc : BitVec 4) (mc : BitVec 3) (arg : BitVec 17) :
    (encode (.metaBDispatch cc mc arg)).toNat = cc.toNat * 2 ^ 20 + mc.toNat * 2 ^ 17 + arg.toNat := by
  change (cc ++ mc ++ arg).toNat = _
  simp only [toNat_append_eq]
  omega

theorem encode_decodeErrorCc_toNat (cc : BitVec 4) (rest : BitVec 20) :
    (encode (.decodeErrorCc cc rest)).toNat = cc.toNat * 2 ^ 20 + rest.toNat :=
  toNat_append_eq cc rest

theorem encode_decodeErrorMc_toNat (cc : BitVec 4) (mc : BitVec 3) (rest : BitVec 17) :
    (encode (.decodeErrorMc cc mc rest)).toNat = cc.toNat * 2 ^ 20 + mc.toNat * 2 ^ 17 + rest.toNat := by
  change (cc ++ mc ++ rest).toNat = _
  simp only [toNat_append_eq]
  omega

theorem encode_invalidRegisterSelector_toNat (cc : BitVec 4) (mc reg : BitVec 3) (rest : BitVec 14) :
    (encode (.invalidRegisterSelector cc mc reg rest)).toNat =
      cc.toNat * 2 ^ 20 + mc.toNat * 2 ^ 17 + reg.toNat * 2 ^ 14 + rest.toNat := by
  change (cc ++ mc ++ reg ++ rest).toNat = _
  simp only [toNat_append_eq]
  omega

end Sys2Proof
end

