-- ==== Sys2Proof/Laws/PerInstr.lean ====
section
/-!
SUPPORT. Statements per instruction. Family `ControlCode`: the top four bits of an instruction's word are its control code
(30_encoding.md R111).
-/
namespace Sys2Proof.Laws

/-- The control code read from the encoded word is the instruction's. -/
def ControlCode.Statement (i : Instr) : Prop := ccOf (encode i) = i.cc

theorem ControlCode.metaD5 (reg : BitVec 3) (opts : BitVec 2) (arg : BitVec 12) :
    ControlCode.Statement (.metaD5 reg opts arg) := by
  apply BitVec.eq_of_toNat_eq
  have h1 := reg.isLt; have h2 := opts.isLt; have h3 := arg.isLt
  rw [ccOf_toNat, encode_metaD5_toNat]
  change _ = 13
  omega

theorem ControlCode.plainDispatch (cc : BitVec 4) (tail : BitVec 20) :
    ControlCode.Statement (.plainDispatch cc tail) := by
  apply BitVec.eq_of_toNat_eq
  have h1 := tail.isLt
  rw [ccOf_toNat, encode_plainDispatch_toNat]
  simp only [Instr.cc]
  omega

theorem ControlCode.metaADispatch (cc : BitVec 4) (mc reg : BitVec 3) (opts : BitVec 2) (arg : BitVec 12) :
    ControlCode.Statement (.metaADispatch cc mc reg opts arg) := by
  apply BitVec.eq_of_toNat_eq
  have h0 := mc.isLt; have h1 := reg.isLt; have h2 := opts.isLt; have h3 := arg.isLt
  rw [ccOf_toNat, encode_metaADispatch_toNat]
  simp only [Instr.cc]
  omega

theorem ControlCode.metaBDispatch (cc : BitVec 4) (mc : BitVec 3) (arg : BitVec 17) :
    ControlCode.Statement (.metaBDispatch cc mc arg) := by
  apply BitVec.eq_of_toNat_eq
  have h0 := mc.isLt; have h3 := arg.isLt
  rw [ccOf_toNat, encode_metaBDispatch_toNat]
  simp only [Instr.cc]
  omega

theorem ControlCode.decodeErrorCc (cc : BitVec 4) (rest : BitVec 20) :
    ControlCode.Statement (.decodeErrorCc cc rest) := by
  apply BitVec.eq_of_toNat_eq
  have h1 := rest.isLt
  rw [ccOf_toNat, encode_decodeErrorCc_toNat]
  simp only [Instr.cc]
  omega

theorem ControlCode.decodeErrorMc (cc : BitVec 4) (mc : BitVec 3) (rest : BitVec 17) :
    ControlCode.Statement (.decodeErrorMc cc mc rest) := by
  apply BitVec.eq_of_toNat_eq
  have h0 := mc.isLt; have h3 := rest.isLt
  rw [ccOf_toNat, encode_decodeErrorMc_toNat]
  simp only [Instr.cc]
  omega

theorem ControlCode.invalidRegisterSelector (cc : BitVec 4) (mc reg : BitVec 3) (rest : BitVec 14) :
    ControlCode.Statement (.invalidRegisterSelector cc mc reg rest) := by
  apply BitVec.eq_of_toNat_eq
  have h0 := mc.isLt; have h1 := reg.isLt; have h3 := rest.isLt
  rw [ccOf_toNat, encode_invalidRegisterSelector_toNat]
  simp only [Instr.cc]
  omega

end Sys2Proof.Laws
end

