-- ==== Sys2Proof/Laws/Registry.lean ====
section
/-!
SUPPORT. The five initialisation checks of 40_decode_dispatch.md R157, each as the condition under which it passes.
-/
namespace Sys2Proof

theorem RegKey.firstRepeated_none (ks : List RegKey) : RegKey.firstRepeated ks = none ↔ ks.Nodup := by
  induction ks with
  | nil => simp [RegKey.firstRepeated]
  | cons k ks ih =>
    simp only [RegKey.firstRepeated, List.nodup_cons]
    split <;> simp_all

theorem Registry.rangeError_none (r : Registry) :
    r.rangeError = none ↔ ∀ h ∈ r.handlers, 0 ≤ h.cc ∧ h.cc ≤ 15 ∧ -1 ≤ h.mc ∧ h.mc ≤ 7 := by
  unfold Registry.rangeError
  split
  · rename_i h e
    have := List.find?_some e
    have hm := List.mem_of_find?_eq_some e
    simp at this ⊢
    exact ⟨h, hm, by omega⟩
  · rename_i e
    rw [List.find?_eq_none] at e
    simp at e ⊢
    intro h hh; have := e h hh; omega

theorem Registry.duplicateError_none (r : Registry) :
    r.duplicateError = none ↔ (r.handlers.map Handler.key).Nodup := by
  unfold Registry.duplicateError
  rw [← RegKey.firstRepeated_none]
  split <;> simp_all

theorem Registry.mixedError_none (r : Registry) :
    r.mixedError = none ↔
      ¬ ∃ g ∈ r.handlers, ∃ h ∈ r.handlers, g.cc = h.cc ∧ g.mc = -1 ∧ 0 ≤ h.mc := by
  unfold Registry.mixedError
  split
  · rename_i h e
    have := List.find?_some e
    have hm := List.mem_of_find?_eq_some e
    simp at this ⊢
    obtain ⟨a, g, hg, h1, h2⟩ := this
    exact ⟨g, hg, h, hm, h1, h2, a⟩
  · rename_i e
    rw [List.find?_eq_none] at e
    simp at e ⊢
    intro g hg h hh h1 h2
    by_contra h3
    exact e h hh (by omega) g hg h1 h2

theorem Registry.familyError_none (r : Registry)
    (h1 : ∀ h ∈ r.handlers, 0 ≤ h.cc ∧ h.cc ≤ 15 ∧ -1 ≤ h.mc ∧ h.mc ≤ 7) :
    r.familyError = none ↔ ∀ h ∈ r.handlers,
      (h.mc = -1 → r.family h.cc.toNat = none) ∧ (0 ≤ h.mc → r.family h.cc.toNat ≠ none) := by
  unfold Registry.familyError
  split
  · rename_i h e
    have := List.find?_some e
    have hm := List.mem_of_find?_eq_some e
    simp only [reduceCtorEq, false_iff]
    intro hc
    have := hc h hm
    have hr := h1 h hm
    by_cases hmc : h.mc = -1
    · simp_all
    · have h0 : 0 ≤ h.mc := by omega
      simp_all
  · rename_i e
    rw [List.find?_eq_none] at e
    simp only [true_iff]
    intro h hh
    have := e h hh
    have := h1 h hh
    by_cases hm : h.mc = -1
    · simp_all [Option.isSome_iff_ne_none]
    · simp_all [Option.isSome_iff_ne_none]

theorem Registry.d5Error_none (r : Registry) :
    r.d5Error = none ↔
      (∃ h ∈ r.handlers, h.cc = 13 ∧ h.mc = 5 ∧ h.run = .metaD5) ∧ r.family 13 = some .a := by
  unfold Registry.d5Error
  split
  · rename_i h
    simp at h
    split <;> simp_all [and_assoc]
  · rename_i h
    simp at h ⊢
    intro a b c d e; exact absurd e (h a b c d)

end Sys2Proof
end

