-- ==== Sys2Proof/Laws/Text.lean ====
section
/-!
SUPPORT. Numbers as text (43_memory_io.md R302, R305, R307): the value of a digit run, the run at the front of a text, and
hexadecimal digits.
-/
namespace Sys2Proof.Machine

theorem foldl_digits (ds : Text) (n : Nat) :
    ds.foldl (fun n c => n * 10 + (c - 48)) n =
      n * 10 ^ ds.length + Nat.ofDigits 10 ((ds.map fun c => c - 48).reverse) := by
  induction ds generalizing n with
  | nil => simp
  | cons a ds ih =>
    rw [List.foldl_cons, ih]
    simp only [List.map_cons, List.reverse_cons, Nat.ofDigits_append, List.length_reverse, List.length_map,
      List.length_cons, Nat.ofDigits_singleton]
    ring

/-- The value of a digit run, least significant digit first. -/
theorem digitsValue_eq (ds : Text) :
    digitsValue ds = Nat.ofDigits 10 ((ds.map fun c => c - 48).reverse) := by
  unfold digitsValue; rw [foldl_digits]; simp

theorem isDigit_iff (c : Nat) : isDigit c = true ↔ 48 ≤ c ∧ c ≤ 57 := by simp [isDigit]

/-- A run of digits that no digit follows is the longest leading run. -/
theorem takeWhile_run {digits rest : Text} (h : ∀ c ∈ digits, 48 ≤ c ∧ c ≤ 57)
    (h' : ∀ c cs, rest = c :: cs → ¬ (48 ≤ c ∧ c ≤ 57)) :
    (digits ++ rest).takeWhile isDigit = digits ∧ (digits ++ rest).dropWhile isDigit = rest := by
  induction digits with
  | nil =>
    cases rest with
    | nil => simp
    | cons c cs =>
      have : isDigit c = false := by have := h' c cs rfl; rw [← isDigit_iff] at this; simpa using this
      simp [this]
  | cons a ds ih =>
    have := ih (fun c hc => h c (List.mem_cons_of_mem _ hc))
    have ha := (isDigit_iff a).2 (h a (by simp))
    simp [ha, this]

/-- The value of a run of hexadecimal digits after `n`. -/
theorem hexDigits_ok (ds : Text) (vs : List Nat) (h : ds.map hexDigit = vs.map some) :
    ∀ n, hexDigits ds n = some (n * 16 ^ vs.length + Nat.ofDigits 16 vs.reverse) := by
  induction ds generalizing vs with
  | nil => intro n; cases vs with
    | nil => simp [hexDigits]
    | cons => cases h
  | cons d ds ih =>
    cases vs with
    | nil => cases h
    | cons v vs =>
      simp only [List.map_cons, List.cons.injEq] at h
      intro n
      simp only [hexDigits, h.1, ih vs h.2]
      simp only [List.reverse_cons, Nat.ofDigits_append, List.length_reverse, List.length_cons,
        Nat.ofDigits_singleton]
      congr 1; ring

theorem hexDigits_bad (ds : Text) (h : ∃ d ∈ ds, hexDigit d = none) :
    ∀ n, hexDigits ds n = none := by
  induction ds with
  | nil => simp at h
  | cons d ds ih =>
    intro n
    simp only [hexDigits]
    cases hd : hexDigit d with
    | none => rfl
    | some v =>
      obtain ⟨e, he, h⟩ := h
      rcases List.mem_cons.1 he with rfl | he
      · rw [h] at hd; cases hd
      · exact ih ⟨e, he, h⟩ _

end Sys2Proof.Machine
end

