-- ==== Sys2Proof/Tests/Slice0.lean ====
section
/-!
SUPPORT. The model's own tests: the well-formedness smoke tests, words decoded by hand, one or two steps per instruction
with the results of spec/95_test_vectors.md, and for each obligation with hypotheses a state that meets them.
-/
namespace Sys2Proof.Tests

open Sys2Proof Sys2Proof.Machine

/-! ### Small states -/

/-- The test configuration (95_test_vectors.md section 0) with the given image. -/
def cfg (g : Grid) : Config := { Config.boot with grid := g }

/-- A fresh piston. -/
def pst (id x y : Nat) (d : Dir) : Piston :=
  { id := id, x := x, y := y, dir := d, reg := [], priority := 0, ended := false }

/-- A running engine with these active pistons. -/
def eng (g : Grid) (ps : List Piston) : State :=
  { State.reset with cfg := cfg g, phase := .running, active := ps, nextId := 8 }

/-- The engine inside a step of piston `n`. -/
def inStep (n : PistonId) (s : State) : State := { s with receiver := some n }

/-- A field of the next state. -/
def nextOf {α : Type} (f : State → α) : Host.Outcome State Fault Refusal → Option α
  | .next t => some (f t)
  | .fault _ => none
  | .refused _ => none

/-- A field of the state after a primitive. -/
def after {β α : Type} (f : State → α) : PrimOut β → Option α
  | .done _ t => some (f t)
  | .stop t => some (f t)
  | .raise _ => none
  | .lost => none

/-- The result of a primitive. -/
def result {β : Type} : PrimOut β → Option β
  | .done v _ => some v
  | .stop _ => none
  | .raise _ => none
  | .lost => none

/-- The error a primitive raises. -/
def raised {β : Type} : PrimOut β → Option ErrorKind
  | .done _ _ => none
  | .stop _ => none
  | .raise k => some k
  | .lost => none

/-- One piston at (3, 7) facing right, in its step. -/
def one : State := inStep 0 (eng [] [pst 0 3 7 .right])

/-! ### Well-formedness: what each check refuses -/

theorem test_wf_metaD5_selector : Instr.wf Config.boot (.metaD5 4 0 0) = false := by decide
theorem test_wf_metaD5_family :
    Instr.wf { Config.boot with registry := { Config.boot.registry with familyLayout := [] } } (.metaD5 1 0 0) = false := by
  decide
theorem test_wf_metaD5_handler :
    Instr.wf { Config.boot with registry := { Config.boot.registry with handlers := [] } } (.metaD5 1 0 0) = false := by
  decide
theorem test_wf_plain : Instr.wf Config.boot (.plainDispatch 0xA 0) = false := by decide
theorem test_wf_metaA_layout : Instr.wf Config.boot (.metaADispatch 6 0 1 0 0) = false := by decide
theorem test_wf_metaA_handler : Instr.wf Config.boot (.metaADispatch 0xD 3 1 0 0) = false := by decide
theorem test_wf_metaA_selector : Instr.wf Config.boot (.metaADispatch 0xD 1 7 0 0) = false := by decide
theorem test_wf_metaA_own_row : Instr.wf Config.boot (.metaADispatch 0xD 5 1 0 0) = false := by decide
theorem test_wf_metaB_layout : Instr.wf Config.boot (.metaBDispatch 0xD 1 0) = false := by decide
theorem test_wf_metaB_handler : Instr.wf Config.boot (.metaBDispatch 6 3 0) = false := by decide
theorem test_wf_errorCc : Instr.wf Config.boot (.decodeErrorCc 0 0) = false := by decide
theorem test_wf_errorMc_layout : Instr.wf Config.boot (.decodeErrorMc 0xA 1 0) = false := by decide
theorem test_wf_errorMc_handler : Instr.wf Config.boot (.decodeErrorMc 6 2 0) = false := by decide
theorem test_wf_invalidSelector_layout : Instr.wf Config.boot (.invalidRegisterSelector 6 0 7 0) = false := by decide
theorem test_wf_invalidSelector_handler : Instr.wf Config.boot (.invalidRegisterSelector 0xD 3 7 0) = false := by decide
theorem test_wf_invalidSelector_named : Instr.wf Config.boot (.invalidRegisterSelector 0xD 5 3 0) = false := by decide

theorem test_wf_expr_field : Expr.wf .plain 0 (.field .arg) = false ∧ Expr.wf .metaB 0 (.field .reg) = false ∧
    Expr.wf .metaA 0 (.field .tail) = false := by decide
theorem test_wf_expr_result : Expr.wf .plain 1 (.result 1) = false := by decide
theorem test_wf_expr_inner :
    [Expr.add (.lit 1) (.result 0), .sub (.result 0) (.lit 1), .mul (.lit 1) (.result 0), .div (.result 0) (.lit 1),
      .mod (.lit 1) (.result 0)].map (Expr.wf .plain 0) = [false, false, false, false, false] := by decide
theorem test_wf_register_name : RegRef.wf Config.boot .metaA (.named 4) = false := by decide
theorem test_wf_register_selected : RegRef.wf Config.boot .metaB .selected = false := by decide
theorem test_wf_primitive :
    [PrimCode.move (.result 0), .getReg .selected, .setReg .selected (.lit 0) (.lit 0),
      .setReg (.named 0) (.result 0) (.lit 0), .setReg (.named 0) (.lit 0) (.result 0), .setPriority (.result 0),
      .memRead (.result 0), .memWrite (.result 0) (.lit 0), .memWrite (.lit 0) (.result 0), .outNum (.result 0),
      .outToken [.lit 0, .result 0]].map (PrimCode.wf Config.boot .plain 0) = List.replicate 11 false := by decide
theorem test_wf_code_later : Code.wf Config.boot .plain 0 (.op .getPos (.op (.outNum (.result 2)) .done)) = false := by
  decide
theorem test_wf_code_branch :
    Code.wf Config.boot .plain 0 (.branch .eq (.result 0) (.lit 0) .done .done) = false ∧
    Code.wf Config.boot .plain 0 (.branch .lt (.lit 0) (.result 0) .done .done) = false ∧
    Code.wf Config.boot .plain 0 (.branch .le (.lit 0) (.lit 0) (.op (.outNum (.result 0)) .done) .done) = false ∧
    Code.wf Config.boot .plain 0 (.branch .le (.lit 0) (.lit 0) .done (.op (.outNum (.result 0)) .done)) = false := by
  decide

theorem test_wf_config_boot : Config.wf Config.boot = true := by decide
theorem test_wf_config_modulus : Config.wf { Config.boot with maxInteger := 0 } = false := by decide
theorem test_wf_config_regs : Config.wf { Config.boot with regs := [], regsel := List.replicate 8 none } = false := by
  decide
theorem test_wf_config_regs_repeat : Config.wf { Config.boot with regs := [0, 1, 2, 3, 1] } = false := by decide
theorem test_wf_config_regsel_length : Config.wf { Config.boot with regsel := [some 0] } = false := by decide
theorem test_wf_config_regsel_name : Config.wf { Config.boot with regsel := List.replicate 8 (some 9) } = false := by
  decide
theorem test_wf_config_layouts :
    Config.wf { Config.boot with registry :=
      { Config.boot.registry with familyLayout := Config.boot.registry.familyLayout.take 15 } } = false := by decide
theorem test_wf_config_grid : Config.wf { Config.boot with grid := [(1, [(0, 0)]), (0, [(0, 0)])] } = false ∧
    Config.wf { Config.boot with grid := [(1, [])] } = false ∧
    Config.wf { Config.boot with grid := [(1, [(3, 0), (3, 0)])] } = false := by decide
theorem test_wf_config_handler :
    Config.wf { Config.boot with registry := { Config.boot.registry with
      handlers := Config.bootHandler 8 (-1) "" (.op (.move (.field .arg)) .done) :: Config.boot.registry.handlers } } =
      false := by decide
theorem test_wf_config_registry :
    Config.wf { Config.boot with registry := { Config.boot.registry with handlers := Config.bootPlain } } = false := by
  decide

/-- The test registry with one more handler. -/
def plus (cc mc : Int) : Registry :=
  { Config.boot.registry with handlers := Config.boot.registry.handlers ++ [Config.bootHandler cc mc "" .done] }

/-- What the five checks of 40_decode_dispatch.md R157 answer: the boundary values of each. -/
theorem test_registry_checks :
    (plus 16 (-1)).initError = some (.invalidHandler 16 (-1)) ∧
    (plus (-1) 0).initError = some (.invalidHandler (-1) 0) ∧
    (plus 8 8).initError = some (.invalidHandler 8 8) ∧ (plus 8 (-2)).initError = some (.invalidHandler 8 (-2)) ∧
    (plus 0 (-1)).initError = some (.conflict (.plain 0)) ∧ (plus 13 5).initError = some (.conflict (.family 13 5)) ∧
    (plus 0 0).initError = some (.conflict (.family 0 0)) ∧ (plus 8 0).initError = some (.invalidFamily 8) ∧
    (plus 8 (-1)).initError = none ∧ (plus 13 7).initError = none := by decide

theorem test_registry_check_d5 :
    ({ Config.boot.registry with handlers := Config.bootPlain } : Registry).initError = some (.invalidHandler 13 5) ∧
    ({ Config.boot.registry with familyLayout := [none, none, none, none, none, none, some .b, none, none, none, none,
        none, none, some .b, none, none] } : Registry).initError = some (.invalidFamily 13) := by decide

/-! ### Decoding: words written out bit by bit from the layouts (30_encoding.md R113, R114, R116, R119) -/

theorem test_decode_metaD5 : decode Config.boot 0b110110100100000100100011#24 = .metaD5 1 0 0x123 := by decide
theorem test_decode_plain : decode Config.boot 0b000100100011010001010110#24 = .plainDispatch 1 0x23456 := by decide
theorem test_decode_metaA : decode Config.boot 0b110100101110101000000001#24 = .metaADispatch 0xD 1 3 2 0xA01 := by
  decide
theorem test_decode_metaB : decode Config.boot 0b011001010000000000001010#24 = .metaBDispatch 6 2 0x1000A := by decide
theorem test_decode_errorCc : decode Config.boot 0b101010111100110111101111#24 = .decodeErrorCc 0xA 0xBCDEF := by decide
theorem test_decode_errorMc : decode Config.boot 0b011001100000000000000001#24 = .decodeErrorMc 6 3 1 := by decide
theorem test_decode_invalidSelector :
    decode Config.boot 0b110110110100000000000000#24 = .invalidRegisterSelector 0xD 5 5 0 := by decide
/-- The three checks come in their order (95_test_vectors.md section 2.2, words 0xD74000 and 0xFFFFFF). -/
theorem test_decode_order : decode Config.boot 0xD74000 = .decodeErrorMc 0xD 3 0x14000 ∧
    decode Config.boot 0xFFFFFF = .decodeErrorCc 0xF 0xFFFFF := by decide
/-- `enc(0xD, 5, 3, 2, 0x7AB) = 0xDAE7AB` (95_test_vectors.md section 2.1). -/
theorem test_encode_metaD5 : encode (.metaD5 3 2 0x7AB) = 0xDAE7AB := by decide

/-! ### Instructions -/

/-- Example W13 of 95_test_vectors.md section 1. -/
theorem test_metaD5 : nextOf State.active (exec (.metaD5 1 0 0) one) =
    some [{ pst 0 3 7 .right with reg := [(1, ⟨7, 3⟩)] }] := by decide

/-- A row of 95_test_vectors.md section 2.4: `STEP` moves one cell, here over the edge. -/
theorem test_plainDispatch : nextOf State.active (exec (.plainDispatch 0 0) (inStep 0 (eng [] [pst 0 999 4 .right]))) =
    some [pst 0 0 4 .right] := by decide

/-- `SETI R1, 5`, options from the word. -/
theorem test_metaADispatch : nextOf State.active (exec (.metaADispatch 0xD 1 1 2 5) one) =
    some [{ pst 0 4 7 .right with reg := [(1, ⟨5, 2⟩)] }] := by decide

/-- `ADDI` of an unset register aborts and leaves nothing of the step (60_exceptions.md R388). -/
theorem test_metaADispatch_unset :
    nextOf (fun t => (t.phase, t.active, t.abort.map fun a => (a.kind, a.word))) (exec (.metaADispatch 0xD 0 1 0 1) one) =
      some (.aborted, [pst 0 3 7 .right], some (.unsetRegisterRead 1, some 0xD04001)) := by decide

/-- `IN2MEM` at 10 of the text "123abc" (95_test_vectors.md section 3, program P3). -/
theorem test_metaBDispatch :
    nextOf (fun t => (t.mem, t.input)) (exec (.metaBDispatch 6 0 10) { one with input := [49, 50, 51, 97, 98, 99] }) =
      some ([(10, 123)], [97, 98, 99]) := by decide

theorem test_decodeErrorCc : nextOf State.abort (exec (.decodeErrorCc 0xF 0) one) =
    some (some { kind := .unknownControlCode 0xF, cycle := 0, pistonId := 0, x := 3, y := 7, word := some 0xF00000 }) := by
  decide

theorem test_decodeErrorMc : nextOf State.abort (exec (.decodeErrorMc 6 3 0) one) =
    some (some { kind := .unknownMetaCommand 6 3, cycle := 0, pistonId := 0, x := 3, y := 7, word := some 0x660000 }) := by
  decide

theorem test_invalidRegisterSelector : nextOf State.abort (exec (.invalidRegisterSelector 0xD 5 5 0) one) =
    some (some { kind := .invalidRegisterSelector 0xD 5 5, cycle := 0, pistonId := 0, x := 3, y := 7,
                 word := some 0xDB4000 }) := by decide

/-! ### Primitives (95_test_vectors.md sections 2.3 and 2.4, examples of 41 to 43) -/

/-- The place of a piston facing `d` at (x, y) after `MOVE(n)`. -/
def moved (x y : Nat) (d : Dir) (n : Int) : Nat × Nat :=
  let p := (pst 0 x y d).move 1000 n
  (p.x, p.y)

theorem test_move : moved 5 0 .up 1 = (5, 999) ∧ moved 5 5 .right (-7) = (998, 5) ∧ moved 0 0 .left 1 = (999, 0) ∧
    moved 5 5 .down 1000 = (5, 5) := by decide
theorem test_turns : Dir.ccw .up = .left ∧ Dir.ccw .right = .up ∧ Dir.cw .left = .up ∧ Dir.opp .right = .left := by decide
theorem test_setReg : [1234, -1, 1000, 999999999999].map (modM 1000) = [234, 999, 0, 999] := by decide
theorem test_getReg_unset : raised (primGetReg 2 one) = some (.unsetRegisterRead 2) := by decide
theorem test_getPos : result (primGetPos one) = some (3, 7) := by decide
/-- Example of 42_scheduler.md R260. -/
theorem test_fork : after State.mq (primFork .left (inStep 0 (eng [] [pst 0 2 2 .up]))) =
    some [{ anchor := .id 0, entrant := .copy (pst 8 1 2 .left), side := .left }] := by decide
/-- Example of 42_scheduler.md R263: priorities 5, 3, 1, and the second piston changes to 4. -/
theorem test_setPriority :
    let ps := [{ pst 0 0 0 .up with priority := 5 }, { pst 1 0 0 .up with priority := 3 },
      { pst 2 0 0 .up with priority := 1 }]
    after (fun t => t.drain.active.map fun p => (p.id, p.priority)) (primSetPriority 4 (inStep 1 (eng [] ps))) =
      some [(0, 5), (1, 4), (2, 1)] := by decide
/-- Example of 42_scheduler.md R266. -/
theorem test_kill : after (fun t => (t.active, t.killed)) (primKill one) = some ([], true) := by decide
theorem test_memory : after (fun t => (t.mem.read 42, t.mem.read 43)) (primMemWrite 42 5 one) = some (5, 0) ∧
    after State.mem (primMemWrite 42 0 { one with mem := [(42, 5)] }) = some [] := by decide
/-- Examples W3 to W5; "007x" and "-5" of 43_memory_io.md R302. -/
theorem test_inNum :
    result (primInNum { one with input := [49, 50, 51, 97] }) = some 123 ∧ result (primInNum one) = some 0 ∧
    result (primInNum { one with input := List.replicate 12 57 }) = some 999 ∧
    after State.input (primInNum { one with input := [48, 48, 55, 120] }) = some [120] ∧
    after State.input (primInNum { one with input := [45, 53] }) = some [45, 53] := by decide
theorem test_inChar : result (primInChar { one with input := [72, 105] }) = some 72 ∧ result (primInChar one) = some 0 := by
  decide
theorem test_outNum : after (fun t => (t.lastOut, t.output)) (primOutNum 65 one) = some (some 65, [54, 53]) ∧
    decimal 0 = [48] ∧ decimal 1000 = [49, 48, 48, 48] := by decide
/-- Examples W9, W10 and the corner cases of 43_memory_io.md R306, R307. -/
theorem test_outToken :
    after (fun t => (t.lastOut, t.output)) (primOutToken [48, 120, 49, 65] one) = some (some 26, [48, 120, 49, 65]) ∧
    after State.lastOut (primOutToken [90] one) = some (some 90) ∧
    after State.lastOut (primOutToken [48, 88, 49, 65] one) = some (some 48) ∧
    raised (primOutToken [48, 120] one) = some (.malformedHexToken [48, 120]) ∧
    raised (primOutToken [65, 120, 49, 50] one) = some (.malformedHexToken [65, 120, 49, 50]) ∧
    raised (primOutToken [] one) = some .emptyOutputToken := by decide

/-! ### One cycle -/

/-- The word placed by `withFetchWord` is the one the next step runs, from reset too. -/
theorem test_withFetchWord :
    nextOf (fun t => (t.phase, t.cycle, t.active)) (step (State.reset.withFetchWord 24 0xDA4000)) =
      some (.running, 1, [{ pst 0 0 0 .right with reg := [(1, ⟨0, 3⟩)] }]) := by decide

/-- A piston on no cell aborts the cycle, with no word in the record. -/
theorem test_step_fetch : nextOf (fun t => (t.phase, t.cycle, t.abort.map fun a => (a.kind, a.word)))
    (step (eng [] [pst 0 3 7 .right])) = some (.aborted, 0, some (.fetchOutOfGrid 3 7, none)) := by decide

/-- Both counters, and the outcome, as the host reads them (44_host_interface.md R357, R358; 60_exceptions.md R393). -/
theorem test_observe : (State.reset.observe.runs, State.reset.observe.cycle, State.reset.runOutcome) = (1, 0, .ended) ∧
    nextOf (fun t => (t.observe.runs, t.observe.phase.encoding)) (hostReset State.reset) = some (2, 2) := by decide

/-! ### Witnesses: for each obligation with hypotheses, a state and operands that meet them, clause by clause -/

/-- `Held` of a state with no request and no detached piston, from what can be decided. -/
theorem held_of_idle {s : State} (hq : s.mq = []) (hd : s.detached = []) (hm : 1 ≤ s.cfg.maxInteger)
    (hw : Memory.wf s.mem) (hok : ∀ p ∈ s.active, Piston.Ok s.cfg.maxInteger p) (hn : (s.active.map Piston.id).Nodup)
    (hg : ∀ p ∈ s.active, p.id < s.nextId) : s.Held := by
  have hh : s.held = s.active := by simp [State.held, hq, hd, copiesOf]
  exact ⟨hm, hw, hh ▸ hok, hh ▸ hn, hh ▸ hg, by simp [hd, Map.Canon], by simp [hq, hd, prioIdsOf]⟩

/-- Two pistons in a row: the first on `STEP`, the second on a word without a category. -/
def pair : State := eng [(0, [(0, 0x000000), (1, 0xF00000)])] [pst 0 0 0 .right, pst 1 1 0 .right]

/-- A lone piston on a `META_D5` cell of the second-last row. -/
def lone : State := eng [(998, [(3, 0xDA4000)])] [pst 0 3 998 .right]

/-- A lone piston on a cell whose handler reads an unset register. -/
def unset : State := eng [(998, [(3, 0xD04000)])] [pst 0 3 998 .right]

/-- A lone piston on a cell whose handler runs `KILL`. -/
def killer : State := eng [(0, [(0, 0x500000)])] [pst 0 0 0 .right, pst 1 5 5 .up]

theorem pair_held : pair.Held :=
  held_of_idle rfl rfl (by decide) (by decide) (by decide) (by decide) (by decide)

theorem pair_inv : pair.Inv :=
  ⟨pair_held, by decide, by decide, by decide, by decide, by decide⟩

theorem lone_inv : lone.Inv :=
  ⟨held_of_idle rfl rfl (by decide) (by decide) (by decide) (by decide) (by decide), by decide, by decide, by decide,
    by decide, by decide⟩

theorem test_witness_MetaD5WordsAreTheMaskMatch :
    Config.boot.registry.initError = none ∧ (0xDA0000 : Word24) &&& 0xFE0000 = 0xDA0000 ∧
    (Config.boot.selReg (regOf 0xDA0000)).isSome = true ∧ (0xDBFFFF : Word24) &&& 0xFE0000 = 0xDA0000 ∧
    (Config.boot.selReg (regOf 0xDBFFFF)).isSome = false := by decide

theorem test_witness_IllegalFormsTakeTheirAbort :
    one.receiver = some 0 ∧ one.locate 0 = some (pst 0 3 7 .right) := by decide

theorem test_witness_ReceiverPrimitiveEffects :
    1 ≤ one.cfg.maxInteger ∧ one.receiver = some 0 ∧ one.locate 0 = some (pst 0 3 7 .right) := by decide

theorem test_witness_ForkQueuesATurnedCopy :
    one.receiver = some 0 ∧ one.locate 0 = some (pst 0 3 7 .right) := by decide

/-- A quiet handler for each of the three dispatch forms. -/
theorem test_witness_QuietHandlersComplete :
    one.receiver = some 0 ∧ one.locate 0 = some (pst 0 3 7 .right) ∧
    ((one.cfg.registry.plainHandler 0x7).map Handler.run = some (.code (.op .turnRight Config.moveOn)) ∧
      Code.quiet (.op .turnRight Config.moveOn) = true) ∧
    ((one.cfg.registry.metaHandler 0xD 1).map Handler.run =
        some (.code (.op (.setReg .selected (.field .arg) (.field .opts)) Config.moveOn)) ∧
      Code.quiet (.op (.setReg .selected (.field .arg) (.field .opts)) Config.moveOn) = true ∧
      one.cfg.selReg 3 = some 3) ∧
    (one.cfg.registry.metaHandler 0x6 2).map Handler.run =
        some (.code (.op .inChar (.op (.outNum (.result 0)) Config.moveOn))) ∧
      Code.quiet (.op .inChar (.op (.outNum (.result 0)) Config.moveOn)) = true := by decide

theorem test_witness_UncategorisedControlCodeRaises :
    one.receiver = some 0 ∧ one.locate 0 = some (pst 0 3 7 .right) ∧
    one.cfg.registry.layout (ccOf 0x800000) = .none ∧ one.cfg.registry.layout (ccOf 0xFFFFFF) = .none := by decide

theorem test_witness_PlainWordSelectsItsOneHandler :
    Config.boot.registry.initError = none ∧ Config.boot.registry.layout (ccOf 0x000000) = .plain ∧
    Config.boot.registry.layout (ccOf 0x7FFFFF) = .plain := by decide

theorem test_witness_MetaWordSelectsItsOneHandlerOrRaises :
    one.receiver = some 0 ∧ one.locate 0 = some (pst 0 3 7 .right) ∧ one.cfg.registry.initError = none ∧
    one.cfg.registry.layout (ccOf 0x640000) = .metaB ∧
    (one.cfg.registry.metaHandler (ccOf 0x640000) (mcOf 0x640000)).isSome = true ∧
    one.cfg.registry.layout (ccOf 0xDE0000) = .metaA ∧
    (∃ g ∈ one.cfg.registry.handlers, g.cc = (ccOf 0x65FFFF).toNat ∧ g.mc = (mcOf 0x65FFFF).toNat) ∧
    ¬ ∃ g ∈ one.cfg.registry.handlers, g.cc = (ccOf 0xDE0000).toNat ∧ g.mc = (mcOf 0xDE0000).toNat := by decide

theorem test_witness_ArgumentFieldsAndSelectorCheck :
    one.receiver = some 0 ∧ one.locate 0 = some (pst 0 3 7 .right) ∧
    (one.cfg.registry.metaHandler (ccOf 0xDB0000) (mcOf 0xDB0000)).isSome = true ∧
    one.cfg.registry.layout (ccOf 0xDB0000) = .metaA ∧ one.cfg.selReg (regOf 0xDB0000) = none ∧
    one.cfg.registry.layout (ccOf 0xDAFFFF) = .metaA ∧ (one.cfg.selReg (regOf 0xDAFFFF)).isSome = true ∧
    (one.cfg.registry.metaHandler (ccOf 0x65FFFF) (mcOf 0x65FFFF)).isSome = true ∧
    one.cfg.registry.layout (ccOf 0x65FFFF) = .metaB ∧ one.cfg.registry.layout (ccOf 0xFFFFFF) = .none ∧
    one.cfg.registry.layout (ccOf 0xDFFFFF) = .metaA ∧
    one.cfg.registry.metaHandler (ccOf 0xDFFFFF) (mcOf 0xDFFFFF) = none := by decide

/-- A registry for the condition under which each of the five checks is the first to fail. -/
theorem test_witness_RegistryInitialisationChecks :
    ((plus 16 0).rangeError.isSome ∧
      (plus 0 (-1)).rangeError = none ∧ (plus 0 (-1)).duplicateError.isSome ∧
      (plus 0 0).duplicateError = none ∧ (plus 0 0).mixedError.isSome ∧
      (plus 8 0).mixedError = none ∧ (plus 8 0).familyError.isSome ∧
      ({ Config.boot.registry with handlers := Config.bootPlain } : Registry).familyError = none ∧
      ({ Config.boot.registry with handlers := Config.bootPlain } : Registry).d5Error.isSome) ∧
    Config.boot.registry.layout 6 ≠ .plain := by decide

theorem test_witness_MetaD5StoresTheYCoordinate :
    one.receiver = some 0 ∧ one.locate 0 = some (pst 0 3 7 .right) ∧ one.cfg.selReg 0 = some 0 ∧
    one.cfg.selReg 3 = some 3 := by decide

theorem test_witness_MetaD5IgnoresOptsAndArg : (one.cfg.selReg 3).isSome = true := by decide

theorem test_witness_LonePistonOnMetaD5RunsForever :
    lone.cfg.registry.initError = none ∧ lone.phase = .running ∧ lone.active = [pst 0 3 998 .right] ∧ lone.mq = [] ∧
    lone.detached = [] ∧ (pst 0 3 998 .right).ended = false ∧ Grid.at lone.cfg.grid 3 998 = some 0xDA4000 ∧
    decode lone.cfg 0xDA4000 = .metaD5 1 0 0 ∧ lone.cfg.selReg 1 = some 1 := by decide

/-- A primitive that goes on, one that stops the program, and one that raises. -/
theorem test_witness_DispatchRunsThePrimitives :
    (∃ t, Prim.perform (.move 1) one = .done () t) ∧ (∃ t, Prim.perform .kill one = .stop t) ∧
    Prim.perform (.getReg 0) one = .raise (.unsetRegisterRead 0) := ⟨⟨_, rfl⟩, ⟨_, rfl⟩, rfl⟩

/-- A plain, a layout-A and a layout-B handler of the test registry, each with a written program; those of `STEP`, `SETI`
and `IN2MEM` raise nothing, that of `ADDI` may. -/
theorem test_witness_DispatchRunsTheHandlerProgram :
    one.receiver = some 0 ∧ one.locate 0 = some (pst 0 3 7 .right) ∧
    (one.cfg.registry.plainHandler 0).map (fun h => match h.run with | .code k => Code.quiet k | _ => false) =
      some true ∧
    (one.cfg.registry.metaHandler 0xD 1).map (fun h => match h.run with | .code k => Code.quiet k | _ => false) =
      some true ∧ one.cfg.selReg 3 = some 3 ∧
    (one.cfg.registry.metaHandler 0xD 0).map (fun h => match h.run with | .code k => Code.quiet k | _ => true) =
      some false ∧
    (one.cfg.registry.metaHandler 6 0).map (fun h => match h.run with | .code k => Code.quiet k | _ => false) =
      some true := by decide

theorem test_witness_HandlerChangesOnlyItsReceiver :
    ∃ t, one.receiver = some 0 ∧ one.killed = false ∧ HProg.exec (.op (.move 1) fun _ => .done) one = .finished t ∧
      t.killed = false := ⟨_, rfl, rfl, rfl, rfl⟩

/-- A copy already waits in the queue when the handler forks again. -/
theorem test_witness_HandlerKeepsWaitingCopies :
    ∃ s t, s.receiver = some 0 ∧ s.killed = false ∧ copiesOf s.mq ≠ [] ∧
      HProg.exec (.op (.fork .right) fun _ => .op (.setPriority 1) fun _ => .done) s = .finished t ∧ t.killed = false :=
  ⟨one.afterFork 0 (pst 0 3 7 .right) .left, _, rfl, rfl, by decide, rfl, rfl⟩

theorem test_witness_HandlerOnlyRemovesItsReceiver :
    (∃ t, HProg.exec (.op .kill fun _ => .done) one = .finished t ∧ t.killed = true) ∧
    ∃ t, HProg.exec (.op (.setPriority 1) fun _ => .done) one = .finished t ∧ t.killed = false ∧ t.active = [] :=
  ⟨⟨_, rfl, rfl⟩, _, rfl, rfl, rfl⟩

theorem test_witness_InstructionsLeaveTheEngineRegisters : ∃ t, exec (.plainDispatch 0 0) one = .next t := ⟨_, rfl⟩

theorem test_witness_FailingStepHasNoEffect :
    one.phase ≠ .aborted ∧ ∃ t, exec (.metaADispatch 0xD 0 1 0 1) one = .next t ∧ t.phase = .aborted :=
  ⟨by decide, _, rfl, rfl⟩

theorem test_witness_FetchOutsideTheImageAborts :
    lone.receiver = none ∧ ({ lone with cfg := cfg [] }.active.find? fun q => q.id == 0) = some (pst 0 3 998 .right) ∧
    Grid.at (cfg []).grid 3 998 = none := by decide

theorem test_witness_FirstFailingPistonEndsTheCycle :
    pair.cfg.registry.initError = none ∧ pair.phase = .running ∧ pair.active.map Piston.id = [0] ++ 1 :: [] ∧
    ∃ u v, runPass [0] pair.beginPass = .next u ∧ u.phase ≠ .aborted ∧ u.killed = false ∧
      u.stepPiston 1 = .next v ∧ v.phase = .aborted :=
  ⟨by decide, rfl, rfl, _, _, rfl, by decide, rfl, rfl, rfl⟩

/-- The pair after its aborted cycle. -/
def aborted : State := { pair with phase := .aborted, abort := some ⟨.unknownControlCode 15, 0, 1, 1, 0, some 0xF00000⟩ }

theorem test_witness_OnlyResetLeavesAborted : aborted.cfg.registry.initError = none ∧ aborted.phase = .aborted := by
  decide

theorem test_witness_TurnAndMoveLaws : 1 ≤ 1 ∧ (pst 0 0 0 .up).x < 1 ∧ (pst 0 0 0 .up).y < 1 ∧
    (pst 0 999 0 .up).x < 1000 ∧ (pst 0 999 0 .up).y < 1000 := by decide

theorem test_witness_ReceiverPrimitivesKeepBounds :
    (Prim.move (-1)).isReceiver = true ∧ 1 ≤ one.cfg.maxInteger ∧ one.receiver = some 0 ∧
    one.locate 0 = some (pst 0 3 7 .right) ∧ Piston.Ok 1000 (pst 0 3 7 .right) ∧
    ∃ t, Prim.perform (.move (-1)) one = .done () t :=
  ⟨rfl, by decide, rfl, rfl, by decide, _, rfl⟩

theorem test_witness_RegisterWriteThenRead :
    1 ≤ one.cfg.maxInteger ∧ one.receiver = some 0 ∧ one.locate 0 = some (pst 0 3 7 .right) ∧
    (pst 0 3 7 .right).cell 1 = .unset ∧
    ({ pst 0 3 7 .right with reg := [(1, ⟨999, 0⟩)] } : Piston).cell 1 = .val 999 0 := by decide

theorem test_witness_PriorityChangeDetachesAndQueues :
    pair.active = [pst 0 0 0 .right, pst 1 1 0 .right] ∧ (inStep 0 pair).receiver = some 0 ∧
    Map.get (inStep 0 pair).detached 0 = none ∧
    ((inStep 0 pair).active.find? fun q => q.id == 0) = some (pst 0 0 0 .right) ∧
    (∀ a ∈ [pst 1 1 0 .right], (-1 : Int) < a.priority) ∧ (pst 1 1 0 .right).priority ≤ 0 := by decide

theorem test_witness_SecondPriorityChangeReplacesTheFirst :
    (inStep 0 pair).Held ∧ (inStep 0 pair).receiver = some 0 ∧ (inStep 0 pair).locate 0 = some (pst 0 0 0 .right) ∧
    ∃ t u, Prim.perform (.setPriority 3) (inStep 0 pair) = .done () t ∧ Prim.perform (.setPriority 1) t = .done () u :=
  ⟨pair_held.of_same rfl pair_held.memory rfl rfl rfl rfl, rfl, rfl, _, _, rfl, rfl⟩

theorem test_witness_OnePriorityChangeKeepsTheOrder :
    ((inStep 0 pair).active.map Piston.id).Nodup ∧ (inStep 0 pair).mq = [] ∧ (inStep 0 pair).detached = [] ∧
    (inStep 0 pair).receiver = some 0 ∧ (inStep 0 pair).locate 0 = some (pst 0 0 0 .right) ∧
    PriorityOrdered (inStep 0 pair).active ∧ ∃ t, Prim.perform (.setPriority (-1)) (inStep 0 pair) = .done () t :=
  ⟨by decide, rfl, rfl, rfl, rfl, by decide, _, rfl⟩

theorem test_witness_KillEndsThePassAndTheCycle :
    killer.phase ≠ .aborted ∧ killer.killed = false ∧ ∃ t, killer.stepPiston 0 = .next t ∧ t.killed = true :=
  ⟨by decide, rfl, _, rfl, rfl⟩

/-- The pair in its pass, after a priority change of the first and a fork of the second. -/
theorem test_witness_DrainKeepsEveryPiston :
    ∃ s : State, s.Held ∧ s.detached ≠ [] ∧ s.mq.length = 2 :=
  ⟨_, ((pair_held.afterPriority (n := 0) (p := pst 0 0 0 .right) rfl 5).afterFork (n := 1) (p := pst 1 1 0 .right) rfl
    .left), by decide, by decide⟩

/-- A request for each clause: on each side of the second of two pistons, for an anchor that is gone, for `END`, and of a
detached entrant. -/
theorem test_witness_DrainPutsTheEntrantAtItsAnchor :
    pair.active = [pst 0 0 0 .right] ++ pst 1 1 0 .right :: [] ∧ (∀ b ∈ [pst 0 0 0 .right], b.id ≠ 1) ∧
    (∀ b ∈ pair.active, b.id ≠ 2) ∧
    (pair.drainOne { anchor := .id 1, entrant := .copy (pst 7 0 0 .up), side := .right }).active.map Piston.id = [0, 1, 7] ∧
    (pair.drainOne { anchor := .id 1, entrant := .copy (pst 7 0 0 .up), side := .left }).active.map Piston.id = [0, 7, 1] ∧
    (pair.drainOne { anchor := .id 2, entrant := .copy (pst 7 0 0 .up), side := .left }).active.map Piston.id = [0, 1, 7] ∧
    Map.get ({ pair with detached := [(7, pst 7 0 0 .up)] } : State).detached 7 = some (pst 7 0 0 .up) ∧
    (({ pair with detached := [(7, pst 7 0 0 .up)] } : State).drainOne
      { anchor := .listEnd, entrant := .detached 7, side := .left }).active.map Piston.id = [0, 1, 7] := by decide

theorem test_witness_DrainLeavesNothingDetached :
    ∃ s : State, s.Held ∧ s.detached ≠ [] ∧ s.mq.length = 2 := test_witness_DrainKeepsEveryPiston

theorem test_witness_EndOfCyclePrunesAndCounts :
    State.reset.finishCycle.active = [] ∧ pair.finishCycle.active ≠ [] := by decide

theorem test_witness_TwoForksAtOneAnchor :
    one.active = [pst 0 3 7 .right] ∧ one.mq = [] ∧ one.detached = [] ∧ one.receiver = some 0 ∧ 0 < one.nextId ∧
    (∃ t u, Prim.perform (.fork .right) one = .done () t ∧ Prim.perform (.fork .right) t = .done () u) ∧
    (∃ t u, Prim.perform (.fork .left) one = .done () t ∧ Prim.perform (.fork .left) t = .done () u) ∧
    ∃ t u, Prim.perform (.fork .left) one = .done () t ∧ Prim.perform (.fork .right) t = .done () u :=
  ⟨rfl, rfl, rfl, rfl, by decide, ⟨_, _, rfl, rfl⟩, ⟨_, _, rfl, rfl⟩, _, _, rfl, rfl⟩

theorem test_witness_LeftForkStandsBeforeItsOriginal :
    ∃ (s : State) (q : Piston), s.Held ∧ pst 0 0 0 .right ∈ s.active ∧
      s.mq = [] ++ { anchor := .id 0, entrant := .copy q, side := .left } :: [] ∧
      (∀ m ∈ s.mq, m.anchor ≠ .id q.id) ∧ (pst 0 0 0 .right).ended = false ∧ q.ended = false :=
  ⟨_, _, pair_held.afterFork (n := 0) (p := pst 0 0 0 .right) rfl .left, by decide, rfl, by decide, rfl, rfl⟩

/-- The second clause: a left fork at the corner of the plane. -/
theorem test_witness_LeftForkMovesOneStep :
    ∃ (t : State) (q : Piston), ({ pair with receiver := some 0 } : State).locate 0 = some (pst 0 0 0 .right) ∧
      Prim.perform (.fork .left) { pair with receiver := some 0 } = .done () t ∧
      t.mq = pair.mq ++ [{ anchor := .id 0, entrant := .copy q, side := .left }] ∧ q.y = 999 :=
  ⟨_, _, by decide, rfl, rfl, by decide⟩

theorem test_witness_MemoryIsItsReads : Memory.wf [(0, 1), (7, 999)] := by decide

theorem test_witness_InNumConsumesTheDigitRun :
    1 ≤ one.cfg.maxInteger ∧ (∀ c ∈ [48, 57], 48 ≤ c ∧ c ≤ 57) ∧ ¬ (48 ≤ 58 ∧ 58 ≤ 57) ∧ ¬ (48 ≤ 47 ∧ 47 ≤ 57) ∧
    ({ one with input := [48, 57] ++ [58] } : State).input = [48, 57] ++ [58] := by decide

theorem test_witness_InNumReadsBackAWrittenNumber :
    1 ≤ one.cfg.maxInteger ∧ ({ one with input := decimal 1005 ++ [32] } : State).input = decimal 1005 ++ [32] ∧
    ¬ (48 ≤ 32 ∧ 32 ≤ 57) := by decide

theorem test_witness_InputPrimitivesNeverRaise :
    one.input = [] ∧ ({ one with input := [0x10FFFF] } : State).input = 0x10FFFF :: [] := by decide

/-- A token for each clause: no `x` second, digits of each kind at their ends, and the three ways a hexadecimal token
fails. -/
theorem test_witness_OutTokenStoresItsValue :
    (88 : Nat) ≠ 120 ∧ [48, 57, 97, 102, 65, 70].map hexDigit = [0, 9, 10, 15, 10, 15].map some ∧
    (65 : Nat) ≠ 48 ∧ ([] : Text) = [] ∧ [47, 58, 96, 103, 64, 71].map hexDigit = List.replicate 6 none := by decide

theorem test_witness_PistonStepRunsTheDecodedInstruction :
    (lone.active.find? fun q => q.id == 0) = some (pst 0 3 998 .right) ∧
    Grid.at lone.cfg.grid 3 998 = some 0xDA4000 ∧ decode lone.cfg 0xDA4000 = .metaD5 1 0 0 := by decide

/-- A word for each clause: `META_D5`, and an `ADDI` that reads an unset register. -/
theorem test_witness_StepOfOnePistonRunsItsInstruction :
    (lone.cfg.registry.initError = none ∧ lone.phase = .running ∧ lone.active = [pst 0 3 998 .right] ∧
      Grid.at lone.cfg.grid 3 998 = some 0xDA4000 ∧ decode lone.cfg 0xDA4000 = .metaD5 1 0 0 ∧
      ∃ u, exec (.metaD5 1 0 0) { lone with snapshot := [0], killed := false, receiver := some 0 } = .next u ∧
        u.phase ≠ .aborted) ∧
    unset.cfg.registry.initError = none ∧ unset.phase = .running ∧ unset.active = [pst 0 3 998 .right] ∧
      Grid.at unset.cfg.grid 3 998 = some 0xD04000 ∧ decode unset.cfg 0xD04000 = .metaADispatch 0xD 0 1 0 0 ∧
      ∃ u, exec (.metaADispatch 0xD 0 1 0 0) { unset with snapshot := [0], killed := false, receiver := some 0 } = .next u ∧
        u.phase = .aborted :=
  ⟨⟨by decide, rfl, rfl, by decide, by decide, _, rfl, by decide⟩, by decide, rfl, rfl, by decide, by decide, _, rfl, rfl⟩

theorem test_witness_PassStepsThePistonsInOrder :
    ({ pair with killed := true } : State).killed = true ∧ pair.killed = false ∧
    (∃ t, pair.stepPiston 0 = .next t ∧ t.phase ≠ .aborted) ∧ ∃ t, pair.stepPiston 1 = .next t ∧ t.phase = .aborted :=
  ⟨rfl, rfl, ⟨_, rfl, by decide⟩, _, rfl, rfl⟩

/-- Two pistons on `STEP`. -/
def walkers : State := eng [(0, [(0, 0x000000), (1, 0x000000)])] [pst 0 0 0 .right, pst 1 1 0 .right]

/-- A pass of two pistons that goes through, and one that aborts. -/
theorem test_witness_StepOfSeveralPistons :
    (walkers.cfg.registry.initError = none ∧ walkers.phase = .running ∧
      ∃ u, runPass (walkers.active.map Piston.id) walkers.beginPass = .next u ∧ u.phase ≠ .aborted) ∧
    pair.cfg.registry.initError = none ∧ pair.phase = .running ∧
      ∃ u, runPass (pair.active.map Piston.id) pair.beginPass = .next u ∧ u.phase = .aborted :=
  ⟨⟨by decide, rfl, _, rfl, by decide⟩, by decide, rfl, _, rfl, rfl⟩

theorem test_witness_EndedOrAbortedStepDoesNothing :
    State.reset.cfg.registry.initError = none ∧ State.reset.phase = .ended ∧
    aborted.cfg.registry.initError = none ∧ aborted.phase = .aborted ∧
    pair.phase = .running ∧ ({ pair with phase := .ready } : State).phase = .ready := by decide

theorem test_witness_CycleCounterCountsExecutedCycles :
    (∃ t, step lone = .next t ∧ lone.phase = .running ∧ t.phase ≠ .aborted) ∧
    (∃ t, step pair = .next t ∧ pair.phase = .running ∧ t.phase = .aborted) ∧
    (∃ t, step State.reset = .next t ∧ State.reset.phase = .ended) ∧
    (∃ t, Prim.perform (.move 1) one = .done () t) ∧ (∃ t, Prim.perform .kill one = .stop t) ∧
    Prim.perform (.getReg 0) one = .raise (.unsetRegisterRead 0) :=
  ⟨⟨_, rfl, rfl, by decide⟩, ⟨_, rfl, rfl, rfl⟩, ⟨_, rfl, rfl⟩, ⟨_, rfl⟩, ⟨_, rfl⟩, rfl⟩

theorem test_witness_ResetSeedsOnePistonPerStartPoint :
    pair.cfg.registry.initError = none ∧ pair.cfg.startPoints = [] ∧
    ({ Config.boot with startPoints := [⟨1000, 999, .up⟩] } : Config).registry.initError = none := by decide

theorem test_witness_NewEngineRightAfterConstruction :
    Config.boot.registry.initError = none ∧ Config.boot.startPoints = [] ∧
    ({ Config.boot with startPoints := [⟨1000, 999, .up⟩] } : Config).startPoints ≠ [] := by decide

theorem test_witness_HostKillEmptiesTheLists :
    pair.cfg.registry.initError = none ∧ pair.phase ≠ .aborted ∧ aborted.phase = .aborted ∧
    aborted.cfg.registry.initError = none := by decide

theorem test_witness_HostCommandsKeepTheInvariant :
    1 ≤ pair.cfg.maxInteger ∧ pair.Inv ∧ (∃ t, newEngine Config.boot [52, 50] = .next t) ∧
    (∃ t, hostReset pair = .next t) ∧ ∃ t, hostKill pair = .next t :=
  ⟨by decide, pair_inv, ⟨_, rfl⟩, ⟨_, rfl⟩, _, rfl⟩

theorem test_witness_ParametersNeverChange :
    (∃ t, step lone = .next t ∧ t.phase = .running) ∧ ∃ t, step pair = .next t ∧ t.phase = .aborted :=
  ⟨⟨_, rfl, rfl⟩, _, rfl, rfl⟩

theorem test_witness_StepKeepsTheInvariant :
    (lone.Inv ∧ ∃ t, step lone = .next t ∧ t.phase = .running) ∧ pair.Inv ∧ ∃ t, step pair = .next t ∧ t.phase = .aborted :=
  ⟨⟨lone_inv, _, rfl, rfl⟩, pair_inv, _, rfl, rfl⟩

theorem test_witness_SoundEngineNeverFaults : lone.Inv ∧ lone.cfg.registry.initError = none :=
  ⟨lone_inv, by decide⟩

theorem test_witness_AbortRecordNamesTheFailingPiston :
    pair.Inv ∧ pair.phase ≠ .aborted ∧ ∃ t, step pair = .next t ∧ t.phase = .aborted :=
  ⟨pair_inv, by decide, _, rfl, rfl⟩

end Sys2Proof.Tests
end

section
/-!
The state family (10_state.md): what a step keeps of the block's invariant, what an instruction leaves of the engine's
registers, the reads and writes of registers and memory, the counters and the parameters. Each statement follows the lemmas
it is put together from.
-/
namespace Sys2Proof.Machine

/-! ### The end of a cycle -/

theorem phaseAfterCycle_ne_aborted (active : List Piston) : phaseAfterCycle active ≠ .aborted := by
  unfold phaseAfterCycle
  split <;> simp

theorem phaseAfterCycle_eq_ended_iff (active : List Piston) : phaseAfterCycle active = .ended ↔ active = [] := by
  unfold phaseAfterCycle
  split <;> simp_all

/-- A cycle that goes on ends its pass in an abort, or comes to steps 3 to 6. -/
theorem State.runCycle_end {s t : State} (h : s.runCycle = .next t) :
    ∃ u, runPass (s.active.map Piston.id) s.beginPass = .next u ∧
      ((u.phase = .aborted ∧ t = u.endPass) ∨ (u.phase ≠ .aborted ∧ t = u.finishCycle)) := by
  obtain ⟨u, hu, rfl⟩ := State.runCycle_cases h
  refine ⟨u, hu, ?_⟩
  unfold State.afterPass
  split
  · exact .inl ⟨‹_›, rfl⟩
  · exact .inr ⟨‹_›, rfl⟩

/-! ### The abort record and the phase -/

/-- The abort record is there exactly in ABORTED (10_state.md R52): the field `record` of `State.Inv`,
which holds inside a cycle too. -/
def State.RecordMatchesPhase (s : State) : Prop := s.abort.isSome = true ↔ s.phase = .aborted

theorem State.recordMatchesPhase_congr {s t : State} (ha : t.abort = s.abort) (hp : t.phase = s.phase)
    (hs : s.RecordMatchesPhase) : t.RecordMatchesPhase := by
  unfold State.RecordMatchesPhase
  rw [ha, hp]
  exact hs

theorem State.recordMatchesPhase_enterAbort (s : State) (k : ErrorKind) (p : Piston) (w : Option Word24) :
    (s.enterAbort k p w).RecordMatchesPhase := by
  simp [State.RecordMatchesPhase]

/-- An instruction leaves phase and record as they are, or has taken an abort. -/
theorem exec_phase_abort {i : Instr} {s t : State} (h : exec i s = .next t) :
    (t.phase = s.phase ∧ t.abort = s.abort) ∨ (t.phase = .aborted ∧ t.abort.isSome = true) := by
  rcases exec_next h with ⟨prog, h⟩ | ⟨n, p, k, _, _, rfl⟩
  · obtain ⟨_, hphase, _, _, _, habort, _, _⟩ := HProg.exec_frame prog h
    exact .inl ⟨hphase, habort⟩
  · exact .inr ⟨rfl, rfl⟩

theorem State.RecordMatchesPhase.exec {i : Instr} {s t : State} (hs : s.RecordMatchesPhase) (h : exec i s = .next t) :
    t.RecordMatchesPhase := by
  rcases exec_phase_abort h with ⟨hp, ha⟩ | ⟨hp, ha⟩
  · exact State.recordMatchesPhase_congr ha hp hs
  · exact iff_of_true ha hp

theorem State.RecordMatchesPhase.stepPiston {s t : State} {n : PistonId} (hs : s.RecordMatchesPhase)
    (h : s.stepPiston n = .next t) : t.RecordMatchesPhase := by
  obtain ⟨p, _, ⟨_, rfl⟩ | ⟨w, u, _, hu, rfl⟩⟩ := State.stepPiston_cases h
  · exact State.recordMatchesPhase_enterAbort _ _ _ _
  · have hr : State.RecordMatchesPhase { s with receiver := some n } := hs
    have hu' : u.RecordMatchesPhase := hr.exec hu
    exact hu'

/-! ### A pass and the end of a cycle keep what holds at every moment -/

theorem State.Held.endPass {s : State} (hs : s.Held) : s.endPass.Held :=
  hs.of_same rfl hs.memory rfl rfl rfl rfl

theorem State.Held.beginPass {s : State} (hs : s.Held) : s.beginPass.Held :=
  hs.of_same rfl hs.memory rfl rfl rfl rfl

theorem State.Held.runPass {ns : List PistonId} {s t : State} (hs : s.Held) (h : runPass ns s = .next t) : t.Held :=
  runPass_induction (Q := State.Held) (fun _ _ _ h hq => hq.stepPiston h) hs h

theorem State.RecordMatchesPhase.runPass {ns : List PistonId} {s t : State} (hs : s.RecordMatchesPhase)
    (h : runPass ns s = .next t) : t.RecordMatchesPhase :=
  runPass_induction (Q := State.RecordMatchesPhase) (fun _ _ _ h hq => hq.stepPiston h) hs h

/-- Draining empties the detached pool (42_scheduler.md R257). -/
theorem State.Held.drain_detached {s : State} (hs : s.Held) : s.drain.detached = [] :=
  (drain_all s.mq s hs.pool.1 hs.requests).1

/-- Draining puts every piston the engine holds into the active list. -/
theorem State.Held.drain_active_perm {s : State} (hs : s.Held) : s.drain.active.Perm s.held :=
  (drain_all s.mq s hs.pool.1 hs.requests).2

/-- After steps 3 to 6 the engine holds exactly the pistons that were not ended, all of them active. -/
theorem State.Held.finishCycle_held {s : State} (hs : s.Held) :
    s.finishCycle.held = s.drain.active.filter fun p => !p.ended := by
  simp [State.held, hs.drain_detached, copiesOf]

theorem State.Held.finishCycle {s : State} (hs : s.Held) : s.finishCycle.Held := by
  have hsub : (s.drain.active.filter fun p => !p.ended).Sublist s.drain.active := List.filter_sublist
  refine hs.of_perm (by rw [State.finishCycle_frame]) ?_ (.of_eq hs.finishCycle_held) ?_ ?_ ?_ ?_
  · rw [State.finishCycle_frame]
    exact hs.memory
  · exact ((hs.drain_active_perm.map Piston.id).nodup_iff.2 hs.unique).sublist (hsub.map Piston.id)
  · intro p hp
    rw [State.finishCycle_frame]
    exact hs.ok p (hs.drain_active_perm.subset (hsub.subset hp))
  · simp [hs.drain_detached, Map.Canon]
  · simp [hs.drain_detached, prioIdsOf]

/-! ### The invariant between cycles -/

/-- A pass that aborted leaves a sound engine: what `Inv` says of the other phases is not asked. -/
theorem State.Held.inv_endPass {s : State} (hs : s.Held) (hr : s.RecordMatchesPhase) (hp : s.phase = .aborted) :
    s.endPass.Inv where
  held := hs.endPass
  record := hr
  drained := fun h => absurd hp h
  live := fun h => absurd hp h
  ended := fun h => absurd hp h
  idle := ⟨rfl, rfl, rfl⟩

/-- A pass that did not abort leads, through steps 3 to 6, to a sound engine. -/
theorem State.Held.inv_finishCycle {s : State} (hs : s.Held) (hr : s.RecordMatchesPhase) (hp : s.phase ≠ .aborted) :
    s.finishCycle.Inv where
  held := hs.finishCycle
  record := by
    have habort : s.finishCycle.abort = s.abort := by rw [State.finishCycle_frame]
    have hnone : ¬ s.abort.isSome = true := fun h => hp (hr.1 h)
    rw [habort]
    exact iff_of_false hnone (phaseAfterCycle_ne_aborted _)
  drained := fun _ => ⟨rfl, hs.drain_detached⟩
  live := fun _ p h => by simpa using (List.mem_filter.1 h).2
  ended := fun _ => phaseAfterCycle_eq_ended_iff _
  idle := ⟨rfl, rfl, rfl⟩

/-- A whole cycle keeps the invariant. -/
theorem State.Inv.runCycle {s t : State} (hs : s.Inv) (h : s.runCycle = .next t) : t.Inv := by
  obtain ⟨u, hu, hend⟩ := State.runCycle_end h
  have hheld : u.Held := hs.held.beginPass.runPass hu
  have hbegin : s.beginPass.RecordMatchesPhase := hs.record
  have hrec : u.RecordMatchesPhase := hbegin.runPass hu
  rcases hend with ⟨hp, rfl⟩ | ⟨hp, rfl⟩
  · exact hheld.inv_endPass hrec hp
  · exact hheld.inv_finishCycle hrec hp

/-- Settles O56: outside ENDED and ABORTED a step is a cycle, and a cycle keeps the invariant. -/
theorem stepKeepsTheInvariant : Obligations.StepKeepsTheInvariant := by
  intro s t hs h
  obtain ⟨_, ⟨_, rfl⟩ | ⟨_, hrun⟩⟩ := stepCycle_cases h
  · exact hs
  · exact hs.runCycle hrun

/-! ### What an instruction does to the id generator and the IO channel -/

/-- From `s` to `t` the id generator has not gone back (10_state.md R51), the output has only been appended to (R49), and
the input has only been consumed from the front (R48). -/
structure State.ChannelsAdvance (s t : State) : Prop where
  nextId : s.nextId ≤ t.nextId
  output : ∃ x, t.output = s.output ++ x
  input : ∃ x, s.input = x ++ t.input

theorem State.ChannelsAdvance.of_same {s t : State} (hn : t.nextId = s.nextId) (ho : t.output = s.output)
    (hi : t.input = s.input) : s.ChannelsAdvance t :=
  ⟨Nat.le_of_eq hn.symm, ⟨[], by simp [ho]⟩, [], by simp [hi]⟩

theorem State.ChannelsAdvance.trans {s t u : State} (h : s.ChannelsAdvance t) (h' : t.ChannelsAdvance u) :
    s.ChannelsAdvance u := by
  obtain ⟨hn, ⟨o, ho⟩, i, hi⟩ := h
  obtain ⟨hn', ⟨o', ho'⟩, i', hi'⟩ := h'
  exact ⟨hn.trans hn', ⟨o ++ o', by rw [ho', ho, List.append_assoc]⟩, i ++ i', by rw [hi, hi', List.append_assoc]⟩

theorem Effect.channelsAdvance {s t : State} (h : Effect s t) : s.ChannelsAdvance t := by
  cases h with
  | none => exact .of_same rfl rfl rfl
  | receiver n p f _ _ _ => exact .of_same (by simp) (by simp) (by simp)
  | memory a v => exact .of_same rfl rfl rfl
  | input taken rest h => exact ⟨Nat.le_refl _, ⟨[], by simp⟩, taken, h⟩
  | output v x => exact ⟨Nat.le_refl _, ⟨x, rfl⟩, [], rfl⟩
  | fork n p d _ _ => exact ⟨Nat.le_succ _, ⟨[], by simp [State.afterFork]⟩, [], rfl⟩
  | priority n p v _ _ =>
    exact .of_same (by simp [State.afterPriority]) (by simp [State.afterPriority]) (by simp [State.afterPriority])

theorem HProg.exec_channelsAdvance (prog : HProg) {s t : State} (h : HProg.exec prog s = .finished t) :
    s.ChannelsAdvance t :=
  HProg.exec_induction (Q := s.ChannelsAdvance) (fun _ _ he hq => hq.trans he.channelsAdvance)
    (fun _ hq => hq.trans (.of_same rfl rfl rfl)) prog (.of_same rfl rfl rfl) h

theorem exec_channelsAdvance {i : Instr} {s t : State} (h : exec i s = .next t) : s.ChannelsAdvance t := by
  rcases exec_next h with ⟨prog, h⟩ | ⟨n, p, k, _, _, rfl⟩
  · exact HProg.exec_channelsAdvance prog h
  · exact .of_same rfl rfl rfl

/-- Settles O19: the fields no instruction writes, the three that only advance, and the phase with its record. -/
theorem instructionsLeaveTheEngineRegisters : Obligations.InstructionsLeaveTheEngineRegisters := by
  intro i s t h
  obtain ⟨hcfg, hcycle, hinitial, hruns, hsnapshot, hreceiver⟩ := exec_frame h
  obtain ⟨hnext, hout, hin⟩ := exec_channelsAdvance h
  exact ⟨hcfg, hcycle, hruns, hinitial, hsnapshot, hreceiver, hnext, hout, hin, exec_phase_abort h⟩

/-! ### Changing the receiver -/

/-- From `s` to `t` the piston located under `n` has become `p'`, and nothing else has changed: no other piston, no id in
either list, no other field. -/
structure State.OnlyPistonChanged (s : State) (n : PistonId) (p' : Piston) (t : State) : Prop where
  located : t.locate n = some p'
  others : ∀ m, m ≠ n → t.locate m = s.locate m
  activeIds : t.active.map Piston.id = s.active.map Piston.id
  detachedIds : t.detached.map Prod.fst = s.detached.map Prod.fst
  frame : t = { s with active := t.active, detached := t.detached }

/-- Changing a located piston by a function that keeps ids changes that piston alone. -/
theorem State.onlyPistonChanged_updatePiston {s : State} {n : PistonId} {p : Piston} (hp : s.locate n = some p)
    {f : Piston → Piston} (hf : ∀ q, (f q).id = q.id) : s.OnlyPistonChanged n (f p) (s.updatePiston n f) where
  located := by rw [State.locate_updatePiston s n hf, if_pos rfl, hp, Option.map_some]
  others := fun m hm => by rw [State.locate_updatePiston s n hf, if_neg hm]
  activeIds := State.active_ids_updatePiston s n hf
  detachedIds := State.detached_ids_updatePiston s n f
  frame := State.updatePiston_frame s n f

section
variable {s : State} {n : PistonId} {p : Piston} (hr : s.receiver = some n) (hp : s.locate n = some p)
include hr hp

/-- A primitive that changes the receiver completes, and changes the receiver alone. -/
theorem State.changeReceiver_spec {f : Piston → Piston} (hf : ReceiverChange s.cfg.maxInteger f) :
    ∃ t, s.changeReceiver f = .done () t ∧ s.OnlyPistonChanged n (f p) t :=
  ⟨s.updatePiston n f, State.withReceiver_some _ hr hp, State.onlyPistonChanged_updatePiston hp hf.id_eq⟩

/-- A primitive that reads the receiver completes with what it reads, and changes nothing. -/
theorem State.readReceiver_some {α : Type} (f : Piston → α) : s.readReceiver f = .done (f p) s :=
  State.withReceiver_some _ hr hp

theorem perform_getReg_val {r : RegName} {v : Nat} {o : Opts} (hc : p.cell r = .val v o) :
    Prim.perform (.getReg r) s = .done v s := by
  have h : Prim.perform (.getReg r) s = _ := State.withReceiver_some _ hr hp
  rw [h, hc]

theorem perform_getReg_unset {r : RegName} (hc : p.cell r = .unset) :
    Prim.perform (.getReg r) s = .raise (.unsetRegisterRead r) := by
  have h : Prim.perform (.getReg r) s = _ := State.withReceiver_some _ hr hp
  rw [h, hc]

end

theorem Piston.cell_setReg (m : Nat) (r q : RegName) (v : Int) (o : Opts) (p : Piston) :
    (Piston.setReg m r v o p).cell q = if q = r then .val (modM m v) o else p.cell q :=
  RegFile.cell_set p.reg r q (modM m v) o

/-- Settles O27: a write changes one cell of the receiver, which then reads as the reduced value. -/
theorem registerWriteThenRead : Obligations.RegisterWriteThenRead := by
  intro s n p r hm hr hp
  refine ⟨fun v o => ?_, fun v o hc => perform_getReg_val hr hp hc, fun hc => perform_getReg_unset hr hp hc⟩
  obtain ⟨t, hset, hlocated, hothers, hactive, hdetached, hframe⟩ := State.changeReceiver_spec hr hp (.setReg r v o)
  have hcell : (Piston.setReg s.cfg.maxInteger r v o p).cell r = .val (modM s.cfg.maxInteger v) o := by
    rw [Piston.cell_setReg, if_pos rfl]
  have hreceiver : t.receiver = some n := by rw [hframe]; exact hr
  exact ⟨t, _, modM s.cfg.maxInteger v, hset, hlocated, hcell, modM_cast hm v, modM_lt hm v,
    perform_getReg_val hreceiver hlocated hcell, rfl, fun q hq => by rw [Piston.cell_setReg, if_neg hq],
    hothers, hactive, hdetached, hframe⟩

/-- Settles O28: each of the five changes is one of `ReceiverChange`, and the three reads answer a field. -/
theorem receiverPrimitiveEffects : Obligations.ReceiverPrimitiveEffects := by
  refine ⟨by decide, fun s n p _ hr hp => ⟨fun prim p' h => ?_, State.readReceiver_some hr hp _,
    State.readReceiver_some hr hp _, State.readReceiver_some hr hp _⟩⟩
  obtain ⟨v, t, hdone, hchanged⟩ : ∃ v t, Prim.perform prim s = .done v t ∧ s.OnlyPistonChanged n p' t := by
    rcases h with ⟨k, rfl, rfl⟩ | ⟨rfl, rfl⟩ | ⟨rfl, rfl⟩ | ⟨rfl, rfl⟩ | ⟨rfl, rfl⟩
    · exact ⟨(), State.changeReceiver_spec hr hp (.move k)⟩
    · exact ⟨(), State.changeReceiver_spec hr hp .turnLeft⟩
    · exact ⟨(), State.changeReceiver_spec hr hp .turnRight⟩
    · exact ⟨(), State.changeReceiver_spec hr hp .turnBack⟩
    · exact ⟨(), State.changeReceiver_spec hr hp .markEnded⟩
  obtain ⟨hlocated, hothers, hactive, hdetached, hframe⟩ := hchanged
  exact ⟨v, t, hdone, hlocated, hothers, hactive, hdetached, hframe⟩

/-! ### Memory -/

/-- Writing what the address already holds changes nothing. -/
theorem Memory.write_read {m : Memory} (h : Memory.wf m) (a : Nat) : m.write a (m.read a) = m := by
  refine Memory.ext_of_read (Memory.write_wf h a _) h fun b => ?_
  rw [Memory.read_write]
  split
  · subst b; rfl
  · rfl

/-- Writing twice is writing once (20_memory.md R84): the second write writes what the address holds. -/
theorem Memory.write_write {m : Memory} (h : Memory.wf m) (a v : Nat) : (m.write a v).write a v = m.write a v := by
  have hread : (m.write a v).read a = v := by rw [Memory.read_write, if_pos rfl]
  calc (m.write a v).write a v = (m.write a v).write a ((m.write a v).read a) := by rw [hread]
    _ = m.write a v := Memory.write_read (Memory.write_wf h a v) a

/-- Settles O40: canonical maps are determined by their reads, and the laws of a write follow from that. -/
theorem memoryIsItsReads : Obligations.MemoryIsItsReads :=
  ⟨fun _ _ h h' e => Memory.ext_of_read h h' e,
    fun _ a v h => ⟨Memory.write_wf h a v, Memory.write_write h a v, Memory.write_read h a⟩⟩

/-! ### The counters -/

/-- The state with other values of the cycle counter and the run counter. -/
def State.withCounters (c r : Nat) (s : State) : State := { s with cycle := c, runs := r }

/-- The end of a primitive with its state changed. -/
def PrimOut.mapState {α : Type} (g : State → State) : PrimOut α → PrimOut α
  | .done v s => .done v (g s)
  | .stop s => .stop (g s)
  | .raise k => .raise k
  | .lost => .lost

section
variable (c r : Nat) (s : State)

/-- A primitive on the receiver commutes with the counters if what it does with the piston does. -/
theorem State.withReceiver_withCounters {α : Type} {f g : PistonId → Piston → PrimOut α}
    (h : ∀ n p, f n p = (g n p).mapState (State.withCounters c r)) :
    (s.withCounters c r).withReceiver f = (s.withReceiver g).mapState (State.withCounters c r) := by
  have hr : (s.withCounters c r).receiver = s.receiver := rfl
  have hl : ∀ n, (s.withCounters c r).locate n = s.locate n := fun _ => rfl
  unfold State.withReceiver
  rw [hr]
  cases s.receiver with
  | none => rfl
  | some n =>
    simp only [hl]
    cases s.locate n with
    | none => rfl
    | some p => exact h n p

theorem State.updatePiston_withCounters (n : PistonId) (f : Piston → Piston) :
    (s.withCounters c r).updatePiston n f = (s.updatePiston n f).withCounters c r := by
  have hd : (s.withCounters c r).detached = s.detached := rfl
  unfold State.updatePiston
  rw [hd]
  cases Map.get s.detached n <;> rfl

theorem State.detach_withCounters (n : PistonId) (p : Piston) :
    (s.withCounters c r).detach n p = (s.detach n p).withCounters c r := by
  have hd : (s.withCounters c r).detached = s.detached := rfl
  unfold State.detach
  rw [hd]
  cases Map.get s.detached n <;> rfl

theorem State.changeReceiver_withCounters (f : Piston → Piston) :
    (s.withCounters c r).changeReceiver f = (s.changeReceiver f).mapState (State.withCounters c r) :=
  State.withReceiver_withCounters c r s fun n _ => by rw [State.updatePiston_withCounters]; rfl

theorem State.readReceiver_withCounters {α : Type} (f : Piston → α) :
    (s.withCounters c r).readReceiver f = (s.readReceiver f).mapState (State.withCounters c r) :=
  State.withReceiver_withCounters c r s fun _ _ => rfl

theorem primSetPriority_withCounters (v : Int) :
    primSetPriority v (s.withCounters c r) = (primSetPriority v s).mapState (State.withCounters c r) :=
  State.withReceiver_withCounters c r s fun n p => by rw [State.detach_withCounters]; rfl

theorem primGetReg_withCounters (q : RegName) :
    primGetReg q (s.withCounters c r) = (primGetReg q s).mapState (State.withCounters c r) :=
  State.withReceiver_withCounters c r s fun _ p => by cases p.cell q <;> rfl

theorem primInChar_withCounters :
    primInChar (s.withCounters c r) = (primInChar s).mapState (State.withCounters c r) := by
  have hi : (s.withCounters c r).input = s.input := rfl
  unfold primInChar
  rw [hi]
  cases s.input <;> rfl

theorem primOutToken_withCounters (x : Text) :
    primOutToken x (s.withCounters c r) = (primOutToken x s).mapState (State.withCounters c r) := by
  unfold primOutToken
  cases tokenValue x <;> rfl

/-- No primitive reads or writes the counters (60_exceptions.md R393): performing it commutes with replacing them. -/
theorem Prim.perform_withCounters (prim : Prim) :
    Prim.perform prim (s.withCounters c r) = (Prim.perform prim s).mapState (State.withCounters c r) := by
  cases prim with
  | move n => exact State.changeReceiver_withCounters c r s _
  | turnLeft => exact State.changeReceiver_withCounters c r s _
  | turnRight => exact State.changeReceiver_withCounters c r s _
  | reverse => exact State.changeReceiver_withCounters c r s _
  | setReg q v o => exact State.changeReceiver_withCounters c r s _
  | endPiston => exact State.changeReceiver_withCounters c r s _
  | getPos => exact State.readReceiver_withCounters c r s _
  | getDir => exact State.readReceiver_withCounters c r s _
  | getPrio => exact State.readReceiver_withCounters c r s _
  | getReg q => exact primGetReg_withCounters c r s q
  | fork d => exact State.withReceiver_withCounters c r s fun _ _ => rfl
  | setPriority v => exact primSetPriority_withCounters c r s v
  | kill => rfl
  | memRead a => rfl
  | memWrite a v => rfl
  | inNum => rfl
  | inChar => exact primInChar_withCounters c r s
  | outNum n => rfl
  | outToken x => exact primOutToken_withCounters c r s x

end

/-- What a fold of `spawn` writes. -/
theorem spawn_fold_frame (sps : List StartPoint) (s : State) :
    sps.foldl State.spawn s =
      { s with active := (sps.foldl State.spawn s).active, nextId := (sps.foldl State.spawn s).nextId } := by
  induction sps generalizing s with
  | nil => rfl
  | cons sp sps ih => rw [List.foldl_cons, ih]; rfl

/-- Seeding writes the active list and the id generator, and nothing else. -/
theorem State.seed_frame (s : State) : s.seed = { s with active := s.seed.active, nextId := s.seed.nextId } :=
  spawn_fold_frame s.cfg.startPoints s

/-- Reset clears the cycle counter and counts a run (60_exceptions.md R393). -/
theorem State.resetProcedure_counters (s : State) :
    s.resetProcedure.cycle = 0 ∧ s.resetProcedure.runs = s.runs + 1 := by
  have hcycle : s.resetProcedure.cycle = s.clear.seed.cycle := rfl
  have hruns : s.resetProcedure.runs = s.clear.seed.runs := rfl
  rw [hcycle, hruns, State.seed_frame s.clear]
  exact ⟨rfl, rfl⟩

/-- A cycle keeps the parameters and the run counter, and counts itself unless it aborts (60_exceptions.md R387). -/
theorem State.runCycle_frame {s t : State} (h : s.runCycle = .next t) :
    t.cfg = s.cfg ∧ t.runs = s.runs ∧
      ((t.phase = .aborted ∧ t.cycle = s.cycle) ∨ (t.phase ≠ .aborted ∧ t.cycle = s.cycle + 1)) := by
  obtain ⟨u, hu, hend⟩ := State.runCycle_end h
  obtain ⟨hcfg, hcycle, _, hruns⟩ := runPass_frame hu
  rcases hend with ⟨hp, rfl⟩ | ⟨_, rfl⟩
  · exact ⟨hcfg, hruns, .inl ⟨hp, hcycle⟩⟩
  · have hcount : u.finishCycle.cycle = s.cycle + 1 := by rw [State.finishCycle_frame, hcycle]; rfl
    rw [State.finishCycle_frame] at hcount ⊢
    exact ⟨hcfg, hruns, .inr ⟨phaseAfterCycle_ne_aborted _, hcount⟩⟩

/-- No step writes the parameters (10_state.md R58) or the run counter (60_exceptions.md R393). -/
theorem step_frame {s t : State} (h : step s = .next t) : t.cfg = s.cfg ∧ t.runs = s.runs := by
  obtain ⟨_, ⟨_, rfl⟩ | ⟨_, hrun⟩⟩ := stepCycle_cases h
  · exact ⟨rfl, rfl⟩
  · obtain ⟨hcfg, hruns, _⟩ := State.runCycle_frame hrun
    exact ⟨hcfg, hruns⟩

/-- A step in ENDED or ABORTED is no cycle, so it is not counted. -/
theorem step_cycle_of_idle {s t : State} (h : step s = .next t) (hp : s.phase = .ended ∨ s.phase = .aborted) :
    t.cycle = s.cycle := by
  obtain ⟨_, ⟨_, rfl⟩ | ⟨hbusy, _⟩⟩ := stepCycle_cases h
  · rfl
  · rcases hp with e | e <;> simp [e] at hbusy

/-- A step in READY or RUNNING is a cycle. -/
theorem runCycle_of_step {s t : State} (h : step s = .next t) (hp : s.phase = .ready ∨ s.phase = .running) :
    s.runCycle = .next t := by
  obtain ⟨_, ⟨hidle, _⟩ | ⟨_, hrun⟩⟩ := stepCycle_cases h
  · rcases hp with e | e <;> simp [e] at hidle
  · exact hrun

/-- Settles O50: the counters after reset and after a step, and the primitives' blindness to both. -/
theorem cycleCounterCountsExecutedCycles : Obligations.CycleCounterCountsExecutedCycles := by
  refine ⟨State.resetProcedure_counters, fun prim s c r => ?_, fun s t h => ?_⟩
  · have hcomm := Prim.perform_withCounters c r s prim
    refine ⟨fun v t h => ?_, fun t h => ?_, fun k h => ?_⟩ <;> rw [h] at hcomm <;> exact hcomm
  · refine ⟨(step_frame h).2, rfl, fun hp hn => ?_, fun hp ha => ?_, step_cycle_of_idle h, rfl⟩
    · obtain ⟨_, _, ⟨ha, _⟩ | ⟨_, hcycle⟩⟩ := State.runCycle_frame (runCycle_of_step h hp)
      · exact absurd ha hn
      · exact hcycle
    · obtain ⟨_, _, ⟨_, hcycle⟩ | ⟨hn, _⟩⟩ := State.runCycle_frame (runCycle_of_step h hp)
      · exact hcycle
      · exact absurd ha hn

/-- Settles O59: the fetch and the decoder read the parameters, which no step writes. -/
theorem parametersNeverChange : Obligations.ParametersNeverChange := by
  intro s t h
  obtain ⟨hcfg, _⟩ := step_frame h
  exact ⟨hcfg, fun p => by unfold State.fetch; rw [hcfg], fun w => by rw [hcfg]⟩

/-! ### The state after reset -/

/-- Settles O54: the registry of the test configuration passes its checks, and with no start point nothing is spawned. -/
theorem resetStateIsANewEngine : Obligations.ResetStateIsANewEngine := rfl

theorem State.reset_held : State.reset.Held where
  modulus := by decide
  memory := Memory.nil_wf
  bounds := nofun
  unique := .nil
  given := nofun
  pool := ⟨.nil, nofun⟩
  requests := ⟨.nil, fun _ => .rfl⟩

/-- Settles O55: the state after reset holds no piston, queues nothing, and is ENDED without a record. -/
theorem resetStateIsSound : Obligations.ResetStateIsSound where
  held := State.reset_held
  record := by decide
  drained := fun _ => ⟨rfl, rfl⟩
  live := fun _ => nofun
  ended := fun _ => iff_of_true rfl rfl
  idle := ⟨rfl, rfl, rfl⟩

end Sys2Proof.Machine
end

section
/-!
The encoding family (30_encoding.md): the word layouts, the decoder described once by the encoder and the rows' conditions,
the `META_D5` words, and the abort of the three error forms.
-/
namespace Sys2Proof

/-! ### A word and its fields -/

section
variable {w : Word24} {cc : BitVec 4} {mc reg : BitVec 3} {opts : BitVec 2} {arg : BitVec 12}

/-- The two fields of a plain word (30_encoding.md R113). -/
theorem encode_plainDispatch_eq_iff {tail : BitVec 20} :
    encode (.plainDispatch cc tail) = w ↔ ccOf w = cc ∧ tailOf w = tail := by
  simp only [← BitVec.toNat_inj, encode_plainDispatch_toNat, ccOf_toNat, tailOf_toNat]
  omega

/-- The five fields of a layout-A word (R114). -/
theorem encode_metaADispatch_eq_iff :
    encode (.metaADispatch cc mc reg opts arg) = w ↔
      ccOf w = cc ∧ mcOf w = mc ∧ regOf w = reg ∧ optsOf w = opts ∧ argAOf w = arg := by
  simp only [← BitVec.toNat_inj, encode_metaADispatch_toNat, ccOf_toNat, mcOf_toNat, regOf_toNat, optsOf_toNat,
    argAOf_toNat]
  omega

/-- The three fields of a layout-B word (R116). -/
theorem encode_metaBDispatch_eq_iff {arg : BitVec 17} :
    encode (.metaBDispatch cc mc arg) = w ↔ ccOf w = cc ∧ mcOf w = mc ∧ argBOf w = arg := by
  simp only [← BitVec.toNat_inj, encode_metaBDispatch_toNat, ccOf_toNat, mcOf_toNat, argBOf_toNat]
  omega

/-- The fields read before a register selector is refused, and the bits left unread (40_decode_dispatch.md R155). -/
theorem encode_invalidRegisterSelector_eq_iff {rest : BitVec 14} :
    encode (.invalidRegisterSelector cc mc reg rest) = w ↔
      ccOf w = cc ∧ mcOf w = mc ∧ regOf w = reg ∧ belowRegOf w = rest := by
  simp only [← BitVec.toNat_inj, encode_invalidRegisterSelector_toNat, ccOf_toNat, mcOf_toNat, regOf_toNat,
    belowRegOf_toNat]
  omega

/-- The fields of a `META_D5` word: layout A, the control code and the meta command fixed (R119). -/
theorem encode_metaD5_eq_iff :
    encode (.metaD5 reg opts arg) = w ↔
      ccOf w = 0xD ∧ mcOf w = 5 ∧ regOf w = reg ∧ optsOf w = opts ∧ argAOf w = arg :=
  encode_metaADispatch_eq_iff

theorem encode_decodeErrorCc_eq_iff {rest : BitVec 20} :
    encode (.decodeErrorCc cc rest) = w ↔ ccOf w = cc ∧ tailOf w = rest :=
  encode_plainDispatch_eq_iff

theorem encode_decodeErrorMc_eq_iff {rest : BitVec 17} :
    encode (.decodeErrorMc cc mc rest) = w ↔ ccOf w = cc ∧ mcOf w = mc ∧ argBOf w = rest :=
  encode_metaBDispatch_eq_iff

end

/-! ### The rows' conditions (40_decode_dispatch.md R152–R155) -/

section
variable {c : Config} {cc : BitVec 4} {mc reg : BitVec 3} {opts : BitVec 2} {arg : BitVec 12}

theorem Instr.wf_metaD5_iff :
    (Instr.metaD5 reg opts arg).wf c = true ↔
      c.registry.layout 0xD = .metaA ∧ (c.registry.metaHandler 0xD 5).isSome = true ∧ (c.selReg reg).isSome = true := by
  simp only [Instr.wf, Bool.and_eq_true, beq_iff_eq, and_assoc]

theorem Instr.wf_plainDispatch_iff {tail : BitVec 20} :
    (Instr.plainDispatch cc tail).wf c = true ↔ c.registry.layout cc = .plain :=
  beq_iff_eq

theorem Instr.wf_metaADispatch_iff :
    (Instr.metaADispatch cc mc reg opts arg).wf c = true ↔
      c.registry.layout cc = .metaA ∧ (c.registry.metaHandler cc mc).isSome = true ∧ (c.selReg reg).isSome = true ∧
        ¬ (cc = 0xD ∧ mc = 5) := by
  simp only [Instr.wf, Bool.and_eq_true, beq_iff_eq, Bool.not_eq_true', Bool.eq_false_iff, ne_eq, and_assoc]

theorem Instr.wf_metaBDispatch_iff {arg : BitVec 17} :
    (Instr.metaBDispatch cc mc arg).wf c = true ↔
      c.registry.layout cc = .metaB ∧ (c.registry.metaHandler cc mc).isSome = true := by
  simp only [Instr.wf, Bool.and_eq_true, beq_iff_eq]

theorem Instr.wf_decodeErrorCc_iff {rest : BitVec 20} :
    (Instr.decodeErrorCc cc rest).wf c = true ↔ c.registry.layout cc = .none :=
  beq_iff_eq

theorem Instr.wf_decodeErrorMc_iff {rest : BitVec 17} :
    (Instr.decodeErrorMc cc mc rest).wf c = true ↔
      (c.registry.layout cc = .metaA ∨ c.registry.layout cc = .metaB) ∧ c.registry.metaHandler cc mc = none := by
  simp only [Instr.wf, Bool.and_eq_true, Bool.or_eq_true, beq_iff_eq, Option.isNone_iff_eq_none]

theorem Instr.wf_invalidRegisterSelector_iff {rest : BitVec 14} :
    (Instr.invalidRegisterSelector cc mc reg rest).wf c = true ↔
      c.registry.layout cc = .metaA ∧ (c.registry.metaHandler cc mc).isSome = true ∧ c.selReg reg = none := by
  simp only [Instr.wf, Bool.and_eq_true, beq_iff_eq, Option.isNone_iff_eq_none, and_assoc]

end

/-! ### The decoder -/

section
variable (c : Config) (w : Word24)

theorem encode_decodeFieldsA : encode (decodeFieldsA c w) = w := by
  unfold decodeFieldsA
  split
  · exact encode_invalidRegisterSelector_eq_iff.2 ⟨rfl, rfl, rfl, rfl⟩
  · split
    · rename_i hd5
      exact encode_metaD5_eq_iff.2 ⟨hd5.1, hd5.2, rfl, rfl, rfl⟩
    · exact encode_metaADispatch_eq_iff.2 ⟨rfl, rfl, rfl, rfl, rfl⟩

/-- The instruction decoded from a word holds every field of it. -/
theorem encode_decode : encode (decode c w) = w := by
  unfold decode
  split
  case h_1 => exact encode_decodeErrorCc_eq_iff.2 ⟨rfl, rfl⟩
  case h_2 => exact encode_plainDispatch_eq_iff.2 ⟨rfl, rfl⟩
  case h_3 =>
    split
    · exact encode_decodeErrorMc_eq_iff.2 ⟨rfl, rfl, rfl⟩
    · exact encode_decodeFieldsA c w
  case h_4 =>
    split
    · exact encode_decodeErrorMc_eq_iff.2 ⟨rfl, rfl, rfl⟩
    · exact encode_metaBDispatch_eq_iff.2 ⟨rfl, rfl, rfl⟩

theorem decodeFieldsA_wf (hl : c.registry.layout (ccOf w) = .metaA)
    (hh : (c.registry.metaHandler (ccOf w) (mcOf w)).isSome = true) : (decodeFieldsA c w).wf c = true := by
  unfold decodeFieldsA
  split
  case h_1 hr => exact Instr.wf_invalidRegisterSelector_iff.2 ⟨hl, hh, hr⟩
  case h_2 hr =>
    have hsel : (c.selReg (regOf w)).isSome = true := Option.isSome_of_eq_some hr
    split
    case isTrue hd5 =>
      rw [hd5.1] at hl
      rw [hd5.1, hd5.2] at hh
      exact Instr.wf_metaD5_iff.2 ⟨hl, hh, hsel⟩
    case isFalse hd5 => exact Instr.wf_metaADispatch_iff.2 ⟨hl, hh, hsel, hd5⟩

/-- Each branch of the decoder has established the condition of the row it answers with. -/
theorem decode_wf : (decode c w).wf c = true := by
  unfold decode
  split
  case h_1 hl => exact Instr.wf_decodeErrorCc_iff.2 hl
  case h_2 hl => exact Instr.wf_plainDispatch_iff.2 hl
  case h_3 hl =>
    split
    case h_1 hm => exact Instr.wf_decodeErrorMc_iff.2 ⟨.inl hl, hm⟩
    case h_2 hm => exact decodeFieldsA_wf c w hl (Option.isSome_of_eq_some hm)
  case h_4 hl =>
    split
    case h_1 hm => exact Instr.wf_decodeErrorMc_iff.2 ⟨.inr hl, hm⟩
    case h_2 hm => exact Instr.wf_metaBDispatch_iff.2 ⟨hl, Option.isSome_of_eq_some hm⟩

end

/-- The condition of a row decides every branch of the decoder, so a well-formed instruction is what its word decodes to. -/
theorem decode_eq_of_wf {c : Config} {w : Word24} {i : Instr} (hw : encode i = w) (h : i.wf c = true) :
    decode c w = i := by
  cases i with
  | metaD5 reg opts arg =>
    obtain ⟨hcc, hmc, rfl, rfl, rfl⟩ := encode_metaD5_eq_iff.1 hw
    obtain ⟨hl, hm, hr⟩ := Instr.wf_metaD5_iff.1 h
    obtain ⟨m, hm⟩ := Option.isSome_iff_exists.1 hm
    obtain ⟨r, hr⟩ := Option.isSome_iff_exists.1 hr
    simp only [decode, decodeFieldsA, hcc, hmc, hl, hm, hr, and_self, if_true]
  | plainDispatch cc tail =>
    obtain ⟨rfl, rfl⟩ := encode_plainDispatch_eq_iff.1 hw
    simp only [decode, Instr.wf_plainDispatch_iff.1 h]
  | metaADispatch cc mc reg opts arg =>
    obtain ⟨rfl, rfl, rfl, rfl, rfl⟩ := encode_metaADispatch_eq_iff.1 hw
    obtain ⟨hl, hm, hr, hd5⟩ := Instr.wf_metaADispatch_iff.1 h
    obtain ⟨m, hm⟩ := Option.isSome_iff_exists.1 hm
    obtain ⟨r, hr⟩ := Option.isSome_iff_exists.1 hr
    simp only [decode, decodeFieldsA, hl, hm, hr, hd5, if_false]
  | metaBDispatch cc mc arg =>
    obtain ⟨rfl, rfl, rfl⟩ := encode_metaBDispatch_eq_iff.1 hw
    obtain ⟨hl, hm⟩ := Instr.wf_metaBDispatch_iff.1 h
    obtain ⟨m, hm⟩ := Option.isSome_iff_exists.1 hm
    simp only [decode, hl, hm]
  | decodeErrorCc cc rest =>
    obtain ⟨rfl, rfl⟩ := encode_decodeErrorCc_eq_iff.1 hw
    simp only [decode, Instr.wf_decodeErrorCc_iff.1 h]
  | decodeErrorMc cc mc rest =>
    obtain ⟨rfl, rfl, rfl⟩ := encode_decodeErrorMc_eq_iff.1 hw
    obtain ⟨hl | hl, hm⟩ := Instr.wf_decodeErrorMc_iff.1 h <;> simp only [decode, hl, hm]
  | invalidRegisterSelector cc mc reg rest =>
    obtain ⟨rfl, rfl, rfl, rfl⟩ := encode_invalidRegisterSelector_eq_iff.1 hw
    obtain ⟨hl, hm, hr⟩ := Instr.wf_invalidRegisterSelector_iff.1 h
    obtain ⟨m, hm⟩ := Option.isSome_iff_exists.1 hm
    simp only [decode, decodeFieldsA, hl, hm, hr]

/-- What the decoder does, said once: a word decodes to the well-formed instruction that encodes to it. -/
theorem decode_eq_iff {c : Config} {w : Word24} {i : Instr} : decode c w = i ↔ encode i = w ∧ i.wf c = true := by
  constructor
  · rintro rfl
    exact ⟨encode_decode c w, decode_wf c w⟩
  · rintro ⟨hw, h⟩
    exact decode_eq_of_wf hw h

/-- Settles O1: of the two conditions of `decode_eq_iff`, the one on the word holds of `encode i` by definition. -/
theorem decodeOfEncodeExactlyOnWellFormed : Obligations.DecodeOfEncodeExactlyOnWellFormed :=
  fun _ _ => decode_eq_iff.trans (and_iff_right rfl)

/-- Settles O2: every branch of the decoder keeps all fields of its layout. -/
theorem encodeOfDecodeGivesTheWordBack : Obligations.EncodeOfDecodeGivesTheWordBack := encode_decode

/-! ### The `META_D5` words -/

/-- A registry passes its initialisation when it passes the five checks (40_decode_dispatch.md R157). -/
theorem Registry.initError_none (r : Registry) :
    r.initError = none ↔ r.rangeError = none ∧ r.duplicateError = none ∧ r.mixedError = none ∧
      r.familyError = none ∧ r.d5Error = none := by
  unfold Registry.initError
  split
  · simp [*]
  · split
    · simp [*]
    · split
      · simp [*]
      · split <;> simp [*]

/-- By check 4, a control code with a family layout has no plain handler. -/
theorem Registry.plainHandler_eq_none {r : Registry} (hr : r.initError = none) {cc : BitVec 4}
    (hf : r.family cc.toNat ≠ none) : r.plainHandler cc = none := by
  obtain ⟨hrange, -, -, hfamily, -⟩ := r.initError_none.1 hr
  have hplain := (r.familyError_none (r.rangeError_none.1 hrange)).1 hfamily
  refine List.find?_eq_none.2 fun h hmem hkey => hf ?_
  simp only [Bool.and_eq_true, beq_iff_eq] at hkey
  obtain ⟨hcc, hmc⟩ := hkey
  have hnone : r.family h.cc.toNat = none := (hplain h hmem).1 hmc
  rwa [hcc] at hnone

/-- By check 5, the control code of `META_D5` is a register family. -/
theorem Registry.layout_d5 {r : Registry} (hr : r.initError = none) : r.layout 0xD = .metaA := by
  obtain ⟨-, -, -, -, hd5⟩ := r.initError_none.1 hr
  have hfamily : r.family (0xD : BitVec 4).toNat = some .a := (r.d5Error_none.1 hd5).2
  have hplain : r.plainHandler 0xD = none := Registry.plainHandler_eq_none hr (hfamily ▸ Option.some_ne_none _)
  simp only [Registry.layout, hplain, hfamily, Option.isSome_none, Bool.false_eq_true, if_false]

/-- By check 5, the handler of `META_D5` is there. -/
theorem Registry.metaHandler_d5 {r : Registry} (hr : r.initError = none) : (r.metaHandler 0xD 5).isSome = true := by
  obtain ⟨-, -, -, -, hd5⟩ := r.initError_none.1 hr
  obtain ⟨⟨h, hmem, hcc, hmc, -⟩, -⟩ := r.d5Error_none.1 hd5
  exact List.find?_isSome.2 ⟨h, hmem, by simp [hcc, hmc]⟩

/-- With a registry that passed its initialisation, the selector alone decides whether `META_D5` is well formed. -/
theorem Instr.wf_metaD5_iff_selReg {c : Config} (hr : c.registry.initError = none) {reg : BitVec 3} {opts : BitVec 2}
    {arg : BitVec 12} : (Instr.metaD5 reg opts arg).wf c = true ↔ (c.selReg reg).isSome = true :=
  Instr.wf_metaD5_iff.trans
    ⟨fun ⟨_, _, hsel⟩ => hsel, fun hsel => ⟨Registry.layout_d5 hr, Registry.metaHandler_d5 hr, hsel⟩⟩

/-- The mask of R119 keeps the control code and the meta command, and clears the rest. -/
theorem and_d5Mask (w : Word24) : w &&& 0xFE0000 = encode (.metaBDispatch (ccOf w) (mcOf w) 0) := by
  have hw : ccOf w ++ mcOf w ++ argBOf w = w := encode_metaBDispatch_eq_iff.2 ⟨rfl, rfl, rfl⟩
  have hmask : (0xFE0000 : Word24) = BitVec.allOnes 4 ++ BitVec.allOnes 3 ++ 0#17 := by decide
  calc w &&& 0xFE0000
      = (ccOf w ++ mcOf w ++ argBOf w) &&& (BitVec.allOnes 4 ++ BitVec.allOnes 3 ++ 0#17) := by rw [hw, hmask]
    _ = ccOf w ++ mcOf w ++ 0#17 := by simp only [BitVec.and_append, BitVec.and_allOnes, BitVec.and_zero]

/-- The words of the mask and match of R119 are those of control code 0xD and meta command 5. -/
theorem and_d5Mask_eq_iff (w : Word24) : w &&& 0xFE0000 = 0xDA0000 ↔ ccOf w = 0xD ∧ mcOf w = 5 := by
  have hcc : ccOf 0xDA0000 = 0xD := by decide
  have hmc : mcOf 0xDA0000 = 5 := by decide
  have harg : argBOf 0xDA0000 = 0 := by decide
  rw [and_d5Mask, encode_metaBDispatch_eq_iff, hcc, hmc, harg, and_iff_left rfl, eq_comm, @eq_comm _ 5]

/-- Those two fields say where the word lies. -/
theorem d5Fields_iff_range (w : Word24) :
    (ccOf w = 0xD ∧ mcOf w = 5) ↔ 0xDA0000 ≤ w.toNat ∧ w.toNat ≤ 0xDBFFFF := by
  have hcc : (0xD : BitVec 4).toNat = 13 := rfl
  have hmc : (5 : BitVec 3).toNat = 5 := rfl
  rw [← BitVec.toNat_inj, ← BitVec.toNat_inj, ccOf_toNat, mcOf_toNat, hcc, hmc]
  omega

/-- Settles O5: `META_D5` is the row of control code 0xD and meta command 5, once its selector has been accepted. -/
theorem metaD5WordsAreTheMaskMatch : Obligations.MetaD5WordsAreTheMaskMatch := by
  intro c w hr
  rw [and_d5Mask_eq_iff]
  refine ⟨d5Fields_iff_range w, ?_⟩
  simp only [decode_eq_iff, encode_metaD5_eq_iff, Instr.wf_metaD5_iff_selReg hr]
  constructor
  · rintro ⟨reg, opts, arg, ⟨hcc, hmc, rfl, -, -⟩, hsel⟩
    exact ⟨⟨hcc, hmc⟩, hsel⟩
  · rintro ⟨⟨hcc, hmc⟩, hsel⟩
    exact ⟨_, _, _, ⟨hcc, hmc, rfl, rfl, rfl⟩, hsel⟩

/-! ### Words of the spec and the error forms -/

/-- Settles O4: each word is put together from the fields written, and each instruction fits the test registry. -/
theorem specWordsDecodeAsWritten : Obligations.SpecWordsDecodeAsWritten := by
  simp only [Obligations.SpecWordsDecodeAsWritten, decode_eq_iff]
  decide

end Sys2Proof

namespace Sys2Proof.Machine

/-- Settles O20: an error form raises its kind with its own word, and raising with a receiver takes the abort. -/
theorem illegalFormsTakeTheirAbort : Obligations.IllegalFormsTakeTheirAbort :=
  fun _ _ _ hr hp => ⟨fun _ _ => State.raiseStep_some hr hp _ _, fun _ _ _ => State.raiseStep_some hr hp _ _,
    fun _ _ _ _ => State.raiseStep_some hr hp _ _⟩

end Sys2Proof.Machine
end

section
/-!
The decoding family (40_decode_dispatch.md), first part: the registry's lookups and its initialisation (R153, R154, R157),
what each kind of word decodes to, and the errors the decoder reports, in their order (R152–R155).
-/
namespace Sys2Proof

/-- Settles O3: each branch of the decoder has established its row's condition, which is `decode_wf`. -/
theorem everyWordDecodesToAWellFormedInstruction : Obligations.EveryWordDecodesToAWellFormedInstruction := decode_wf

/-! ### The lookups of the registry -/

section
variable {r : Registry}

/-- By check 2, the two fields of its key determine a handler. -/
theorem Registry.handler_unique (hr : r.initError = none) {g h : Handler} (hg : g ∈ r.handlers) (hh : h ∈ r.handlers)
    (hcc : g.cc = h.cc) (hmc : g.mc = h.mc) : g = h := by
  obtain ⟨-, hdup, -⟩ := r.initError_none.1 hr
  have hkey : g.key = h.key := by simp only [Handler.key, hcc, hmc]
  exact List.inj_on_of_nodup_map (r.duplicateError_none.1 hdup) hg hh hkey

/-- The lookup of a key finds exactly the entry that has it. -/
theorem Registry.find_key_eq_some_iff (hr : r.initError = none) {a b : Int} {h : Handler} :
    (r.handlers.find? fun g => g.cc == a && g.mc == b) = some h ↔ h ∈ r.handlers ∧ h.cc = a ∧ h.mc = b := by
  constructor
  · intro hfind
    have hkey := List.find?_some hfind
    simp only [Bool.and_eq_true, beq_iff_eq] at hkey
    exact ⟨List.mem_of_find?_eq_some hfind, hkey⟩
  · rintro ⟨hmem, rfl, rfl⟩
    obtain ⟨g, hfind⟩ : ∃ g, (r.handlers.find? fun g => g.cc == h.cc && g.mc == h.mc) = some g :=
      Option.isSome_iff_exists.1 (List.find?_isSome.2 ⟨h, hmem, by simp⟩)
    have hkey := List.find?_some hfind
    simp only [Bool.and_eq_true, beq_iff_eq] at hkey
    rw [hfind, Registry.handler_unique hr (List.mem_of_find?_eq_some hfind) hmem hkey.1 hkey.2]

theorem Registry.plainHandler_eq_some_iff (hr : r.initError = none) {cc : BitVec 4} {h : Handler} :
    r.plainHandler cc = some h ↔ h ∈ r.handlers ∧ h.cc = cc.toNat ∧ h.mc = -1 :=
  Registry.find_key_eq_some_iff hr

theorem Registry.metaHandler_eq_some_iff (hr : r.initError = none) {cc : BitVec 4} {mc : BitVec 3} {h : Handler} :
    r.metaHandler cc mc = some h ↔ h ∈ r.handlers ∧ h.cc = cc.toNat ∧ h.mc = mc.toNat :=
  Registry.find_key_eq_some_iff hr

end

/-! ### The category of a control code (R157) -/

section
variable (r : Registry) (cc : BitVec 4)

theorem Registry.plainHandler_isSome_iff :
    (r.plainHandler cc).isSome = true ↔ ∃ h ∈ r.handlers, h.cc = cc.toNat ∧ h.mc = -1 := by
  simp only [Registry.plainHandler, List.find?_isSome, Bool.and_eq_true, beq_iff_eq]

theorem Registry.layout_eq_plain_iff_isSome : r.layout cc = .plain ↔ (r.plainHandler cc).isSome = true := by
  unfold Registry.layout
  split
  case isTrue h => exact iff_of_true rfl h
  case isFalse h => split <;> exact iff_of_false (by simp) h

theorem Registry.layout_eq_plain_iff : r.layout cc = .plain ↔ ∃ h ∈ r.handlers, h.cc = cc.toNat ∧ h.mc = -1 :=
  (r.layout_eq_plain_iff_isSome cc).trans (r.plainHandler_isSome_iff cc)

/-- Without a plain handler the category is the family's layout. -/
theorem Registry.layout_of_ne_plain (h : r.layout cc ≠ .plain) :
    (r.layout cc = .metaA ↔ r.family cc.toNat = some .a) ∧ (r.layout cc = .metaB ↔ r.family cc.toNat = some .b) ∧
      (r.layout cc = .none ↔ r.family cc.toNat = none) := by
  have hplain : ¬ (r.plainHandler cc).isSome = true := fun hp => h ((r.layout_eq_plain_iff_isSome cc).2 hp)
  simp only [Registry.layout, if_neg hplain]
  split <;> simp [*]

end

/-! ### What each kind of word decodes to -/

section
variable {c : Config} {w : Word24}

theorem decode_of_layout_none (hl : c.registry.layout (ccOf w) = .none) :
    decode c w = .decodeErrorCc (ccOf w) (tailOf w) :=
  decode_eq_iff.2 ⟨encode_decodeErrorCc_eq_iff.2 ⟨rfl, rfl⟩, Instr.wf_decodeErrorCc_iff.2 hl⟩

theorem decode_of_layout_plain (hl : c.registry.layout (ccOf w) = .plain) :
    decode c w = .plainDispatch (ccOf w) (tailOf w) :=
  decode_eq_iff.2 ⟨encode_plainDispatch_eq_iff.2 ⟨rfl, rfl⟩, Instr.wf_plainDispatch_iff.2 hl⟩

theorem decode_of_no_metaHandler
    (hl : c.registry.layout (ccOf w) = .metaA ∨ c.registry.layout (ccOf w) = .metaB)
    (hm : c.registry.metaHandler (ccOf w) (mcOf w) = none) :
    decode c w = .decodeErrorMc (ccOf w) (mcOf w) (argBOf w) :=
  decode_eq_iff.2 ⟨encode_decodeErrorMc_eq_iff.2 ⟨rfl, rfl, rfl⟩, Instr.wf_decodeErrorMc_iff.2 ⟨hl, hm⟩⟩

theorem decode_of_layout_metaB (hl : c.registry.layout (ccOf w) = .metaB)
    (hm : (c.registry.metaHandler (ccOf w) (mcOf w)).isSome = true) :
    decode c w = .metaBDispatch (ccOf w) (mcOf w) (argBOf w) :=
  decode_eq_iff.2 ⟨encode_metaBDispatch_eq_iff.2 ⟨rfl, rfl, rfl⟩, Instr.wf_metaBDispatch_iff.2 ⟨hl, hm⟩⟩

theorem decode_of_no_selReg (hl : c.registry.layout (ccOf w) = .metaA)
    (hm : (c.registry.metaHandler (ccOf w) (mcOf w)).isSome = true) (hsel : c.selReg (regOf w) = none) :
    decode c w = .invalidRegisterSelector (ccOf w) (mcOf w) (regOf w) (belowRegOf w) :=
  decode_eq_iff.2 ⟨encode_invalidRegisterSelector_eq_iff.2 ⟨rfl, rfl, rfl, rfl⟩,
    Instr.wf_invalidRegisterSelector_iff.2 ⟨hl, hm, hsel⟩⟩

/-- The words of `META_D5` are a row of their own (30_encoding.md R119). -/
theorem decode_of_d5 (hcc : ccOf w = 0xD) (hmc : mcOf w = 5) (hl : c.registry.layout (ccOf w) = .metaA)
    (hm : (c.registry.metaHandler (ccOf w) (mcOf w)).isSome = true) (hsel : (c.selReg (regOf w)).isSome = true) :
    decode c w = .metaD5 (regOf w) (optsOf w) (argAOf w) := by
  rw [hcc] at hl
  rw [hcc, hmc] at hm
  exact decode_eq_iff.2 ⟨encode_metaD5_eq_iff.2 ⟨hcc, hmc, rfl, rfl, rfl⟩, Instr.wf_metaD5_iff.2 ⟨hl, hm, hsel⟩⟩

theorem decode_of_layout_metaA (hd5 : ¬ (ccOf w = 0xD ∧ mcOf w = 5)) (hl : c.registry.layout (ccOf w) = .metaA)
    (hm : (c.registry.metaHandler (ccOf w) (mcOf w)).isSome = true) (hsel : (c.selReg (regOf w)).isSome = true) :
    decode c w = .metaADispatch (ccOf w) (mcOf w) (regOf w) (optsOf w) (argAOf w) :=
  decode_eq_iff.2 ⟨encode_metaADispatch_eq_iff.2 ⟨rfl, rfl, rfl, rfl, rfl⟩,
    Instr.wf_metaADispatch_iff.2 ⟨hl, hm, hsel, hd5⟩⟩

/-! ### The decoded record (30_encoding.md R117) -/

theorem decoded_of_layout_plain (hl : c.registry.layout (ccOf w) = .plain) :
    (decode c w).decoded = some (.plain w (ccOf w) (tailOf w)) := by
  have hword : encode (.plainDispatch (ccOf w) (tailOf w)) = w := encode_plainDispatch_eq_iff.2 ⟨rfl, rfl⟩
  simp only [decode_of_layout_plain hl, Instr.decoded, hword]

theorem decoded_of_layout_metaB (hl : c.registry.layout (ccOf w) = .metaB)
    (hm : (c.registry.metaHandler (ccOf w) (mcOf w)).isSome = true) :
    (decode c w).decoded = some (.metaB w (ccOf w) (mcOf w) (argBOf w)) := by
  have hword : encode (.metaBDispatch (ccOf w) (mcOf w) (argBOf w)) = w :=
    encode_metaBDispatch_eq_iff.2 ⟨rfl, rfl, rfl⟩
  simp only [decode_of_layout_metaB hl hm, Instr.decoded, hword]

/-- The record of a layout-A word is the same whether or not the word is one of `META_D5`. -/
theorem decoded_of_layout_metaA (hl : c.registry.layout (ccOf w) = .metaA)
    (hm : (c.registry.metaHandler (ccOf w) (mcOf w)).isSome = true) (hsel : (c.selReg (regOf w)).isSome = true) :
    (decode c w).decoded = some (.metaA w (ccOf w) (mcOf w) (regOf w) (optsOf w) (argAOf w)) := by
  by_cases hd5 : ccOf w = 0xD ∧ mcOf w = 5
  · obtain ⟨hcc, hmc⟩ := hd5
    have hword : encode (.metaD5 (regOf w) (optsOf w) (argAOf w)) = w :=
      encode_metaD5_eq_iff.2 ⟨hcc, hmc, rfl, rfl, rfl⟩
    simp only [decode_of_d5 hcc hmc hl hm hsel, Instr.decoded, hword, hcc, hmc]
  · have hword : encode (.metaADispatch (ccOf w) (mcOf w) (regOf w) (optsOf w) (argAOf w)) = w :=
      encode_metaADispatch_eq_iff.2 ⟨rfl, rfl, rfl, rfl, rfl⟩
    simp only [decode_of_layout_metaA hd5 hl hm hsel, Instr.decoded, hword]

end

/-- Settles O7: the word's record, and the lookup, which finds exactly the entry with the key. -/
theorem plainWordSelectsItsOneHandler : Obligations.PlainWordSelectsItsOneHandler := by
  intro c w hr hl
  obtain ⟨h, hh⟩ := Option.isSome_iff_exists.1 ((c.registry.layout_eq_plain_iff_isSome (ccOf w)).1 hl)
  refine ⟨decoded_of_layout_plain hl, tailOf_toNat w, h, hh, fun g => ?_⟩
  rw [← Registry.plainHandler_eq_some_iff hr, hh, Option.some_inj, eq_comm]

end Sys2Proof

namespace Sys2Proof.Machine

/-! ### The errors of the decoder (R152, R154, R155) -/

section
variable {s : State} {n : PistonId} {p : Piston} {w : Word24} (hr : s.receiver = some n) (hp : s.locate n = some p)
include hr hp

/-- A word that decodes to a form which raises aborts with that very word in the record. -/
theorem exec_decode_raise {i : Instr} {k : ErrorKind} (hd : decode s.cfg w = i)
    (hi : exec i s = s.raiseStep k (some (encode i))) : exec (decode s.cfg w) s = .next (s.enterAbort k p (some w)) := by
  obtain ⟨hword, -⟩ := decode_eq_iff.1 hd
  rw [hd, hi, hword, State.raiseStep_some hr hp]

theorem exec_decode_unknownControlCode (hl : s.cfg.registry.layout (ccOf w) = .none) :
    exec (decode s.cfg w) s = .next (s.enterAbort (.unknownControlCode (ccOf w)) p (some w)) :=
  exec_decode_raise hr hp (decode_of_layout_none hl) rfl

theorem exec_decode_unknownMetaCommand
    (hl : s.cfg.registry.layout (ccOf w) = .metaA ∨ s.cfg.registry.layout (ccOf w) = .metaB)
    (hm : s.cfg.registry.metaHandler (ccOf w) (mcOf w) = none) :
    exec (decode s.cfg w) s = .next (s.enterAbort (.unknownMetaCommand (ccOf w) (mcOf w)) p (some w)) :=
  exec_decode_raise hr hp (decode_of_no_metaHandler hl hm) rfl

theorem exec_decode_invalidRegisterSelector (hl : s.cfg.registry.layout (ccOf w) = .metaA)
    (hm : (s.cfg.registry.metaHandler (ccOf w) (mcOf w)).isSome = true) (hsel : s.cfg.selReg (regOf w) = none) :
    exec (decode s.cfg w) s =
      .next (s.enterAbort (.invalidRegisterSelector (ccOf w) (mcOf w) (regOf w)) p (some w)) :=
  exec_decode_raise hr hp (decode_of_no_selReg hl hm hsel) rfl

end

/-- Settles O6: a word without a category decodes to the error form of its control code. -/
theorem uncategorisedControlCodeRaises : Obligations.UncategorisedControlCodeRaises :=
  fun _ _ _ _ hr hp hl => exec_decode_unknownControlCode hr hp hl

/-- Settles O8: the lookup finds exactly the entry with the key, and without one the word decodes to its error form. -/
theorem metaWordSelectsItsOneHandlerOrRaises : Obligations.MetaWordSelectsItsOneHandlerOrRaises := by
  intro s n p w hr hp hinit hl
  refine ⟨mcOf_toNat w, fun h hh g => ?_, fun g hmem hcc hmc => ?_, fun hnone => ?_⟩
  · rw [← Registry.metaHandler_eq_some_iff hinit, hh, Option.some_inj, eq_comm]
  · exact (Registry.metaHandler_eq_some_iff hinit).2 ⟨hmem, hcc, hmc⟩
  · refine exec_decode_unknownMetaCommand hr hp hl (Option.eq_none_iff_forall_ne_some.2 fun g hg => hnone ?_)
    exact ⟨g, (Registry.metaHandler_eq_some_iff hinit).1 hg⟩

/-- Settles O9: the three errors under the conditions of their rows, the two records, and the fields as numbers. -/
theorem argumentFieldsAndSelectorCheck : Obligations.ArgumentFieldsAndSelectorCheck := by
  intro s n p w hr hp
  refine ⟨exec_decode_unknownControlCode hr hp, exec_decode_unknownMetaCommand hr hp, fun hm => ⟨fun hl hsel => ?_,
    fun hl hsel => ?_, fun hl => ?_⟩, regOf_toNat w, optsOf_toNat w, argAOf_toNat w, argBOf_toNat w⟩
  · exact exec_decode_invalidRegisterSelector hr hp hl hm hsel
  · exact decoded_of_layout_metaA hl hm hsel
  · exact decoded_of_layout_metaB hl hm

end Sys2Proof.Machine
end

section
/-!
The decoding family, second part: the five initialisation checks in their order with the code each reports, and the refusal of
every host command after a failed one (40_decode_dispatch.md R157, 60_exceptions.md R380).
-/
namespace Sys2Proof

/-! ### The code each check reports (60_exceptions.md R380) -/

section
variable {r : Registry} {e : RegistrationError}

theorem Registry.rangeError_code (h : r.rangeError = some e) : e.code = 17 := by
  unfold Registry.rangeError at h
  split at h <;> cases h
  rfl

theorem Registry.duplicateError_code (h : r.duplicateError = some e) : e.code = 16 := by
  unfold Registry.duplicateError at h
  split at h <;> cases h
  rfl

theorem Registry.mixedError_code (h : r.mixedError = some e) : e.code = 16 := by
  unfold Registry.mixedError at h
  split at h <;> cases h
  rfl

theorem Registry.familyError_code (h : r.familyError = some e) : e.code = 17 := by
  unfold Registry.familyError at h
  split at h <;> cases h
  rfl

theorem Registry.d5Error_code (h : r.d5Error = some e) : e.code = 17 := by
  unfold Registry.d5Error at h
  split at h
  · split at h <;> cases h
    rfl
  · cases h
    rfl

end

/-- The initialisation reports the first check that fails. -/
theorem Registry.initError_eq (r : Registry) :
    r.initError = r.rangeError.or (r.duplicateError.or (r.mixedError.or (r.familyError.or r.d5Error))) := by
  unfold Registry.initError
  cases r.rangeError with
  | some e => rfl
  | none =>
    cases r.duplicateError with
    | some e => rfl
    | none =>
      cases r.mixedError with
      | some e => rfl
      | none => cases r.familyError <;> rfl

/-- A check that fails, every one of whose errors has the code `k`, reports `k`, whatever the checks after it find. -/
theorem map_code_or {a b : Option RegistrationError} {k : Nat} (hcode : ∀ {e}, a = some e → e.code = k) (ha : a ≠ none) :
    (a.or b).map RegistrationError.code = some k := by
  obtain ⟨e, rfl⟩ := Option.ne_none_iff_exists'.1 ha
  simp [hcode rfl]

end Sys2Proof

namespace Sys2Proof.Machine

/-! ### No engine (R157) -/

section
variable {s : State} {e : RegistrationError} (h : s.cfg.registry.initError = some e)
include h

theorem State.whenEngine_of_initError (t : State) : s.whenEngine t = .refused (.noEngine e) := by
  unfold State.whenEngine
  rw [h]

theorem step_of_initError : step s = .refused (.noEngine e) := by
  unfold step stepCycle
  rw [h]

theorem runBounded_of_initError (k : Nat) : runBounded k s = .refused (.noEngine e) := by
  have hstep : stepCycle s = .refused (.noEngine e) := step_of_initError h
  cases k with
  | zero => exact State.whenEngine_of_initError h s
  | succ k =>
    unfold runBounded
    split
    · exact State.whenEngine_of_initError h s
    · exact State.whenEngine_of_initError h s
    · rw [hstep]
    · rw [hstep]

end

/-- Settles O10: each check's condition, the order in which `initError` takes them, and the refusal it leads to. -/
theorem registryInitialisationChecks : Obligations.RegistryInitialisationChecks := by
  intro r c1 c2 c3 c4 c5
  have h1 : r.rangeError = none ↔ c1 := r.rangeError_none
  have h2 : r.duplicateError = none ↔ c2 := r.duplicateError_none
  have h3 : r.mixedError = none ↔ c3 := r.mixedError_none
  have h4 : c1 → (r.familyError = none ↔ c4) := r.familyError_none
  have h5 : r.d5Error = none ↔ c5 := r.d5Error_none
  refine ⟨?_, fun n1 => ?_, fun ⟨y1, n2⟩ => ?_, fun ⟨y1, y2, n3⟩ => ?_, fun ⟨y1, y2, y3, n4⟩ => ?_,
    fun ⟨y1, y2, y3, y4, n5⟩ => ?_, r.layout_eq_plain_iff, r.layout_of_ne_plain, fun s e hs he => ?_⟩
  · rw [r.initError_none, h1, h2, h3, h5]
    exact and_congr_right fun y1 => by rw [h4 y1]
  · rw [r.initError_eq]
    exact map_code_or Registry.rangeError_code (mt h1.1 n1)
  · simp only [r.initError_eq, h1.2 y1, Option.none_or]
    exact map_code_or Registry.duplicateError_code (mt h2.1 n2)
  · simp only [r.initError_eq, h1.2 y1, h2.2 y2, Option.none_or]
    exact map_code_or Registry.mixedError_code (mt h3.1 n3)
  · simp only [r.initError_eq, h1.2 y1, h2.2 y2, h3.2 y3, Option.none_or]
    exact map_code_or Registry.familyError_code (mt (h4 y1).1 n4)
  · rw [r.initError_eq, h1.2 y1, h2.2 y2, h3.2 y3, (h4 y1).2 y4]
    simpa only [Option.none_or, Option.or_none] using map_code_or (b := none) Registry.d5Error_code (mt h5.1 n5)
  · subst hs
    exact ⟨step_of_initError he, State.whenEngine_of_initError he _, State.whenEngine_of_initError he _,
      runBounded_of_initError he, fun text => State.whenEngine_of_initError (s := State.blank s.cfg text) he _⟩

end Sys2Proof.Machine
end

section
/-!
The decoding family, third part: how a handler program runs and what it leaves alone (R159, R160), the dispatch forms, `META_D5`
(R168, R169), and the piston step (R164, R165).
-/
namespace Sys2Proof.Machine

/-! ### Programs that raise no error -/

/-- The only primitives with an exception are `GET_REG` and `OUT_TOKEN` (41_piston_ops.md R205, 43_memory_io.md R306). -/
theorem Prim.perform_raise {p : Prim} {s : State} {e : ErrorKind} (h : Prim.perform p s = .raise e) :
    (∃ r, p = .getReg r) ∨ ∃ t, p = .outToken t := by
  have hw : ∀ {α : Type} {f : PistonId → Piston → PrimOut α}, s.withReceiver f = .raise e → ∃ n q, f n q = .raise e := by
    intro α f hf
    rcases s.withReceiver_cases f with ⟨n, q, _, _, hin⟩ | hlost
    · exact ⟨n, q, hin.symm.trans hf⟩
    · rw [hlost] at hf
      cases hf
  cases p with
  | getReg r => exact .inl ⟨r, rfl⟩
  | outToken t => exact .inr ⟨t, rfl⟩
  | move n => obtain ⟨_, _, e⟩ := hw h; cases e
  | turnLeft => obtain ⟨_, _, e⟩ := hw h; cases e
  | turnRight => obtain ⟨_, _, e⟩ := hw h; cases e
  | reverse => obtain ⟨_, _, e⟩ := hw h; cases e
  | setReg r v o => obtain ⟨_, _, e⟩ := hw h; cases e
  | endPiston => obtain ⟨_, _, e⟩ := hw h; cases e
  | getPos => obtain ⟨_, _, e⟩ := hw h; cases e
  | getDir => obtain ⟨_, _, e⟩ := hw h; cases e
  | getPrio => obtain ⟨_, _, e⟩ := hw h; cases e
  | fork d => obtain ⟨_, _, e⟩ := hw h; cases e
  | setPriority v => obtain ⟨_, _, e⟩ := hw h; cases e
  | kill => cases h
  | memRead a => cases h
  | memWrite a v => cases h
  | inNum => cases h
  | inChar => change primInChar s = _ at h; unfold primInChar at h; split at h <;> cases h
  | outNum n => cases h

/-- A program none of whose primitives can raise an error, whatever results it meets. -/
inductive HProg.Quiet : HProg → Prop
  | done : Quiet .done
  | op {p : Prim} {k : p.Result → HProg} (hp : ∀ s e, Prim.perform p s ≠ .raise e) (hk : ∀ v, Quiet (k v)) :
      Quiet (.op p k)

theorem HProg.Quiet.exec_ne_raised {prog : HProg} (h : HProg.Quiet prog) (s : State) (e : ErrorKind) :
    HProg.exec prog s ≠ .raised e := by
  induction h generalizing s with
  | done => simp [HProg.exec]
  | op hp _ ih =>
    simp only [HProg.exec]
    split
    · exact ih _ _
    · simp
    · exact absurd ‹_› (hp s _)
    · simp

theorem Prim.perform_ne_raise {p : Prim} (hget : ∀ r, p ≠ .getReg r) (hout : ∀ t, p ≠ .outToken t) (s : State)
    (e : ErrorKind) : Prim.perform p s ≠ .raise e := by
  intro h
  rcases Prim.perform_raise h with ⟨r, hr⟩ | ⟨t, ht⟩
  · exact hget r hr
  · exact hout t ht

theorem PrimCode.perform_ne_raise {p : PrimCode} (h : p.canRaise = false) (c : Config) (d : Decoded) (env : List Int)
    (s : State) (e : ErrorKind) : Prim.perform (p.toPrim c d env) s ≠ .raise e := by
  refine Prim.perform_ne_raise (fun r hr => ?_) (fun t ht => ?_) s e
  · cases p <;> cases hr
    cases h
  · cases p <;> cases ht
    cases h

theorem Code.program_quiet {k : Code} (h : k.quiet = true) (c : Config) (d : Decoded) (env : List Int) :
    HProg.Quiet (k.program c d env) := by
  induction k generalizing env with
  | done => exact .done
  | op p k ih =>
    simp only [Code.quiet, Bool.and_eq_true, Bool.not_eq_true'] at h
    exact .op (PrimCode.perform_ne_raise h.1 c d env) fun v => ih h.2 _
  | branch cmp a b yes no ihyes ihno =>
    simp only [Code.quiet, Bool.and_eq_true] at h
    unfold Code.program
    split
    · exact ihyes h.1 env
    · exact ihno h.2 env

theorem metaD5Program_quiet (c : Config) (r : RegName) : HProg.Quiet (metaD5Program c r) :=
  .op (Prim.perform_ne_raise nofun nofun) fun _ => .op (Prim.perform_ne_raise nofun nofun) fun _ => .done

/-- The instruction's word is read only by an abort. -/
theorem State.runHandler_word_irrelevant {prog : HProg} (h : HProg.Quiet prog) (s : State) (w w' : Word24) :
    s.runHandler w prog = s.runHandler w' prog := by
  unfold State.runHandler
  split
  · cases hx : HProg.exec prog s with
    | finished t => rfl
    | raised k => exact absurd hx (h.exec_ne_raised s k)
    | lost => rfl
  · rfl

/-! ### The dispatch forms -/

theorem Handler.program_of_code {h : Handler} {k : Code} (hk : h.run = .code k) (c : Config) (d : Decoded) :
    h.program c d = k.program c d [] := by
  unfold Handler.program
  rw [hk]

section
variable {s : State} {h : Handler}

theorem exec_plainDispatch {cc : BitVec 4} (hh : s.cfg.registry.plainHandler cc = some h) (tail : BitVec 20) :
    exec (.plainDispatch cc tail) s =
      s.runHandler (cc ++ tail) (h.program s.cfg (.plain (cc ++ tail) cc tail)) := by
  simp only [exec, execPlainDispatch, hh]
  rfl

theorem exec_metaADispatch {cc : BitVec 4} {mc reg : BitVec 3} {r : RegName}
    (hh : s.cfg.registry.metaHandler cc mc = some h) (hsel : s.cfg.selReg reg = some r) (opts : BitVec 2)
    (arg : BitVec 12) :
    exec (.metaADispatch cc mc reg opts arg) s =
      s.runHandler (cc ++ mc ++ reg ++ opts ++ arg)
        (h.program s.cfg (.metaA (cc ++ mc ++ reg ++ opts ++ arg) cc mc reg opts arg)) := by
  simp only [exec, execMetaADispatch, hh, hsel]
  rfl

theorem exec_metaBDispatch {cc : BitVec 4} {mc : BitVec 3} (hh : s.cfg.registry.metaHandler cc mc = some h)
    (arg : BitVec 17) :
    exec (.metaBDispatch cc mc arg) s =
      s.runHandler (cc ++ mc ++ arg) (h.program s.cfg (.metaB (cc ++ mc ++ arg) cc mc arg)) := by
  simp only [exec, execMetaBDispatch, hh]
  rfl

theorem exec_metaD5 {reg : BitVec 3} {r : RegName} (hsel : s.cfg.selReg reg = some r) (opts : BitVec 2)
    (arg : BitVec 12) :
    exec (.metaD5 reg opts arg) s = s.runHandler (encode (.metaD5 reg opts arg)) (metaD5Program s.cfg r) := by
  simp only [exec, execMetaD5, hsel]

end

section
variable {s : State} {n : PistonId} {p : Piston} (hr : s.receiver = some n) (hp : s.locate n = some p)
include hr hp

/-- With the receiver in reach a handler's step goes on: to the program's end, or to the abort of the error it raised. -/
theorem State.runHandler_next (w : Word24) (prog : HProg) :
    ∃ t, s.runHandler w prog = .next t ∧
      (HProg.exec prog s = .finished t ∨ ∃ k, HProg.exec prog s = .raised k ∧ t = s.enterAbort k p (some w)) := by
  rcases State.runHandler_some hr hp w prog with ⟨t, hx, h⟩ | ⟨k, hx, h⟩
  · exact ⟨t, h, .inl hx⟩
  · exact ⟨_, h, .inr ⟨k, hx, rfl⟩⟩

theorem State.runHandler_of_finished {prog : HProg} {t : State} (hx : HProg.exec prog s = .finished t) (w : Word24) :
    s.runHandler w prog = .next t := by
  unfold State.runHandler
  rw [State.receiverPiston_some hr, hp, hx]

/-- A quiet program's step is the program's end, without an abort. -/
theorem State.runHandler_quiet (w : Word24) {prog : HProg} (hq : HProg.Quiet prog) :
    ∃ t, s.runHandler w prog = .next t ∧ t.phase = s.phase ∧ t.abort = s.abort ∧ HProg.exec prog s = .finished t := by
  rcases State.runHandler_some hr hp w prog with ⟨t, hx, h⟩ | ⟨k, hx, -⟩
  · obtain ⟨-, hphase, -, -, -, habort, -, -⟩ := HProg.exec_frame prog hx
    exact ⟨t, h, hphase, habort, hx⟩
  · exact absurd hx (hq.exec_ne_raised s k)

end

/-- Settles O15: the rules of `exec` for programs, and each form as the run of its handler's program. -/
theorem dispatchRunsTheHandlerProgram : Obligations.DispatchRunsTheHandlerProgram := by
  refine ⟨fun _ => rfl, fun prim k s => ⟨fun v t h => ?_, fun t h => ?_, fun e h => ?_⟩, fun s n p h hr hp =>
    ⟨fun cc tail hh => ?_, fun cc mc reg opts arg r hh hsel => ?_, fun cc mc arg hh => ?_⟩⟩
  · simp only [HProg.exec, h]
  · simp only [HProg.exec, h]
  · simp only [HProg.exec, h]
  · rw [exec_plainDispatch hh]
    exact State.runHandler_next hr hp _ _
  · rw [exec_metaADispatch hh hsel]
    exact State.runHandler_next hr hp _ _
  · rw [exec_metaBDispatch hh]
    exact State.runHandler_next hr hp _ _

/-- Settles O16: a written program without `GET_REG` and `OUT_TOKEN` is quiet. -/
theorem quietHandlersComplete : Obligations.QuietHandlersComplete := by
  intro s n p h k hr hp hrun hk
  have hquiet : ∀ d, HProg.Quiet (k.program s.cfg d []) := fun d => Code.program_quiet hk s.cfg d []
  refine ⟨fun cc tail hh => ?_, fun cc mc reg opts arg r hh hsel => ?_, fun cc mc arg hh => ?_⟩
  · rw [exec_plainDispatch hh, Handler.program_of_code hrun]
    exact State.runHandler_quiet hr hp _ (hquiet _)
  · rw [exec_metaADispatch hh hsel, Handler.program_of_code hrun]
    exact State.runHandler_quiet hr hp _ (hquiet _)
  · rw [exec_metaBDispatch hh, Handler.program_of_code hrun]
    exact State.runHandler_quiet hr hp _ (hquiet _)

/-! ### `META_D5` -/

theorem modM_natCast (m a : Nat) : modM m (a : Int) = a % m := by
  unfold modM
  omega

/-- The program of `META_D5` comes to its end with one register of the receiver written (R168). -/
theorem metaD5Program_spec {s : State} {n : PistonId} {p : Piston} (hr : s.receiver = some n)
    (hp : s.locate n = some p) (r : RegName) :
    ∃ t, HProg.exec (metaD5Program s.cfg r) s = .finished t ∧
      s.OnlyPistonChanged n (Piston.setReg s.cfg.maxInteger r p.y s.cfg.optD5 p) t := by
  obtain ⟨t, hset, hchanged⟩ := State.changeReceiver_spec hr hp (.setReg r p.y s.cfg.optD5)
  have hpos : Prim.perform .getPos s = .done (p.x, p.y) s := State.readReceiver_some hr hp _
  have hset : Prim.perform (.setReg r p.y s.cfg.optD5) s = .done () t := hset
  refine ⟨t, ?_, hchanged⟩
  simp only [metaD5Program, HProg.exec, hpos, hset]

/-- Settles O12: the step is the end of the program, which changes the one register and nothing else. -/
theorem metaD5StoresTheYCoordinate : Obligations.MetaD5StoresTheYCoordinate := by
  intro s n p r reg opts arg hr hp hsel
  obtain ⟨t, hx, hlocated, hothers, hactive, hdetached, hframe⟩ := metaD5Program_spec hr hp r
  have hnext : exec (.metaD5 reg opts arg) s = .next t := by
    rw [exec_metaD5 hsel, State.runHandler_of_finished hr hp hx]
  refine ⟨t, _, hnext, hlocated, rfl, fun q => ?_, hothers, hactive, hdetached, ?_, fun a => ?_, hframe⟩
  · rw [Piston.cell_setReg, modM_natCast]
  · rw [hframe]
  · rw [hframe]

/-- Settles O13: `opts` and `arg` are in the instruction's word alone, and the program raises no error to record it. -/
theorem metaD5IgnoresOptsAndArg : Obligations.MetaD5IgnoresOptsAndArg := by
  intro s reg o o' a a' hsel
  obtain ⟨r, hsel⟩ := Option.isSome_iff_exists.1 hsel
  rw [exec_metaD5 hsel, exec_metaD5 hsel]
  exact State.runHandler_word_irrelevant (metaD5Program_quiet s.cfg r) s _ _

/-! ### A handler and the pistons other than its receiver (R160) -/

/-- No effect but `KILL` sets the flag that stops the pass. -/
theorem Effect.killed_eq {s t : State} (h : Effect s t) : t.killed = s.killed := by
  cases h with
  | none => rfl
  | receiver n p f _ _ _ => simp
  | memory a v => rfl
  | input taken rest _ => rfl
  | output v x => rfl
  | fork n p d _ _ => rfl
  | priority n p v _ _ => simp [State.afterPriority]

theorem copiesOf_detach (s : State) (n : PistonId) (p : Piston) : copiesOf (s.detach n p).mq = copiesOf s.mq := by
  unfold State.detach
  split
  · exact copiesOf_withdraw s.mq n
  · rfl

/-- The waiting copies stay as they are, new ones behind them. -/
theorem Effect.copiesOf_prefix {s t : State} (h : Effect s t) : copiesOf s.mq <+: copiesOf t.mq := by
  cases h with
  | none => exact List.prefix_refl _
  | receiver n p f _ _ _ => rw [State.updatePiston_mq]
  | memory a v => exact List.prefix_refl _
  | input taken rest _ => exact List.prefix_refl _
  | output v x => exact List.prefix_refl _
  | fork n p d _ _ =>
    simp only [State.afterFork, copiesOf_append]
    exact List.prefix_append _ _
  | priority n p v _ _ =>
    simp only [State.afterPriority, copiesOf_append, copiesOf_detach]
    exact List.prefix_append _ _

/-- From `s` to `t` the receiver `n` stays the receiver, and no other piston has changed, nor any waiting copy. -/
structure State.OthersKept (s : State) (n : PistonId) (t : State) : Prop where
  receiver : t.receiver = some n
  located : ∀ m, m ≠ n → t.locate m = s.locate m
  copies : copiesOf s.mq <+: copiesOf t.mq

theorem State.OthersKept.effect {s t u : State} {n : PistonId} (h : s.OthersKept n t) (he : Effect t u) :
    s.OthersKept n u := by
  obtain ⟨hreceiver, -, hlocated⟩ := he.locate h.receiver
  exact ⟨hreceiver, fun m hm => (hlocated m hm).trans (h.located m hm), h.copies.trans he.copiesOf_prefix⟩

/-- Settles O17: every effect but `KILL` keeps the other pistons, and `KILL` leaves its flag. -/
theorem handlerChangesOnlyItsReceiver : Obligations.HandlerChangesOnlyItsReceiver := by
  intro prog s t n hr _ h hkilled
  have hkept : t.killed = false → s.OthersKept n t :=
    HProg.exec_induction (Q := fun t => t.killed = false → s.OthersKept n t)
      (fun _ _ he hq hk => (hq (he.killed_eq ▸ hk)).effect he) (fun _ _ => nofun) prog
      (fun _ => ⟨hr, fun _ _ => rfl, List.prefix_refl _⟩) h
  obtain ⟨-, hlocated, hcopies⟩ := hkept hkilled
  exact ⟨hlocated, hcopies⟩

/-! ### The piston step (R164, R165) -/

/-- Settles O22: the fetch fails, and the receiver of the step is none again, as it was. -/
theorem fetchOutsideTheImageAborts : Obligations.FetchOutsideTheImageAborts := by
  intro s n p hr hfind hword
  have hfetch : s.fetch p = none := hword
  simp only [State.stepPiston, hfind, hfetch, State.enterAbort, ← hr]

/-- Settles O46: the fetch gives the word, and what is left of the piston step is `exec`. -/
theorem pistonStepRunsTheDecodedInstruction : Obligations.PistonStepRunsTheDecodedInstruction := by
  intro s n p w i hfind hword hd
  have hfetch : s.fetch p = some w := hword
  simp only [State.stepPiston, hfind, hfetch, hd]
  cases exec i { s with receiver := some n } <;> rfl

end Sys2Proof.Machine
end

section
/-!
The decoding family, last part: a handler's glyph and description have no effect (40_decode_dispatch.md R161). Replacing them
(`withDocs`) commutes with the lookups, with every primitive, with a program, and so with `exec`.
-/
namespace Sys2Proof

/-- A handler with its glyph and description replaced, as `Config.withDocs` replaces them. -/
def Handler.redoc (f : Handler → Char × String) (h : Handler) : Handler :=
  { h with glyph := (f h).1, description := (f h).2 }

section
variable (f : Handler → Char × String) (c : Config)

/-! ### The decoder -/

theorem Registry.plainHandler_withDocs (cc : BitVec 4) :
    (Config.withDocs f c).registry.plainHandler cc = (c.registry.plainHandler cc).map (Handler.redoc f) :=
  List.find?_map

theorem Registry.metaHandler_withDocs (cc : BitVec 4) (mc : BitVec 3) :
    (Config.withDocs f c).registry.metaHandler cc mc = (c.registry.metaHandler cc mc).map (Handler.redoc f) :=
  List.find?_map

theorem Registry.layout_withDocs (cc : BitVec 4) :
    (Config.withDocs f c).registry.layout cc = c.registry.layout cc := by
  have hfamily : (Config.withDocs f c).registry.family cc.toNat = c.registry.family cc.toNat := rfl
  simp only [Registry.layout, Registry.plainHandler_withDocs, Option.isSome_map, hfamily]

theorem Config.selReg_withDocs (reg : BitVec 3) : (Config.withDocs f c).selReg reg = c.selReg reg := rfl

theorem Instr.wf_withDocs (i : Instr) : i.wf (Config.withDocs f c) = i.wf c := by
  cases i <;> simp only [Instr.wf, Registry.layout_withDocs, Registry.metaHandler_withDocs, Option.isSome_map,
    Option.isNone_map, Config.selReg_withDocs]

theorem decode_withDocs (w : Word24) : decode (Config.withDocs f c) w = decode c w :=
  decode_eq_iff.2 ⟨encode_decode c w, (Instr.wf_withDocs f c _).trans (decode_wf c w)⟩

/-! ### The program of a handler -/

theorem Decoded.selected_withDocs (d : Decoded) :
    Decoded.selected (Config.withDocs f c) d = Decoded.selected c d := by
  cases d <;> rfl

theorem Code.program_withDocs (d : Decoded) (k : Code) (env : List Int) :
    k.program (Config.withDocs f c) d env = k.program c d env := by
  induction k generalizing env with
  | done => rfl
  | op p k ih => exact congrArg (HProg.op (p.toPrim c d env)) (funext fun _ => ih _)
  | branch cmp a b yes no ihyes ihno => simp only [Code.program, ihyes, ihno]

theorem Handler.program_withDocs (h : Handler) (d : Decoded) :
    (h.redoc f).program (Config.withDocs f c) d = h.program c d := by
  have hrun : (h.redoc f).run = h.run := rfl
  unfold Handler.program
  rw [hrun, Decoded.selected_withDocs]
  cases h.run with
  | metaD5 => rfl
  | code k => exact Code.program_withDocs f c d k []
  | extern k => rfl

end

end Sys2Proof

namespace Sys2Proof.Machine

section
variable (f : Handler → Char × String) (s : State)

/-! ### The primitives -/

theorem State.withReceiver_withDocs {α : Type} {g h : PistonId → Piston → PrimOut α}
    (hgh : ∀ n p, g n p = (h n p).mapState (State.withDocs f)) :
    (s.withDocs f).withReceiver g = (s.withReceiver h).mapState (State.withDocs f) := by
  have hr : (s.withDocs f).receiver = s.receiver := rfl
  have hl : ∀ n, (s.withDocs f).locate n = s.locate n := fun _ => rfl
  unfold State.withReceiver
  rw [hr]
  cases s.receiver with
  | none => rfl
  | some n =>
    simp only [hl]
    cases s.locate n with
    | none => rfl
    | some p => exact hgh n p

theorem State.changeReceiver_withDocs (g : Piston → Piston) :
    (s.withDocs f).changeReceiver g = (s.changeReceiver g).mapState (State.withDocs f) := by
  have hupdate : ∀ n, (s.withDocs f).updatePiston n g = (s.updatePiston n g).withDocs f := fun n => by
    have hd : (s.withDocs f).detached = s.detached := rfl
    unfold State.updatePiston
    rw [hd]
    cases Map.get s.detached n <;> rfl
  exact State.withReceiver_withDocs f s fun n _ => congrArg (PrimOut.done ()) (hupdate n)

theorem State.readReceiver_withDocs {α : Type} (g : Piston → α) :
    (s.withDocs f).readReceiver g = (s.readReceiver g).mapState (State.withDocs f) :=
  State.withReceiver_withDocs f s fun _ _ => rfl

theorem primSetPriority_withDocs (v : Int) :
    primSetPriority v (s.withDocs f) = (primSetPriority v s).mapState (State.withDocs f) := by
  have hdetach : ∀ n p, (s.withDocs f).detach n p = (s.detach n p).withDocs f := fun n p => by
    have hd : (s.withDocs f).detached = s.detached := rfl
    unfold State.detach
    rw [hd]
    cases Map.get s.detached n <;> rfl
  exact State.withReceiver_withDocs f s fun n p => by rw [hdetach]; rfl

/-- No primitive reads the registry: performing it commutes with replacing the documentation. -/
theorem Prim.perform_withDocs (prim : Prim) :
    Prim.perform prim (s.withDocs f) = (Prim.perform prim s).mapState (State.withDocs f) := by
  cases prim with
  | move n => exact State.changeReceiver_withDocs f s _
  | turnLeft => exact State.changeReceiver_withDocs f s _
  | turnRight => exact State.changeReceiver_withDocs f s _
  | reverse => exact State.changeReceiver_withDocs f s _
  | setReg q v o => exact State.changeReceiver_withDocs f s _
  | endPiston => exact State.changeReceiver_withDocs f s _
  | getPos => exact State.readReceiver_withDocs f s _
  | getDir => exact State.readReceiver_withDocs f s _
  | getPrio => exact State.readReceiver_withDocs f s _
  | getReg q => exact State.withReceiver_withDocs f s fun _ p => by cases p.cell q <;> rfl
  | fork d => exact State.withReceiver_withDocs f s fun _ _ => rfl
  | setPriority v => exact primSetPriority_withDocs f s v
  | kill => rfl
  | memRead a => rfl
  | memWrite a v => rfl
  | inNum => rfl
  | inChar =>
    have hi : (s.withDocs f).input = s.input := rfl
    change primInChar (s.withDocs f) = (primInChar s).mapState (State.withDocs f)
    unfold primInChar
    rw [hi]
    cases s.input <;> rfl
  | outNum n => rfl
  | outToken x =>
    change primOutToken x (s.withDocs f) = (primOutToken x s).mapState (State.withDocs f)
    unfold primOutToken
    cases tokenValue x <;> rfl

end

/-! ### A program and an instruction -/

/-- The end of a program with its state changed. -/
def ProgOut.mapState (g : State → State) : ProgOut → ProgOut
  | .finished s => .finished (g s)
  | .raised k => .raised k
  | .lost => .lost

section
variable (f : Handler → Char × String)

theorem HProg.exec_withDocs (prog : HProg) (s : State) :
    HProg.exec prog (s.withDocs f) = (HProg.exec prog s).mapState (State.withDocs f) := by
  induction prog generalizing s with
  | done => rfl
  | op p k ih =>
    simp only [HProg.exec, Prim.perform_withDocs]
    cases Prim.perform p s with
    | done v t => exact ih v t
    | stop t => rfl
    | raise e => rfl
    | lost => rfl

variable (s : State)

theorem State.receiverPiston_withDocs : (s.withDocs f).receiverPiston = s.receiverPiston := rfl

theorem State.runHandler_withDocs (w : Word24) (prog : HProg) :
    (s.withDocs f).runHandler w prog = mapNext (State.withDocs f) (s.runHandler w prog) := by
  unfold State.runHandler
  rw [State.receiverPiston_withDocs, HProg.exec_withDocs]
  cases s.receiverPiston with
  | none => rfl
  | some p => cases HProg.exec prog s <;> rfl

theorem State.raiseStep_withDocs (k : ErrorKind) (w : Option Word24) :
    (s.withDocs f).raiseStep k w = mapNext (State.withDocs f) (s.raiseStep k w) := by
  unfold State.raiseStep
  rw [State.receiverPiston_withDocs]
  cases s.receiverPiston <;> rfl

/-- Replacing the documentation commutes with every instruction: with the program it runs, or with the error it raises. -/
theorem exec_withDocs (i : Instr) : exec i (s.withDocs f) = mapNext (State.withDocs f) (exec i s) := by
  have hcfg : (s.withDocs f).cfg = Config.withDocs f s.cfg := rfl
  cases i with
  | metaD5 reg opts arg =>
    simp only [exec, execMetaD5, hcfg, Config.selReg_withDocs]
    cases s.cfg.selReg reg with
    | none => exact State.raiseStep_withDocs f s _ _
    | some r => exact State.runHandler_withDocs f s _ _
  | plainDispatch cc tail =>
    simp only [exec, execPlainDispatch, hcfg, Registry.plainHandler_withDocs]
    cases s.cfg.registry.plainHandler cc with
    | none => exact State.raiseStep_withDocs f s _ _
    | some h =>
      simp only [Option.map_some, Handler.program_withDocs]
      exact State.runHandler_withDocs f s _ _
  | metaADispatch cc mc reg opts arg =>
    simp only [exec, execMetaADispatch, hcfg, Registry.metaHandler_withDocs, Config.selReg_withDocs]
    cases s.cfg.registry.metaHandler cc mc with
    | none => exact State.raiseStep_withDocs f s _ _
    | some h =>
      simp only [Option.map_some, Handler.program_withDocs]
      cases s.cfg.selReg reg with
      | none => exact State.raiseStep_withDocs f s _ _
      | some r => exact State.runHandler_withDocs f s _ _
  | metaBDispatch cc mc arg =>
    simp only [exec, execMetaBDispatch, hcfg, Registry.metaHandler_withDocs]
    cases s.cfg.registry.metaHandler cc mc with
    | none => exact State.raiseStep_withDocs f s _ _
    | some h =>
      simp only [Option.map_some, Handler.program_withDocs]
      exact State.runHandler_withDocs f s _ _
  | decodeErrorCc cc rest => exact State.raiseStep_withDocs f s _ _
  | decodeErrorMc cc mc rest => exact State.raiseStep_withDocs f s _ _
  | invalidRegisterSelector cc mc reg rest => exact State.raiseStep_withDocs f s _ _

end

/-- Settles O11: neither the decoder nor any instruction reads the two fields. -/
theorem documentationFieldsHaveNoEffect : Obligations.DocumentationFieldsHaveNoEffect :=
  fun f s => ⟨decode_withDocs f s.cfg, exec_withDocs f s⟩

end Sys2Proof.Machine
end

section
/-!
The piston primitives, last part: the laws of turns and moves (41_piston_ops.md R211), and the bounds every primitive keeps
(R212).
-/
namespace Sys2Proof

/-! ### Turns (R201, R202, R203) -/

@[simp] theorem Dir.ccw_cw (d : Dir) : d.cw.ccw = d := by cases d <;> rfl

@[simp] theorem Dir.cw_ccw (d : Dir) : d.ccw.cw = d := by cases d <;> rfl

@[simp] theorem Dir.opp_opp (d : Dir) : d.opp.opp = d := by cases d <;> rfl

@[simp] theorem Dir.cw_cw (d : Dir) : d.cw.cw = d.opp := by cases d <;> rfl

@[simp] theorem Dir.ccw_ccw (d : Dir) : d.ccw.ccw = d.opp := by cases d <;> rfl

@[simp] theorem Dir.unit_opp (d : Dir) : d.opp.unit = -d.unit := by cases d <;> rfl

end Sys2Proof

namespace Sys2Proof.Machine

/-! ### Moves (R200) -/

/-- Only the last of two reductions counts. -/
theorem modM_modM_add {m : Nat} (hm : 1 ≤ m) (a b : Int) : modM m (modM m a + b) = modM m (a + b) := by
  rw [modM_cast hm, modM, Int.emod_add_emod, modM]

theorem Piston.move_move {m : Nat} (hm : 1 ≤ m) (a b : Int) (p : Piston) :
    (p.move m a).move m b = p.move m (a + b) := by
  simp only [Piston.move, modM_modM_add hm, Int.add_mul, Int.add_assoc]

theorem Piston.move_zero {m : Nat} {p : Piston} (hx : p.x < m) (hy : p.y < m) : p.move m 0 = p := by
  simp [Piston.move, modM_of_lt hx, modM_of_lt hy]

/-- Between two reversals a move goes backwards. -/
theorem Piston.turnBack_move_turnBack (m : Nat) (n : Int) (p : Piston) :
    (p.turnBack.move m n).turnBack = p.move m (-n) := by
  simp [Piston.turnBack, Piston.move]

/-- Settles O25: two quarter turns one way are a reversal, and a move between two reversals undoes the move before
them. -/
theorem turnAndMoveLaws : Obligations.TurnAndMoveLaws := by
  refine ⟨fun d => by simp, fun m a b p hm => Piston.move_move hm a b p, fun m n p hm hx hy => ?_⟩
  calc ((p.move m n).turnBack.move m n).turnBack
      = (p.move m n).move m (-n) := Piston.turnBack_move_turnBack m n _
    _ = p.move m (n + -n) := Piston.move_move hm n (-n) p
    _ = p := by rw [Int.add_right_neg, Piston.move_zero hx hy]

/-! ### Bounds (R212) -/

/-- A cell of a piston within its bounds is unset or holds a value below the modulus. -/
theorem Piston.cell_of_ok {m : Nat} {p : Piston} (hp : Piston.Ok m p) (r : RegName) :
    p.cell r = .unset ∨ ∃ w o, p.cell r = .val w o ∧ w < m := by
  obtain ⟨-, -, -, hvalues⟩ := hp
  unfold Piston.cell RegFile.cell
  cases hget : Map.get p.reg r with
  | none => exact .inl rfl
  | some c => exact .inr ⟨c.value, c.opts, rfl, hvalues _ (Map.mem_of_get hget)⟩

/-- Every effect of a primitive that goes on keeps the receiver in reach and within its bounds. -/
theorem Effect.locate_ok {s t : State} (h : Effect s t) (hm : 1 ≤ s.cfg.maxInteger) {n : PistonId} {p : Piston}
    (hr : s.receiver = some n) (hp : s.locate n = some p) (hok : Piston.Ok s.cfg.maxInteger p) :
    ∃ p', t.locate n = some p' ∧ Piston.Ok s.cfg.maxInteger p' := by
  cases h with
  | receiver n' q f hr' _ hf =>
    obtain rfl : n' = n := Option.some.inj (hr'.symm.trans hr)
    exact ⟨f p, (State.onlyPistonChanged_updatePiston hp hf.id_eq).located, hf.ok hm hok⟩
  | priority n' q v hr' hq =>
    obtain rfl : n' = n := Option.some.inj (hr'.symm.trans hr)
    obtain rfl : q = p := Option.some.inj (hq.symm.trans hp)
    exact ⟨{ q with priority := v }, by rw [State.locate_afterPriority, if_pos rfl], hok⟩
  | none => exact ⟨p, hp, hok⟩
  | memory a v => exact ⟨p, hp, hok⟩
  | input taken rest _ => exact ⟨p, hp, hok⟩
  | output v x => exact ⟨p, hp, hok⟩
  | fork n' q d _ _ => exact ⟨p, hp, hok⟩

/-- Settles O26: a primitive that answers has one of the effects, and each of them keeps the receiver's bounds. -/
theorem receiverPrimitivesKeepBounds : Obligations.ReceiverPrimitivesKeepBounds := by
  intro prim v s t n p _ hm hr hp hok hdone
  obtain ⟨p', hlocated, hok'⟩ := (Prim.perform_effect prim hdone).locate_ok hm hr hp hok
  have hcells := Piston.cell_of_ok hok'
  obtain ⟨hx, hy, -, -⟩ := hok'
  exact ⟨p', hlocated, hx, hy, hcells⟩

end Sys2Proof.Machine
end

section
/-!
The scheduler family (42_scheduler.md), first part: what a handler and a piston step do to the active list (R252, R254,
R266), the pass and the cycle around it (R250–R252, R257–R259), and the safety that follows.
-/
namespace Sys2Proof.Machine

/-! ### A handler and the active list (R254, R266) -/

/-- What a handler of piston `n` that began in `s` outside a kill may have done to the lists at its end `t`: it has run
`KILL`, or the active list has lost at most `n`. -/
def State.ListsAfter (s : State) (n : PistonId) (t : State) : Prop :=
  (t.killed = true ∧ t.active = [] ∧ t.mq = [] ∧ t.detached = []) ∨
    (t.killed = false ∧
      (t.active.map Piston.id = s.active.map Piston.id ∨
        t.active.map Piston.id = (s.active.map Piston.id).filter (· ≠ n)))

/-- A program that came to its end went through effects alone, or through effects and then `KILL`. -/
theorem HProg.exec_effects_or_kill {Q : State → Prop} (hstep : ∀ s t, Effect s t → Q s → Q t) (prog : HProg)
    {s t : State} (hs : Q s) (h : HProg.exec prog s = .finished t) : Q t ∨ ∃ u, Q u ∧ t = u.afterKill := by
  induction prog generalizing s with
  | done => cases h; exact .inl hs
  | op p k ih =>
    simp only [HProg.exec] at h
    split at h
    case h_1 hdone => exact ih _ (hstep _ _ (Prim.perform_effect p hdone) hs) h
    case h_2 hstop => cases h; exact .inr ⟨s, hs, (Prim.perform_stop p hstop).2⟩
    case h_3 => cases h
    case h_4 => cases h

theorem State.active_ids_detach (s : State) (n : PistonId) (p : Piston) :
    (s.detach n p).active.map Piston.id = s.active.map Piston.id ∨
      (s.detach n p).active.map Piston.id = (s.active.map Piston.id).filter (· ≠ n) := by
  unfold State.detach
  split
  · exact .inl rfl
  · exact .inr (by rw [List.filter_map]; rfl)

/-- No effect takes a piston but the receiver out of the active list. -/
theorem Effect.active_ids {s t : State} (h : Effect s t) {n : PistonId} (hr : s.receiver = some n) :
    t.active.map Piston.id = s.active.map Piston.id ∨
      t.active.map Piston.id = (s.active.map Piston.id).filter (· ≠ n) := by
  cases h with
  | priority m p v hr' _ =>
    obtain rfl : m = n := Option.some.inj (hr'.symm.trans hr)
    exact s.active_ids_detach m p
  | receiver m p f _ _ hf => exact .inl (s.active_ids_updatePiston m hf.id_eq)
  | none => exact .inl rfl
  | memory a v => exact .inl rfl
  | input taken rest _ => exact .inl rfl
  | output v x => exact .inl rfl
  | fork m p d _ _ => exact .inl rfl

/-- From `s` to `t`, outside a kill, piston `n` has stayed the receiver and the active list has lost at most `n`. -/
structure State.LosesAtMost (s : State) (n : PistonId) (t : State) : Prop where
  receiver : t.receiver = some n
  killed : t.killed = false
  activeIds : t.active.map Piston.id = s.active.map Piston.id ∨
    t.active.map Piston.id = (s.active.map Piston.id).filter (· ≠ n)

theorem State.LosesAtMost.effect {s t u : State} {n : PistonId} (h : s.LosesAtMost n t) (he : Effect t u) :
    s.LosesAtMost n u where
  receiver := (he.locate h.receiver).1
  killed := he.killed_eq.trans h.killed
  activeIds := by
    rcases he.active_ids h.receiver with hu | hu <;> rw [hu]
    · exact h.activeIds
    · rcases h.activeIds with ht | ht <;> simp [ht]

/-- Settles O18: every effect takes at most the receiver out of the active list, and `KILL` ends the program with the
lists empty. -/
theorem handlerOnlyRemovesItsReceiver : Obligations.HandlerOnlyRemovesItsReceiver := by
  intro prog s t n hr hk h
  rcases HProg.exec_effects_or_kill (Q := s.LosesAtMost n) (fun _ _ he hq => hq.effect he) prog
    ⟨hr, hk, .inl rfl⟩ h with ht | ⟨u, _, rfl⟩
  · exact .inr ⟨ht.killed, ht.activeIds⟩
  · exact .inl ⟨rfl, rfl, rfl, rfl⟩

/-! ### A piston step and the lists -/

/-- A piston step runs a handler program to its end, or aborts with the lists and the kill flag as they were. -/
theorem State.stepPiston_program_or_abort {s t : State} {n : PistonId} (h : s.stepPiston n = .next t) :
    (∃ prog u, HProg.exec prog { s with receiver := some n } = .finished u ∧ t = { u with receiver := none }) ∨
      (t.killed = s.killed ∧ t.active = s.active) := by
  obtain ⟨p, _, ⟨_, rfl⟩ | ⟨w, u, _, hu, rfl⟩⟩ := State.stepPiston_cases h
  · exact .inr ⟨rfl, rfl⟩
  · rcases exec_next hu with ⟨prog, hx⟩ | ⟨_, _, _, _, _, rfl⟩
    · exact .inl ⟨prog, u, hx, rfl⟩
    · exact .inr ⟨rfl, rfl⟩

section
variable {s t : State} {n : PistonId} (hk : s.killed = false) (h : s.stepPiston n = .next t)
include hk h

/-- A piston step does to the lists what its handler does, or, when it aborts, nothing. -/
theorem State.stepPiston_lists : s.ListsAfter n t := by
  rcases State.stepPiston_program_or_abort h with ⟨prog, u, hx, rfl⟩ | ⟨hkilled, hactive⟩
  · exact handlerOnlyRemovesItsReceiver prog { s with receiver := some n } u n rfl hk hx
  · exact .inr ⟨hkilled.trans hk, .inl (by rw [hactive])⟩

/-- A piston step that ran `KILL` has not aborted. -/
theorem State.stepPiston_phase_of_killed (ht : t.killed = true) : t.phase = s.phase := by
  rcases State.stepPiston_program_or_abort h with ⟨prog, u, hx, rfl⟩ | ⟨hkilled, _⟩
  · obtain ⟨_, hphase, _⟩ := HProg.exec_frame prog hx
    exact hphase
  · exact absurd ((hkilled.trans hk).symm.trans ht) Bool.false_ne_true

end

/-! ### The pass -/

section
variable {s t : State} {n : PistonId}

theorem runPass_of_killed (h : s.killed = true) (ns : List PistonId) : runPass ns s = .next s := by
  cases ns with
  | nil => rfl
  | cons n ns => simp only [runPass, h, if_true]

theorem runPass_of_aborted (hk : s.killed = false) (h : s.stepPiston n = .next t) (hp : t.phase = .aborted)
    (ns : List PistonId) : runPass (n :: ns) s = .next t := by
  simp only [runPass, hk, h, hp, if_true, Bool.false_eq_true, if_false]

theorem runPass_of_next (hk : s.killed = false) (h : s.stepPiston n = .next t) (hp : t.phase ≠ .aborted)
    (ns : List PistonId) : runPass (n :: ns) s = runPass ns t := by
  simp only [runPass, hk, h, hp, Bool.false_eq_true, if_false]

end

/-- Without a word at its place the piston's step aborts (40_decode_dispatch.md R165). -/
theorem State.stepPiston_of_no_word {s : State} {n : PistonId} {p : Piston}
    (hfind : (s.active.find? fun q => q.id == n) = some p) (hw : s.fetch p = none) :
    s.stepPiston n =
      .next { { s with receiver := some n }.enterAbort (.fetchOutOfGrid p.x p.y) p none with receiver := none } := by
  simp only [State.stepPiston, hfind, hw]

/-- A piston of the active list takes its step: it is there when its turn comes (R252). -/
theorem State.Held.stepPiston_next {s : State} (hs : s.Held) {p : Piston} (hp : p ∈ s.active) :
    ∃ t, s.stepPiston p.id = .next t := by
  have hfind : (s.active.find? fun q => q.id == p.id) = some p := find_id_of_mem hs.active_nodup hp
  cases hw : s.fetch p with
  | none => exact ⟨_, State.stepPiston_of_no_word hfind hw⟩
  | some w =>
    have hlocate : State.locate { s with receiver := some p.id } p.id = some p := hs.locate_active hp
    obtain ⟨u, hu⟩ := exec_ne_stop (decode s.cfg w) (s := { s with receiver := some p.id }) rfl hlocate
    exact ⟨_, by rw [pistonStepRunsTheDecodedInstruction s p.id p w _ hfind hw rfl, hu]; rfl⟩

/-- A pass over distinct active pistons goes on to its end: no step takes a piston still to come out of the active list,
unless it ends the pass (R254, R266). -/
theorem State.Held.runPass_next {ns : List PistonId} {s : State} (hs : s.Held) (hn : ns.Nodup)
    (hmem : s.killed = false → ∀ m ∈ ns, m ∈ s.active.map Piston.id) : ∃ t, Machine.runPass ns s = .next t := by
  induction ns generalizing s with
  | nil => exact ⟨s, rfl⟩
  | cons n ns ih =>
    obtain ⟨hnew, hrest⟩ := List.nodup_cons.1 hn
    cases hk : s.killed with
    | true => exact ⟨s, runPass_of_killed hk _⟩
    | false =>
      obtain ⟨p, hp, rfl⟩ := List.mem_map.1 (hmem hk n List.mem_cons_self)
      obtain ⟨t, ht⟩ := hs.stepPiston_next hp
      by_cases ha : t.phase = .aborted
      · exact ⟨t, runPass_of_aborted hk ht ha ns⟩
      · rw [runPass_of_next hk ht ha]
        refine ih (hs.stepPiston ht) hrest fun hk' m hm => ?_
        have hm' : m ∈ s.active.map Piston.id := hmem hk m (List.mem_cons_of_mem _ hm)
        rcases State.stepPiston_lists hk ht with ⟨hkilled, _⟩ | ⟨_, hids | hids⟩
        · exact absurd (hk'.symm.trans hkilled) Bool.false_ne_true
        · exact hids ▸ hm'
        · rw [hids, List.mem_filter]
          exact ⟨hm', decide_eq_true fun e => hnew (e ▸ hm)⟩

/-! ### Safety (R252) -/

/-- In READY and RUNNING the step of an engine that passed its initialisation is a cycle. -/
theorem step_eq_runCycle {s : State} (hi : s.cfg.registry.initError = none)
    (hp : s.phase = .ready ∨ s.phase = .running) : step s = s.runCycle := by
  rcases hp with hp | hp <;> simp only [step, stepCycle, hi, hp]

theorem step_of_ended_or_aborted {s : State} (hi : s.cfg.registry.initError = none)
    (hp : s.phase = .ended ∨ s.phase = .aborted) : step s = .next s := by
  rcases hp with hp | hp <;> simp only [step, stepCycle, hi, hp]

/-- A cycle is its pass and what follows it. -/
theorem State.runCycle_of_pass {s u : State} (h : runPass (s.active.map Piston.id) s.beginPass = .next u) :
    s.runCycle = .next u.afterPass := by
  simp only [State.runCycle, State.beginPass_snapshot, h]

/-- A sound engine that passed its initialisation takes its step. -/
theorem State.Inv.step_next {s : State} (hs : s.Inv) (hi : s.cfg.registry.initError = none) :
    ∃ t, step s = .next t := by
  have hcycle : ∃ t, s.runCycle = .next t := by
    obtain ⟨u, hu⟩ := hs.held.beginPass.runPass_next hs.held.active_nodup fun _ _ hm => hm
    exact ⟨_, State.runCycle_of_pass hu⟩
  cases hp : s.phase with
  | ready => rwa [step_eq_runCycle hi (.inl hp)]
  | running => rwa [step_eq_runCycle hi (.inr hp)]
  | ended => exact ⟨s, step_of_ended_or_aborted hi (.inl hp)⟩
  | aborted => exact ⟨s, step_of_ended_or_aborted hi (.inr hp)⟩

/-- Settles O58: a sound engine takes its step, and the step keeps it sound and keeps its registry. -/
theorem soundEngineNeverFaults : Obligations.SoundEngineNeverFaults := by
  intro s hs hi k
  induction k generalizing s with
  | zero => exact ⟨s, run_zero s⟩
  | succ k ih =>
    obtain ⟨t, ht⟩ := hs.step_next hi
    obtain ⟨hcfg, _⟩ := step_frame ht
    obtain ⟨u, hu⟩ := ih t (stepKeepsTheInvariant s t hs ht) (hcfg ▸ hi)
    exact ⟨u, (run_next k ht).trans hu⟩

/-! ### The cycle -/

theorem phaseAfterCycle_eq_running_iff (active : List Piston) : phaseAfterCycle active = .running ↔ active ≠ [] := by
  unfold phaseAfterCycle
  split <;> simp_all

/-- Settles O48: the equations of the pass, and a cycle as a pass with what follows it. -/
theorem passStepsThePistonsInOrder : Obligations.PassStepsThePistonsInOrder := by
  refine ⟨fun s u hi hp hu => ⟨fun hn => ⟨?_, State.finishCycle_frame u⟩, fun ha => ?_⟩, fun s n ns =>
    ⟨rfl, fun hk => runPass_of_killed hk _, fun t hk ht hn => runPass_of_next hk ht hn ns,
      fun t hk ht ha => runPass_of_aborted hk ht ha ns, rfl⟩⟩
  · rw [step_eq_runCycle hi hp, State.runCycle_of_pass hu, State.afterPass, if_neg hn]
  · rw [step_eq_runCycle hi hp, State.runCycle_of_pass hu, State.afterPass, if_pos ha]
    rfl

theorem State.drain_of_mq_nil {s : State} (h : s.mq = []) : s.drain = s := by
  rw [State.drain, h, List.foldl_nil]

/-- Settles O33: `KILL` is its own equation; after it a pass ends, and steps 3 to 6 have nothing to do but to count. -/
theorem killEndsThePassAndTheCycle : Obligations.KillEndsThePassAndTheCycle := by
  refine ⟨fun s => ⟨rfl, fun _ => rfl⟩, fun s t n ns hn hk ht hkilled => ?_⟩
  have hphase : t.phase ≠ .aborted := State.stepPiston_phase_of_killed hk ht hkilled ▸ hn
  obtain ⟨_, hcycle, _⟩ := State.stepPiston_frame ht
  rcases State.stepPiston_lists hk ht with ⟨_, hactive, hmq, hdetached⟩ | ⟨hk', _⟩
  · refine ⟨(runPass_of_next hk ht hphase ns).trans (runPass_of_killed hkilled ns), hactive, hmq, hdetached, ?_⟩
    rw [State.afterPass, if_neg hphase, State.finishCycle_frame, State.drain_of_mq_nil hmq, hactive, hcycle, ← hmq]
    rfl
  · exact absurd (hk'.symm.trans hkilled) Bool.false_ne_true

/-- Settles O36: the end of a cycle is a filter, a count and the phase of what is left. -/
theorem endOfCyclePrunesAndCounts : Obligations.EndOfCyclePrunesAndCounts := by
  intro s
  refine ⟨rfl, fun p => by simp, List.filter_sublist, by rw [State.finishCycle_frame],
    (phaseAfterCycle_eq_ended_iff _).2, (phaseAfterCycle_eq_running_iff _).2, ?_⟩
  have hended : s.finishCycle.isEnded = true ↔ s.finishCycle.active = [] := by simp [State.isEnded]
  rw [hended]
  exact phaseAfterCycle_eq_ended_iff _

/-- Settles O49: the two idle phases of `stepCycle`, and each value of the observation by its definition. -/
theorem endedOrAbortedStepDoesNothing : Obligations.EndedOrAbortedStepDoesNothing := by
  refine ⟨fun s hi hp => step_of_ended_or_aborted hi hp, rfl, fun s => ⟨fun h => ?_, fun h => ?_, fun h => ?_, ?_⟩⟩
  · simp only [State.runOutcome, h]
  · simp only [State.runOutcome, h]
  · rcases h with h | h <;> simp only [State.runOutcome, h]
  · have hended : s.isEnded = decide (s.active = [] ∧ s.mq = []) := by
      rw [Bool.eq_iff_iff]
      simp [State.isEnded]
    have haborted : s.isAborted = decide (s.phase = .aborted) := rfl
    rw [State.observe, hended, haborted]
    rfl

end Sys2Proof.Machine
end

section
/-!
The scheduler family, second part: the drain (R255–R257, 60_exceptions.md R383) and the whole cycle of a lone piston.
-/
namespace Sys2Proof.Machine

/-! ### Inserting at an anchor (R256) -/

section
variable {l r : List Piston} {a e : Piston}

theorem insertAt_length (l r : List Piston) (e : Piston) : insertAt (l ++ r) l.length e = l ++ e :: r := by
  rw [insertAt, List.take_left, List.drop_left]

/-- On the left of its anchor an entrant stands immediately before it. -/
theorem insertAt_left (h : ∀ b ∈ l, b.id ≠ a.id) :
    insertAt (l ++ a :: r) (insertIndex (l ++ a :: r) (.id a.id) .left) e = l ++ e :: a :: r := by
  simp only [insertIndex, indexOfId_append h, insertAt_length]

/-- On the right of its anchor an entrant stands immediately after it. -/
theorem insertAt_right (h : ∀ b ∈ l, b.id ≠ a.id) :
    insertAt (l ++ a :: r) (insertIndex (l ++ a :: r) (.id a.id) .right) e = l ++ a :: e :: r := by
  simp only [insertIndex, indexOfId_append h]
  simpa using insertAt_length (l ++ [a]) r e

/-- Without its anchor in the list an entrant goes to the end (60_exceptions.md R383). -/
theorem insertAt_end {anchor : Anchor} (h : anchor = .listEnd ∨ ∃ n, anchor = .id n ∧ ∀ b ∈ l, b.id ≠ n) (side : Side) :
    insertAt l (insertIndex l anchor side) e = l ++ [e] := by
  have hindex : insertIndex l anchor side = l.length := by
    rcases h with rfl | ⟨n, rfl, hn⟩
    · rfl
    · simp only [insertIndex, indexOfId_eq_none hn]
  rw [hindex]
  simpa using insertAt_length l [] e

end

/-- Where ids are unique, no piston before one has its id. -/
theorem ne_id_of_nodup {l r : List Piston} {a : Piston} (h : ((l ++ a :: r).map Piston.id).Nodup) :
    ∀ b ∈ l, b.id ≠ a.id := by
  rw [List.map_append, List.map_cons] at h
  exact fun b hb => (List.nodup_append.1 h).2.2 _ (List.mem_map_of_mem hb) _ List.mem_cons_self

/-! ### Draining one request -/

/-- The piston `e` enters the active list when `q` is drained: it is the copy of a fork, or is detached under the id of
a priority change. -/
def State.Enters (s : State) (q : MergeRequest) (e : Piston) : Prop :=
  q.entrant = .copy e ∨ ∃ n, q.entrant = .detached n ∧ Map.get s.detached n = some e

theorem State.Enters.drainOne_active {s : State} {q : MergeRequest} {e : Piston} (h : s.Enters q e) :
    (s.drainOne q).active = insertAt s.active (insertIndex s.active q.anchor q.side) e := by
  rcases h with hcopy | ⟨n, hn, hget⟩
  · simp only [State.drainOne, hcopy, State.insertEntrant]
  · simp only [State.drainOne, hn, hget, State.insertEntrant]

/-- Draining a request reads the active list and the pool alone. -/
theorem State.drainOne_congr {s t : State} (ha : t.active = s.active) (hd : t.detached = s.detached) (q : MergeRequest) :
    (t.drainOne q).active = (s.drainOne q).active ∧ (t.drainOne q).detached = (s.drainOne q).detached := by
  unfold State.drainOne
  rw [hd]
  cases q.entrant with
  | copy p => simp [State.insertEntrant, ha, hd]
  | detached n =>
    dsimp only
    cases Map.get s.detached n with
    | none => exact ⟨ha, hd⟩
    | some p => simp [State.insertEntrant, ha]

theorem drain_fold_congr (qs : List MergeRequest) {s t : State} (ha : t.active = s.active)
    (hd : t.detached = s.detached) :
    (qs.foldl State.drainOne t).active = (qs.foldl State.drainOne s).active ∧
      (qs.foldl State.drainOne t).detached = (qs.foldl State.drainOne s).detached := by
  induction qs generalizing s t with
  | nil => exact ⟨ha, hd⟩
  | cons q qs ih =>
    obtain ⟨ha', hd'⟩ := State.drainOne_congr ha hd q
    exact ih ha' hd'

theorem State.drain_of_mq_singleton {s : State} {q : MergeRequest} (h : s.mq = [q]) : s.drain = s.drainOne q := by
  rw [State.drain, h, List.foldl_cons, List.foldl_nil]

/-- A drained priority change takes its piston out of the pool, and nothing else leaves it. -/
theorem State.get_drainOne_detached (s : State) (q : MergeRequest) (m : PistonId) :
    Map.get (s.drainOne q).detached m = if q.entrant = .detached m then none else Map.get s.detached m := by
  cases he : q.entrant with
  | copy p => simp [State.drainOne, he, State.insertEntrant]
  | detached n =>
    cases hget : Map.get s.detached n with
    | none =>
      by_cases hn : n = m
      · subst hn; simp [State.drainOne, he, hget]
      · simp [State.drainOne, he, hget, hn]
    | some p =>
      by_cases hn : n = m
      · subst hn; simp [State.drainOne, he, hget, State.insertEntrant, Map.get_erase_self]
      · simp [State.drainOne, he, hget, State.insertEntrant, hn, Map.get_erase_other _ (Ne.symm hn)]

/-- Settles O34: the drain empties the pool, and step 4 the queue. -/
theorem drainLeavesNothingDetached : Obligations.DrainLeavesNothingDetached :=
  fun _ hs => ⟨hs.drain_detached, rfl⟩

/-- Settles O35: the permutation over the whole queue, and the places of one entrant by its anchor and side. -/
theorem drainKeepsEveryPiston : Obligations.DrainKeepsEveryPiston := by
  refine ⟨fun _ hs => hs.drain_active_perm, fun _ => rfl, fun s q e he => ?_⟩
  have hactive := State.Enters.drainOne_active he
  refine ⟨fun l a r hl hfirst hanchor => ⟨fun hside => ?_, fun hside => ?_⟩, fun hend => ?_,
    s.get_drainOne_detached q, drain_fold_frame [q] s⟩
  · rw [hactive, hl, hanchor, hside, insertAt_left hfirst]
  · rw [hactive, hl, hanchor, hside, insertAt_right hfirst]
  · rw [hactive, insertAt_end hend]

/-! ### The cycle of a lone piston (R250–R259) -/

/-- A pass over one piston is its step. -/
theorem runPass_singleton {s t : State} {n : PistonId} (hk : s.killed = false) (h : s.stepPiston n = .next t) :
    runPass [n] s = .next t := by
  by_cases ha : t.phase = .aborted
  · exact runPass_of_aborted hk h ha []
  · exact runPass_of_next hk h ha []

/-- Settles O47: the pass is the one piston's step, which is the instruction, and O48 says what follows a pass. -/
theorem stepOfOnePistonRunsItsInstruction : Obligations.StepOfOnePistonRunsItsInstruction := by
  intro s u p w i hi hp hactive hw hd hu
  have hbegin : s.beginPass = { s with snapshot := [p.id], killed := false, receiver := none } := by
    rw [State.beginPass, hactive]; rfl
  have hexec : exec i { s.beginPass with receiver := some p.id } = .next u := by rw [hbegin]; exact hu
  have hfind : (s.active.find? fun q => q.id == p.id) = some p := by rw [hactive]; simp
  have hstep : s.beginPass.stepPiston p.id = .next { u with receiver := none } :=
    (pistonStepRunsTheDecodedInstruction s.beginPass p.id p w i hfind hw hd).trans (congrArg _ hexec)
  have hpass : runPass (s.active.map Piston.id) s.beginPass = .next { u with receiver := none } := by
    rw [hactive]; exact runPass_singleton rfl hstep
  obtain ⟨hgo, habort⟩ := passStepsThePistonsInOrder.1 s _ hi hp hpass
  refine ⟨habort, fun hn => ?_⟩
  obtain ⟨hnext, hframe⟩ := hgo hn
  obtain ⟨hdrained, hpool⟩ := drain_fold_congr u.mq (s := u) (t := { u with receiver := none }) rfl rfl
  have hcycle : (State.finishCycle { u with receiver := none }).cycle = u.cycle + 1 := by rw [hframe]
  refine ⟨_, hnext, congrArg _ hdrained, rfl, hpool, hcycle, phaseAfterCycle_eq_ended_iff _,
    phaseAfterCycle_eq_running_iff _, ?_⟩
  rw [hcycle]
  exact State.finishCycle_frame _

end Sys2Proof.Machine
end

section
/-!
The scheduler family, third part: forks and priority changes (R260–R269).
-/
namespace Sys2Proof.Machine

/-! ### Fork (R260, R261) -/

section
variable {s : State} {n : PistonId} {p : Piston} (hr : s.receiver = some n) (hp : s.locate n = some p)
include hr hp

theorem perform_fork (d : ForkDir) : Prim.perform (.fork d) s = .done () (s.afterFork n p d) :=
  State.withReceiver_some _ hr hp

theorem perform_setPriority (v : Int) : Prim.perform (.setPriority v) s = .done () (s.afterPriority n p v) :=
  State.withReceiver_some _ hr hp

end

section
variable (c : Config) (d : ForkDir) (n : PistonId) (p : Piston)

/-- The copy stands one cell on from its original, in the direction it has turned to. -/
theorem forkCopy_place :
    (forkCopy c d n p).x = ((p.x + (Dir.unit (forkCopy c d n p).dir).1) % (c.maxInteger : Int)).toNat ∧
      (forkCopy c d n p).y = ((p.y + (Dir.unit (forkCopy c d n p).dir).2) % (c.maxInteger : Int)).toNat := by
  have hx : ((p.copy n).forkTurn d).x = p.x := by cases d <;> rfl
  have hy : ((p.copy n).forkTurn d).y = p.y := by cases d <;> rfl
  simp only [forkCopy, Piston.move, modM, hx, hy, Int.one_mul, and_self]

/-- What the copy has of its original. -/
theorem forkCopy_kept :
    (forkCopy c d n p).reg = p.reg ∧ (forkCopy c d n p).priority = p.priority ∧
      (forkCopy c d n p).ended = p.ended := by
  cases d <;> exact ⟨rfl, rfl, rfl⟩

end

/-- Settles O29: the queued piston is `forkCopy`, its direction and side by the direction of the fork. -/
theorem forkQueuesATurnedCopy : Obligations.ForkQueuesATurnedCopy := by
  intro s n p d hr hp
  obtain ⟨hreg, hpriority, hended⟩ := forkCopy_kept s.cfg d s.nextId p
  obtain ⟨hx, hy⟩ := forkCopy_place s.cfg d s.nextId p
  refine ⟨forkCopy s.cfg d s.nextId p, forkSide s.cfg d, perform_fork hr hp d, forkCopy_id _ _ _ _, hreg, hpriority,
    hended, ?_, ?_, ?_, hx, hy⟩ <;> rintro rfl <;> exact ⟨rfl, rfl⟩

/-- The copy a fork queues is drained last. -/
theorem State.drain_afterFork_active (s : State) (n : PistonId) (p : Piston) (d : ForkDir) :
    (s.afterFork n p d).drain.active =
      insertAt s.drain.active (insertIndex s.drain.active (.id n) (forkSide s.cfg d)) (forkCopy s.cfg d s.nextId p) := by
  obtain ⟨hactive, _⟩ := drain_fold_congr s.mq (s := s) (t := s.afterFork n p d) rfl rfl
  simp only [State.drain, State.afterFork, List.foldl_append, List.foldl_cons, List.foldl_nil]
  rw [State.Enters.drainOne_active (.inl rfl), ← hactive]
  rfl

/-- Settles O37: the second copy is drained into the list the first one left, its anchor found again there. -/
theorem twoForksAtOneAnchor : Obligations.TwoForksAtOneAnchor := by
  intro s t u p d e hactive hmq hdetached hr hid ht hu
  have hp : s.locate p.id = some p := by simp [State.locate, hactive, hdetached]
  obtain rfl : s.afterFork p.id p d = t := by
    rw [perform_fork hr hp] at ht; cases ht; rfl
  obtain rfl : (s.afterFork p.id p d).afterFork p.id p e = u := by
    rw [perform_fork (s := s.afterFork p.id p d) hr hp] at hu; cases hu; rfl
  have ha : (forkCopy s.cfg d s.nextId p).id = s.nextId := forkCopy_id _ _ _ _
  have hne : ∀ x ∈ [forkCopy s.cfg d s.nextId p], x.id ≠ p.id := by
    intro x hx
    rw [List.mem_singleton.1 hx, ha]
    exact Nat.ne_of_gt hid
  have hfirst := s.drain_afterFork_active p.id p d
  rw [State.drain_of_mq_nil hmq, hactive] at hfirst
  have hsecond := (s.afterFork p.id p d).drain_afterFork_active p.id p e
  refine ⟨_, _, ha, forkCopy_id s.cfg e (s.nextId + 1) p, ?_, ?_, ?_⟩ <;> rintro rfl rfl
  · rw [hsecond, hfirst.trans (insertAt_right (l := []) (r := []) nofun)]
    exact insertAt_right (l := []) nofun
  · rw [hsecond, hfirst.trans (insertAt_left (l := []) (r := []) nofun)]
    exact insertAt_left (l := [_]) hne
  · rw [hsecond, hfirst.trans (insertAt_left (l := []) (r := []) nofun)]
    exact insertAt_right (l := [_]) hne

/-! ### The copy of a left fork (R269) -/

theorem indexOfId_eq_some {l : List Piston} {n : PistonId} {j : Nat} (h : indexOfId l n = some j) :
    ∃ a, l[j]? = some a ∧ a.id = n := by
  induction l generalizing j with
  | nil => cases h
  | cons b l ih =>
    simp only [indexOfId] at h
    split at h
    case isTrue hb => cases h; exact ⟨b, rfl, hb⟩
    case isFalse =>
      obtain ⟨i, hi, rfl⟩ := Option.map_eq_some_iff.1 h
      exact ih hi

/-- Two pistons stay neighbours unless one is inserted right between them. -/
theorem insertAt_keeps_neighbours {l r : List Piston} {q p : Piston} {i : Nat} (hi : i ≠ l.length + 1) (e : Piston) :
    ∃ l' r', insertAt (l ++ q :: p :: r) i e = l' ++ q :: p :: r' := by
  rcases Nat.lt_or_ge l.length i with h | h
  · obtain ⟨k, rfl⟩ : ∃ k, i = (l ++ [q, p]).length + k := ⟨i - (l.length + 2), by simp; omega⟩
    refine ⟨l, insertAt r k e, ?_⟩
    have hl : l ++ q :: p :: r = (l ++ [q, p]) ++ r := by simp
    rw [hl, insertAt, List.take_length_add_append, List.drop_length_add_append]
    simp [insertAt]
  · refine ⟨insertAt l i e, r, ?_⟩
    rw [insertAt, List.take_append_of_le_length h, List.drop_append_of_le_length h]
    simp [insertAt]

/-- Only a request on the left of `p`, or one anchored on `q`, inserts between two neighbours `q` and `p`. -/
theorem insertIndex_ne_between {l r : List Piston} {q p : Piston} {anchor : Anchor} {side : Side}
    (hq : anchor ≠ .id q.id) (hp : ¬ (anchor = .id p.id ∧ side = .left)) :
    insertIndex (l ++ q :: p :: r) anchor side ≠ l.length + 1 := by
  unfold insertIndex
  split
  case h_1 => simp
  case h_2 n =>
    split
    case h_2 => simp
    case h_1 j hj =>
      obtain ⟨a, ha, rfl⟩ := indexOfId_eq_some hj
      split
      case h_1 =>
        rintro rfl
        obtain rfl : p = a := by simpa using ha
        exact hp ⟨rfl, rfl⟩
      case h_2 =>
        intro h
        obtain rfl : j = l.length := Nat.succ.inj h
        obtain rfl : q = a := by simpa using ha
        exact hq rfl

/-- Draining a request inserts one piston at its place, or leaves the active list as it is. -/
theorem State.drainOne_active_cases (s : State) (q : MergeRequest) :
    (∃ e, (s.drainOne q).active = insertAt s.active (insertIndex s.active q.anchor q.side) e) ∨
      (s.drainOne q).active = s.active := by
  unfold State.drainOne
  split
  · exact .inl ⟨_, rfl⟩
  · split
    · exact .inl ⟨_, rfl⟩
    · exact .inr rfl

theorem insertAt_sublist (l : List Piston) (i : Nat) (e : Piston) : l.Sublist (insertAt l i e) := by
  conv_lhs => rw [← List.take_append_drop i l]
  exact (List.Sublist.refl _).append (List.sublist_cons_self _ _)

/-- Draining takes nothing out of the active list and changes no order in it. -/
theorem drain_fold_sublist (qs : List MergeRequest) (s : State) :
    s.active.Sublist (qs.foldl State.drainOne s).active := by
  induction qs generalizing s with
  | nil => exact List.Sublist.refl _
  | cons q qs ih =>
    refine List.Sublist.trans ?_ (ih _)
    rcases s.drainOne_active_cases q with ⟨e, hq⟩ | hq <;> rw [hq]
    exact insertAt_sublist _ _ _

/-- Later requests keep two neighbours together if none is anchored on the first or on the left of the second. -/
theorem drain_fold_keeps_neighbours {q p : Piston} (qs : List MergeRequest) (s : State)
    (hq : ∀ m ∈ qs, m.anchor ≠ .id q.id) (hp : ∀ m ∈ qs, ¬ (m.anchor = .id p.id ∧ m.side = .left))
    (hs : ∃ l r, s.active = l ++ q :: p :: r) : ∃ l r, (qs.foldl State.drainOne s).active = l ++ q :: p :: r := by
  induction qs generalizing s with
  | nil => exact hs
  | cons m qs ih =>
    refine ih (s.drainOne m) (fun k hk => hq k (List.mem_cons_of_mem _ hk))
      (fun k hk => hp k (List.mem_cons_of_mem _ hk)) ?_
    obtain ⟨l, r, hs⟩ := hs
    rcases s.drainOne_active_cases m with ⟨e, hm⟩ | hm <;> rw [hm, hs]
    · exact insertAt_keeps_neighbours (insertIndex_ne_between (hq m List.mem_cons_self) (hp m List.mem_cons_self)) e
    · exact ⟨l, r, rfl⟩

/-- The pistons in the list while it is drained have distinct ids, so that `p` is the anchor its id names. -/
theorem State.Held.drain_fold_nodup {s : State} (hs : s.Held) {before after : List MergeRequest}
    (hmq : s.mq = before ++ after) : ((before.foldl State.drainOne s).active.map Piston.id).Nodup := by
  have hnodup : (s.drain.active.map Piston.id).Nodup := (hs.drain_active_perm.map Piston.id).nodup_iff.2 hs.unique
  rw [State.drain, hmq, List.foldl_append] at hnodup
  exact hnodup.sublist ((drain_fold_sublist after _).map Piston.id)

/-- Settles O38: the request puts the copy before its original, nothing after it comes between, and neither is pruned. -/
theorem leftForkStandsBeforeItsOriginal : Obligations.LeftForkStandsBeforeItsOriginal := by
  refine ⟨fun s p q before after hs hp hmq hcopy hlater hpe hqe => ?_, fun s t n p q hr hp ht hq => ?_⟩
  · have hmem : p ∈ (before.foldl State.drainOne s).active := (drain_fold_sublist before s).subset hp
    obtain ⟨l, r, hl⟩ := List.append_of_mem hmem
    have hfirst : ∀ b ∈ l, b.id ≠ p.id := ne_id_of_nodup (hl ▸ hs.drain_fold_nodup hmq)
    obtain ⟨l', r', hend⟩ : ∃ l' r', s.drain.active = l' ++ q :: p :: r' := by
      rw [State.drain, hmq, List.foldl_append, List.foldl_cons]
      refine drain_fold_keeps_neighbours after _ (fun m hm => hcopy m ?_) hlater ⟨l, r, ?_⟩
      · rw [hmq]
        exact List.mem_append_right _ (List.mem_cons_of_mem _ hm)
      · rw [State.Enters.drainOne_active (.inl rfl), hl, insertAt_left hfirst]
    exact ⟨_, _, by rw [State.finishCycle_active, hend, List.filter_append,
      List.filter_cons_of_pos (by simp [hqe]), List.filter_cons_of_pos (by simp [hpe])]⟩
  · rw [perform_fork hr hp] at ht
    cases ht
    obtain ⟨rfl, _⟩ : forkCopy s.cfg .left s.nextId p = q ∧ forkSide s.cfg .left = .left := by
      simpa [State.afterFork] using hq
    exact ⟨rfl, forkCopy_place s.cfg .left s.nextId p⟩

/-! ### Priority change (R263–R265) -/

section
variable {v : Int} {l : List Piston}

/-- The anchor is the first piston of no greater priority. -/
theorem prioAnchor_of_first {q : Piston} {r : List Piston} (hl : ∀ a ∈ l, v < a.priority) (hq : q.priority ≤ v) :
    prioAnchor (l ++ q :: r) v = .id q.id := by
  have hnone : (l.find? fun a => decide (a.priority ≤ v)) = none :=
    List.find?_eq_none.2 fun a ha => by simpa using hl a ha
  simp only [prioAnchor, List.find?_append, hnone, Option.none_or, List.find?_cons, hq, decide_true]

theorem prioAnchor_of_none (h : ∀ a ∈ l, v < a.priority) : prioAnchor l v = .listEnd := by
  have hnone : (l.find? fun a => decide (a.priority ≤ v)) = none :=
    List.find?_eq_none.2 fun a ha => by simpa using h a ha
  simp only [prioAnchor, hnone]

end

/-- A list has a first piston of priority at most `v`, or none. -/
theorem first_or_none (v : Int) (l : List Piston) :
    (∃ l' q r, l = l' ++ q :: r ∧ (∀ a ∈ l', v < a.priority) ∧ q.priority ≤ v) ∨ ∀ a ∈ l, v < a.priority := by
  cases h : l.find? fun a => decide (a.priority ≤ v) with
  | none => exact .inr fun a ha => by simpa using List.find?_eq_none.1 h a ha
  | some q =>
    obtain ⟨hq, l', r, hl, hfirst⟩ := List.find?_eq_some_iff_append.1 h
    exact .inl ⟨l', q, r, hl, fun a ha => by simpa using hfirst a ha, by simpa using hq⟩

section
variable {s : State} {n : PistonId}

theorem State.locate_of_active (hd : Map.get s.detached n = none) : s.locate n = s.active.find? fun q => q.id == n := by
  simp only [State.locate, hd]

/-- The first priority change of a piston in a cycle (R263). -/
theorem State.afterPriority_of_active (hd : Map.get s.detached n = none) (p : Piston) (v : Int) :
    s.afterPriority n p v =
      { s with
        active := s.active.filter fun q => decide (q.id ≠ n)
        detached := Map.put (Map.put s.detached n p) n { p with priority := v }
        mq := s.mq ++
          [{ anchor := prioAnchor (s.active.filter fun q => decide (q.id ≠ n)) v, entrant := .detached n
             side := .left }] } := by
  simp only [State.afterPriority, State.detach, hd]

/-- A later priority change of a piston in a cycle (R264). -/
theorem State.afterPriority_of_detached {q : Piston} (hd : Map.get s.detached n = some q) (p : Piston) (v : Int) :
    s.afterPriority n p v =
      { s with
        detached := Map.put s.detached n { p with priority := v }
        mq := (s.mq.filter fun q => !q.isPrioOf n) ++
          [{ anchor := prioAnchor s.active v, entrant := .detached n, side := .left }] } := by
  simp only [State.afterPriority, State.detach, hd]

/-- Whatever priority change it was, withdrawing the piston's requests after it is withdrawing them before it. -/
theorem State.withdraw_afterPriority (p : Piston) (v : Int) :
    ((s.afterPriority n p v).mq.filter fun q => !q.isPrioOf n) = s.mq.filter fun q => !q.isPrioOf n := by
  cases hd : Map.get s.detached n with
  | none => rw [State.afterPriority_of_active hd]; simp [MergeRequest.isPrioOf]
  | some q => rw [State.afterPriority_of_detached hd]; simp [MergeRequest.isPrioOf]

end

/-- Settles O30: the state after a first change, its anchor by the first remaining piston of no greater priority. -/
theorem priorityChangeDetachesAndQueues : Obligations.PriorityChangeDetachesAndQueues := by
  intro s n p v hr hd hfind
  have hp : s.locate n = some p := (State.locate_of_active hd).trans hfind
  have hlocate := s.locate_afterPriority n p v
  have hperform := perform_setPriority hr hp v
  rw [State.afterPriority_of_active hd] at hlocate hperform
  refine ⟨_, _, hperform, rfl, rfl, (hlocate n).trans (if_pos rfl), fun m hm => (hlocate m).trans (if_neg hm),
    fun l q r hsplit hl hq => ?_, prioAnchor_of_none, rfl⟩
  rw [show s.active.filter (fun q => decide (q.id ≠ n)) = l ++ q :: r from hsplit]
  exact prioAnchor_of_first hl hq

/-- Settles O31: the second change withdraws what the first one queued, and `Held` says there is one request each. -/
theorem secondPriorityChangeReplacesTheFirst : Obligations.SecondPriorityChangeReplacesTheFirst := by
  intro s t u n p v w hs hr hp ht hu
  obtain rfl : s.afterPriority n p v = t := by
    rw [perform_setPriority hr hp] at ht; cases ht; rfl
  have hp' : (s.afterPriority n p v).locate n = some { p with priority := v } := by
    rw [State.locate_afterPriority, if_pos rfl]
  have hr' : (s.afterPriority n p v).receiver = some n := by simpa [State.afterPriority] using hr
  obtain rfl : (s.afterPriority n p v).afterPriority n { p with priority := v } w = u := by
    rw [perform_setPriority hr' hp'] at hu; cases hu; rfl
  have hheld := (hs.afterPriority hp v).afterPriority hp' w
  have hd : Map.get (s.afterPriority n p v).detached n = some { p with priority := v } := Map.get_put_self _ _ _
  refine ⟨?_, by rw [State.locate_afterPriority, if_pos rfl], fun m hm => ?_⟩
  · rw [State.afterPriority_of_detached hd, State.withdraw_afterPriority]
  · exact List.count_eq_one_of_mem hheld.requests.1 ((hheld.requests.2 m).2 hm)

/-- Inserting between the pistons of at least its priority and those of at most its priority keeps the order. -/
theorem PriorityOrdered.insert {l r : List Piston} {e : Piston} (h : PriorityOrdered (l ++ r))
    (hl : ∀ a ∈ l, e.priority ≤ a.priority) (hr : ∀ b ∈ r, b.priority ≤ e.priority) : PriorityOrdered (l ++ e :: r) := by
  obtain ⟨hll, hrr, hlr⟩ := List.pairwise_append.1 h
  refine List.pairwise_append.2 ⟨hll, List.pairwise_cons.2 ⟨hr, hrr⟩, fun a ha b hb => ?_⟩
  rcases List.mem_cons.1 hb with rfl | hb
  · exact hl a ha
  · exact hlr a ha b hb

/-- At the anchor of its priority an entrant keeps the order (R263, R265). -/
theorem PriorityOrdered.insertAt_prioAnchor {l : List Piston} {e : Piston} (h : PriorityOrdered l)
    (hn : (l.map Piston.id).Nodup) :
    PriorityOrdered (insertAt l (insertIndex l (prioAnchor l e.priority) .left) e) := by
  rcases first_or_none e.priority l with ⟨l', q, r, rfl, hl, hq⟩ | hl
  · have hfirst : ∀ b ∈ l', b.id ≠ q.id := by
      rw [List.map_append, List.map_cons] at hn
      exact fun b hb => (List.nodup_append.1 hn).2.2 _ (List.mem_map_of_mem hb) _ List.mem_cons_self
    rw [prioAnchor_of_first hl hq, insertAt_left hfirst]
    refine h.insert (fun a ha => (hl a ha).le) fun b hb => ?_
    rcases List.mem_cons.1 hb with rfl | hb
    · exact hq
    · exact ((List.pairwise_cons.1 (List.pairwise_append.1 h).2.1).1 b hb).trans hq
  · rw [prioAnchor_of_none hl, insertAt_end (.inl rfl)]
    exact PriorityOrdered.insert (r := []) (by simpa using h) (fun a ha => (hl a ha).le) nofun

/-- With nothing else queued the drain puts the receiver back at the anchor of its new priority. -/
theorem State.drain_afterPriority_active {s : State} {n : PistonId} (hd : Map.get s.detached n = none)
    (hmq : s.mq = []) (p : Piston) (v : Int) {rest : List Piston}
    (hrest : (s.active.filter fun q => decide (q.id ≠ n)) = rest) :
    (s.afterPriority n p v).drain.active =
      insertAt rest (insertIndex rest (prioAnchor rest v) .left) { p with priority := v } := by
  subst hrest
  rw [State.afterPriority_of_active hd, hmq, State.drain_of_mq_singleton rfl]
  exact State.Enters.drainOne_active (.inr ⟨n, rfl, Map.get_put_self _ _ _⟩)

/-- Settles O32: the drain inserts the receiver into the list without it, at the anchor of its new priority. -/
theorem onePriorityChangeKeepsTheOrder : Obligations.OnePriorityChangeKeepsTheOrder := by
  intro s t n p v hn hmq hdetached hr hp ho ht
  have hd : Map.get s.detached n = none := by rw [hdetached]; rfl
  obtain rfl : s.afterPriority n p v = t := by
    rw [perform_setPriority hr hp] at ht; cases ht; rfl
  have hsub : (s.active.filter fun q => decide (q.id ≠ n)).Sublist s.active := List.filter_sublist
  rw [State.drain_afterPriority_active hd hmq p v rfl]
  exact ⟨PriorityOrdered.insertAt_prioAnchor (e := { p with priority := v }) (ho.sublist hsub)
    (hn.sublist (hsub.map Piston.id)), insertAt_perm _ _ _⟩

end Sys2Proof.Machine
end

section
/-!
The memory and IO family (43_memory_io.md R300–R307): the decimal text of a number, and what the memory and IO primitives
give, store and raise.
-/
namespace Sys2Proof.Machine

/-! ### Memory (R300, R301) -/

/-- Settles O39: the read law of a write. -/
theorem memoryReadsTheLastWrite : Obligations.MemoryReadsTheLastWrite :=
  ⟨fun _ => rfl, fun s a v => ⟨rfl, _, rfl, rfl, fun b => Memory.read_write s.mem a b v⟩⟩

/-! ### The decimal text of a number (R305) -/

/-- With fuel above the number, what is put before `acc` are the digits of Mathlib's `Nat.digits`. -/
theorem decimalAux_eq (fuel : Nat) {n : Nat} (acc : Text) (hn : n ≠ 0) (hfuel : n < fuel) :
    decimalAux fuel n acc = (Nat.digits 10 n).reverse.map (48 + ·) ++ acc := by
  induction fuel generalizing n acc with
  | zero => omega
  | succ fuel ih =>
    rw [decimalAux]
    split
    case isTrue hlt => rw [Nat.digits_of_lt 10 n hn hlt]; rfl
    case isFalse hge =>
      rw [ih _ (by omega) (by omega), Nat.digits_def' (by omega) (Nat.pos_of_ne_zero hn)]
      simp

theorem decimal_of_ne_zero {n : Nat} (hn : n ≠ 0) : decimal n = (Nat.digits 10 n).reverse.map (48 + ·) :=
  (decimalAux_eq (n + 1) [] hn n.lt_succ_self).trans (List.append_nil _)

theorem decimal_zero : decimal 0 = [48] := rfl

theorem decimal_ne_nil (n : Nat) : decimal n ≠ [] := by
  rcases eq_or_ne n 0 with rfl | hn
  · exact List.cons_ne_nil _ _
  · simpa [decimal_of_ne_zero hn, Nat.digits_eq_nil_iff_eq_zero] using hn

theorem decimal_digits {n c : Nat} (hc : c ∈ decimal n) : 48 ≤ c ∧ c ≤ 57 := by
  rcases eq_or_ne n 0 with rfl | hn
  · obtain rfl : c = 48 := List.mem_singleton.1 hc
    omega
  · rw [decimal_of_ne_zero hn] at hc
    obtain ⟨d, hd, rfl⟩ := List.mem_map.1 hc
    have hlt : d < 10 := Nat.digits_lt_base (by omega) (List.mem_reverse.1 hd)
    omega

theorem ofDigits_decimal (n : Nat) : Nat.ofDigits 10 ((decimal n).map fun c => c - 48).reverse = n := by
  rcases eq_or_ne n 0 with rfl | hn
  · rfl
  · have hinverse : (decimal n).map (fun c => c - 48) = (Nat.digits 10 n).reverse := by
      simp [decimal_of_ne_zero hn, Function.comp_def]
    rw [hinverse, List.reverse_reverse, Nat.ofDigits_digits]

theorem eq_zero_of_decimal_head {n : Nat} (h : (decimal n).head? = some 48) : n = 0 := by
  by_contra hn
  have hlast : (Nat.digits 10 n).getLast? = some 0 := by simpa [decimal_of_ne_zero hn] using h
  rw [List.getLast?_eq_some_getLast (Nat.digits_ne_nil_iff_ne_zero.2 hn)] at hlast
  exact Nat.getLast_digit_ne_zero 10 hn (Option.some.inj hlast)

/-- Settles O44: the text is `decimal n`. -/
theorem outNumAppendsTheDecimalText : Obligations.OutNumAppendsTheDecimalText := by
  refine fun s n => ⟨decimal n, rfl, decimal_ne_nil n, fun _ => decimal_digits, ofDigits_decimal n, fun hhead => ?_⟩
  obtain rfl := eq_zero_of_decimal_head hhead
  exact ⟨decimal_zero, rfl⟩

/-! ### Input (R302–R304) -/

section
variable {s : State}

theorem perform_inNum_of_run {digits rest : Text} (hinput : s.input = digits ++ rest)
    (hdigits : ∀ c ∈ digits, 48 ≤ c ∧ c ≤ 57) (hrest : ∀ c cs, rest = c :: cs → ¬ (48 ≤ c ∧ c ≤ 57)) :
    Prim.perform .inNum s =
      .done (Nat.ofDigits 10 ((digits.map fun c => c - 48).reverse) % s.cfg.maxInteger) { s with input := rest } := by
  obtain ⟨htake, hdrop⟩ := takeWhile_run hdigits hrest
  change primInNum s = _
  rw [primInNum, hinput, htake, hdrop, digitsValue_eq, modM_natCast]

theorem perform_inNum_nil (hinput : s.input = []) : Prim.perform .inNum s = .done 0 s := by
  have hsame : { s with input := [] } = s := by rw [← hinput]
  rw [perform_inNum_of_run (digits := []) hinput nofun nofun, hsame]
  simp

theorem perform_inChar_nil (hinput : s.input = []) : Prim.perform .inChar s = .done 0 s := by
  change primInChar s = _
  simp only [primInChar, hinput]

theorem perform_inChar_cons {c : Nat} {cs : Text} (hinput : s.input = c :: cs) :
    Prim.perform .inChar s = .done c { s with input := cs } := by
  change primInChar s = _
  simp only [primInChar, hinput]

end

/-- Settles O41: the run up to a character that is no digit is the longest one. -/
theorem inNumConsumesTheDigitRun : Obligations.InNumConsumesTheDigitRun :=
  fun _ _ _ _ hinput hdigits hrest => perform_inNum_of_run hinput hdigits hrest

/-- Settles O42: the decimal text of `n` is a run of digits whose value is `n`. -/
theorem inNumReadsBackAWrittenNumber : Obligations.InNumReadsBackAWrittenNumber := by
  intro s n rest _ hinput hrest
  rw [perform_inNum_of_run hinput (fun _ => decimal_digits) hrest, ofDigits_decimal]

/-- Settles O43: only `GET_REG` and `OUT_TOKEN` raise; `IN_CHAR` goes by whether the input is exhausted. -/
theorem inputPrimitivesNeverRaise : Obligations.InputPrimitivesNeverRaise :=
  fun s => ⟨Prim.perform_ne_raise (p := .inNum) nofun nofun s, Prim.perform_ne_raise (p := .inChar) nofun nofun s,
    fun hinput => ⟨perform_inChar_nil hinput, perform_inNum_nil hinput⟩, fun _ _ => perform_inChar_cons⟩

/-! ### Tokens (R306, R307) -/

theorem hexDigit_eq_some_iff (c v : Nat) :
    hexDigit c = some v ↔
      (48 ≤ c ∧ c ≤ 57 ∧ v = c - 48) ∨ (97 ≤ c ∧ c ≤ 102 ∧ v = c - 97 + 10) ∨
        (65 ≤ c ∧ c ≤ 70 ∧ v = c - 65 + 10) := by
  unfold hexDigit
  split_ifs <;> simp only [Option.some.injEq, false_iff] <;> omega

theorem hexval_of_digits {ds : Text} {vs : List Nat} (hne : ds ≠ []) (hds : ds.map hexDigit = vs.map some) :
    hexval (48 :: 120 :: ds) = some (Nat.ofDigits 16 vs.reverse) := by
  obtain ⟨d, ds, rfl⟩ := List.exists_cons_of_ne_nil hne
  rw [hexval, if_pos rfl, hexDigits_ok _ vs hds, Nat.zero_mul, Nat.zero_add]

/-- The three ways a token with second character `x` fails: its first is not `0`, nothing follows, or what follows is not
all hexadecimal digits (R307). -/
theorem hexval_eq_none {c : Nat} {ds : Text} (h : c ≠ 48 ∨ ds = [] ∨ ∃ d ∈ ds, hexDigit d = none) :
    hexval (c :: 120 :: ds) = none := by
  cases ds with
  | nil => rfl
  | cons d ds =>
    rw [hexval]
    rcases h with hc | hnil | hbad
    · exact if_neg hc
    · cases hnil
    · rw [hexDigits_bad _ hbad, ite_self]

theorem tokenValue_of_ne_x {c d : Nat} (rest : Text) (hd : d ≠ 120) : tokenValue (c :: d :: rest) = .ok c :=
  if_neg hd

theorem tokenValue_of_hexval {c v : Nat} {rest : Text} (h : hexval (c :: 120 :: rest) = some v) :
    tokenValue (c :: 120 :: rest) = .ok v := by
  simp only [tokenValue, if_true, h]

theorem tokenValue_of_hexval_none {c : Nat} {rest : Text} (h : hexval (c :: 120 :: rest) = none) :
    tokenValue (c :: 120 :: rest) = .error (.malformedHexToken (c :: 120 :: rest)) := by
  simp only [tokenValue, if_true, h]

theorem perform_outToken_ok {t : Text} {v : Nat} (h : tokenValue t = .ok v) (s : State) :
    Prim.perform (.outToken t) s = .done () (s.emit v t) := by
  change primOutToken t s = _
  simp only [primOutToken, h]

theorem perform_outToken_error {t : Text} {e : ErrorKind} (h : tokenValue t = .error e) (s : State) :
    Prim.perform (.outToken t) s = .raise e := by
  change primOutToken t s = _
  simp only [primOutToken, h]

/-- Settles O45: the value or the error of each form of token. -/
theorem outTokenStoresItsValue : Obligations.OutTokenStoresItsValue :=
  fun s => ⟨perform_outToken_error rfl s, fun _ => perform_outToken_ok rfl s,
    fun _ _ rest hd => perform_outToken_ok (tokenValue_of_ne_x rest hd) s,
    fun _ _ hne hds => perform_outToken_ok (tokenValue_of_hexval (hexval_of_digits hne hds)) s,
    fun _ _ h => perform_outToken_error (tokenValue_of_hexval_none (hexval_eq_none h)) s, hexDigit_eq_some_iff⟩

end Sys2Proof.Machine
end

section
/-!
The host interface family (44_host_interface.md R350, R351, R354): the pistons of the start points, the state the reset
procedure leaves, and what `new`, `reset` and `kill` answer.
-/
namespace Sys2Proof.Machine

/-- A command that answers has an engine, and answers its procedure's state. -/
theorem State.whenEngine_eq_next_iff {s t u : State} :
    s.whenEngine t = .next u ↔ s.cfg.registry.initError = none ∧ t = u := by
  unfold State.whenEngine
  cases s.cfg.registry.initError <;> simp

/-! ### The pistons of the start points (70_reset_and_hazards.md R431) -/

/-- The piston a start point spawns under an id. -/
def startPiston (c : Config) (n : PistonId) (sp : StartPoint) : Piston :=
  { id := n, x := sp.x % c.maxInteger, y := sp.y % c.maxInteger, dir := sp.dir, reg := [], priority := c.prioInit
    ended := false }

/-- The pistons a list of start points spawns, in order, with ids from `n`. -/
def startPistons (c : Config) (n : PistonId) (sps : List StartPoint) : List Piston :=
  sps.mapIdx fun i sp => startPiston c (n + i) sp

theorem startPiston_ok {c : Config} (hm : 1 ≤ c.maxInteger) (n : PistonId) (sp : StartPoint) :
    Piston.Ok c.maxInteger (startPiston c n sp) :=
  ⟨Nat.mod_lt _ hm, Nat.mod_lt _ hm, .nil, nofun⟩

theorem mem_startPistons {c : Config} {n : PistonId} {sps : List StartPoint} {p : Piston}
    (h : p ∈ startPistons c n sps) : ∃ m sp, p = startPiston c m sp := by
  obtain ⟨_, _, rfl⟩ := List.mem_mapIdx.1 h
  exact ⟨_, _, rfl⟩

theorem startPistons_cons (c : Config) (n : PistonId) (sp : StartPoint) (sps : List StartPoint) :
    startPistons c n (sp :: sps) = startPiston c n sp :: startPistons c (n + 1) sps := by
  simp only [startPistons, List.mapIdx_cons, Nat.add_zero, Nat.add_assoc, Nat.add_comm 1]

theorem startPistons_eq_nil_iff (c : Config) (n : PistonId) (sps : List StartPoint) :
    startPistons c n sps = [] ↔ sps = [] :=
  List.mapIdx_eq_nil_iff

theorem startPistons_ids (c : Config) (n : PistonId) (sps : List StartPoint) :
    (startPistons c n sps).map Piston.id = List.range' n sps.length := by
  induction sps generalizing n with
  | nil => rfl
  | cons sp sps ih => rw [startPistons_cons, List.map_cons, ih, List.length_cons, List.range'_succ]; rfl

/-! ### The reset procedure (70_reset_and_hazards.md R431) -/

theorem State.spawn_eq (s : State) (sp : StartPoint) :
    s.spawn sp = { s with active := s.active ++ [startPiston s.cfg s.nextId sp], nextId := s.nextId + 1 } := by
  simp only [State.spawn, startPiston, modM_natCast]

theorem spawn_fold_eq (sps : List StartPoint) (s : State) :
    sps.foldl State.spawn s =
      { s with active := s.active ++ startPistons s.cfg s.nextId sps, nextId := s.nextId + sps.length } := by
  induction sps generalizing s with
  | nil => simp [startPistons]
  | cons sp sps ih =>
    rw [List.foldl_cons, ih, State.spawn_eq, startPistons_cons]
    simp only [List.append_assoc, List.singleton_append, List.length_cons, Nat.add_assoc, Nat.add_comm 1]

/-- Reset is what it clears, with the pistons of the start points as the active list. -/
theorem State.resetProcedure_eq (s : State) :
    s.resetProcedure =
      { s.clear with
        phase := if s.cfg.startPoints = [] then .ended else .ready
        active := startPistons s.cfg s.nextId s.cfg.startPoints
        nextId := s.nextId + s.cfg.startPoints.length } := by
  have hseed : s.clear.seed =
      { s.clear with
        active := startPistons s.cfg s.nextId s.cfg.startPoints
        nextId := s.nextId + s.cfg.startPoints.length } := spawn_fold_eq s.cfg.startPoints s.clear
  simp only [State.resetProcedure, hseed, startPistons_eq_nil_iff]

theorem State.resetProcedure_active (s : State) :
    s.resetProcedure.active = startPistons s.cfg s.nextId s.cfg.startPoints := by
  rw [State.resetProcedure_eq]

theorem State.resetProcedure_phase (s : State) :
    s.resetProcedure.phase = if s.cfg.startPoints = [] then .ended else .ready := by
  rw [State.resetProcedure_eq]

theorem State.resetProcedure_phase_eq_ended_iff (s : State) :
    s.resetProcedure.phase = .ended ↔ s.cfg.startPoints = [] := by
  rw [State.resetProcedure_phase]
  split <;> simp_all

theorem State.resetProcedure_phase_eq_ready_iff (s : State) :
    s.resetProcedure.phase = .ready ↔ s.cfg.startPoints ≠ [] := by
  rw [State.resetProcedure_phase]
  split <;> simp_all

/-- After reset the engine holds the pistons of the start points and no other. -/
theorem State.resetProcedure_held_eq (s : State) :
    s.resetProcedure.held = startPistons s.cfg s.nextId s.cfg.startPoints := by
  simp [State.resetProcedure_eq, State.held, copiesOf]

theorem State.resetProcedure_held {s : State} (hm : 1 ≤ s.cfg.maxInteger) : s.resetProcedure.Held where
  modulus := by rwa [State.resetProcedure_eq]
  memory := by rw [State.resetProcedure_eq]; exact Memory.nil_wf
  bounds := by
    intro p hp
    rw [State.resetProcedure_held_eq] at hp
    obtain ⟨n, sp, rfl⟩ := mem_startPistons hp
    rw [State.resetProcedure_eq]
    exact startPiston_ok hm n sp
  unique := by
    rw [State.resetProcedure_held_eq, startPistons_ids]
    exact List.nodup_range'
  given := by
    intro p hp
    rw [State.resetProcedure_held_eq] at hp
    have hid : p.id ∈ List.range' s.nextId s.cfg.startPoints.length :=
      startPistons_ids s.cfg _ _ ▸ List.mem_map_of_mem hp
    rw [State.resetProcedure_eq]
    exact (List.mem_range'_1.1 hid).2
  pool := by rw [State.resetProcedure_eq]; exact ⟨.nil, nofun⟩
  requests := by rw [State.resetProcedure_eq]; exact ⟨.nil, fun _ => .rfl⟩

/-- Reset establishes the invariant from any state, whenever `M ≥ 1`. -/
theorem State.resetProcedure_inv {s : State} (hm : 1 ≤ s.cfg.maxInteger) : s.resetProcedure.Inv where
  held := State.resetProcedure_held hm
  record := by
    have hphase : s.resetProcedure.phase ≠ .aborted := by
      rw [State.resetProcedure_phase]
      split <;> simp
    refine iff_of_false ?_ hphase
    rw [State.resetProcedure_eq]
    exact Bool.false_ne_true
  drained := fun _ => by rw [State.resetProcedure_eq]; exact ⟨rfl, rfl⟩
  live := by
    intro _ p hp
    rw [State.resetProcedure_active] at hp
    obtain ⟨n, sp, rfl⟩ := mem_startPistons hp
    rfl
  ended := fun _ => by
    rw [State.resetProcedure_active, startPistons_eq_nil_iff]
    exact s.resetProcedure_phase_eq_ended_iff
  idle := by rw [State.resetProcedure_eq]; exact ⟨rfl, rfl, rfl⟩

/-! ### `kill()` (44_host_interface.md R354) -/

theorem State.killProcedure_phase_of_ne_aborted {s : State} (h : s.phase ≠ .aborted) :
    s.killProcedure.phase = .ended :=
  if_neg h

theorem State.killProcedure_phase_of_aborted {s : State} (h : s.phase = .aborted) :
    s.killProcedure.phase = .aborted :=
  if_pos h

theorem State.killProcedure_phase_eq_aborted_iff (s : State) :
    s.killProcedure.phase = .aborted ↔ s.phase = .aborted := by
  refine ⟨fun h => ?_, State.killProcedure_phase_of_aborted⟩
  by_contra hn
  exact absurd ((State.killProcedure_phase_of_ne_aborted hn).symm.trans h) nofun

/-- `kill()` keeps the invariant: it empties the lists, and the record stays with the phase. -/
theorem State.Inv.killProcedure {s : State} (hs : s.Inv) : s.killProcedure.Inv where
  held := hs.held.emptyLists.of_same rfl hs.held.memory rfl rfl rfl rfl
  record := hs.record.trans s.killProcedure_phase_eq_aborted_iff.symm
  drained := fun _ => ⟨rfl, rfl⟩
  live := fun _ => nofun
  ended := fun hn =>
    iff_of_true (State.killProcedure_phase_of_ne_aborted (mt s.killProcedure_phase_eq_aborted_iff.2 hn)) rfl
  idle := hs.idle

/-! ### The obligations -/

/-- Settles O57: `new` is a reset, reset establishes the invariant from any state, and `kill` keeps it. -/
theorem hostCommandsKeepTheInvariant : Obligations.HostCommandsKeepTheInvariant := by
  refine ⟨fun c text t hm h => ?_, fun s t hm h => ?_, fun s t hs h => ?_⟩
  · obtain ⟨_, rfl⟩ := State.whenEngine_eq_next_iff.1 h
    exact State.resetProcedure_inv (s := State.blank c text) hm
  · obtain ⟨_, rfl⟩ := State.whenEngine_eq_next_iff.1 h
    exact State.resetProcedure_inv hm
  · obtain ⟨_, rfl⟩ := State.whenEngine_eq_next_iff.1 h
    exact hs.killProcedure

/-- Settles O52: the state of `resetProcedure_eq` for the blank engine, whose next id is 0. -/
theorem newEngineRightAfterConstruction : Obligations.NewEngineRightAfterConstruction := by
  intro c text hinit
  have hnext : newEngine c text = .next (State.blank c text).resetProcedure :=
    State.whenEngine_eq_next_iff.2 ⟨hinit, rfl⟩
  refine ⟨_, hnext, hnext, ?_⟩
  have hactive : startPistons c 0 c.startPoints = c.startPoints.mapIdx fun i sp => startPiston c i sp := by
    simp only [startPistons, Nat.zero_add]
  have hids : (startPistons c 0 c.startPoints).map Piston.id = List.range c.startPoints.length := by
    rw [startPistons_ids, List.range_eq_range']
  have hunset : ∀ p ∈ startPistons c 0 c.startPoints, ∀ r, p.cell r = .unset := by
    intro p hp r
    obtain ⟨n, sp, rfl⟩ := mem_startPistons hp
    rfl
  have hended := (State.blank c text).resetProcedure_phase_eq_ended_iff
  have hready := (State.blank c text).resetProcedure_phase_eq_ready_iff
  rw [State.resetProcedure_eq] at hended hready ⊢
  exact ⟨hactive, rfl, rfl, rfl, rfl, rfl, rfl, rfl, rfl, rfl, rfl, fun _ => rfl, hids, Nat.zero_add _, hunset,
    hended, hready⟩

/-- Settles O53: `kill()` writes the three lists and the phase, and only an aborted engine keeps its phase. -/
theorem hostKillEmptiesTheLists : Obligations.HostKillEmptiesTheLists :=
  fun _ hinit => ⟨_, State.whenEngine_eq_next_iff.2 ⟨hinit, rfl⟩, rfl, rfl, rfl,
    State.killProcedure_phase_of_ne_aborted, fun ha => ⟨State.killProcedure_phase_of_aborted ha, rfl⟩, rfl⟩

end Sys2Proof.Machine
end

section
/-!
The exceptions family (60_exceptions.md): what an abort leaves of a failing step (R387, R388), the pass it ends (R386),
the record the host reads (10_state.md R52), and the way out of ABORTED (R390).
-/
namespace Sys2Proof.Machine

/-! ### The failing step (R387, R388) -/

/-- A handler program that comes to its end keeps the phase, so an instruction that enters ABORTED has raised. -/
theorem exec_enterAbort_of_aborted {i : Instr} {s t : State} (hs : s.phase ≠ .aborted) (h : exec i s = .next t)
    (ht : t.phase = .aborted) : ∃ k p, s.receiverPiston = some p ∧ t = s.enterAbort k p (some (encode i)) := by
  rcases exec_next h with ⟨prog, hx⟩ | ⟨n, p, k, hr, hp, rfl⟩
  · obtain ⟨_, hphase, _⟩ := HProg.exec_frame prog hx
    exact absurd (hphase.symm.trans ht) hs
  · exact ⟨k, p, (State.receiverPiston_some hr).trans hp, rfl⟩

/-- Settles O21: the abort an instruction takes is entered on the state before it. -/
theorem failingStepHasNoEffect : Obligations.FailingStepHasNoEffect :=
  fun _ _ _ => exec_enterAbort_of_aborted

/-- A piston step that aborts enters the abort on the state before it, with the word fetched for the piston found under
its id. That piston is the one the record names, unless another is detached under the same id. -/
theorem State.stepPiston_enterAbort_of_aborted {s t : State} {n : PistonId} (hs : s.phase ≠ .aborted)
    (h : s.stepPiston n = .next t) (ht : t.phase = .aborted) :
    ∃ q k p, (s.active.find? fun q => q.id == n) = some q ∧ (p = q ∨ s.locate n = some p) ∧
      t = { s.enterAbort k p (s.fetch q) with receiver := none } := by
  obtain ⟨q, hq, ⟨hw, rfl⟩ | ⟨w, u, hw, hu, rfl⟩⟩ := State.stepPiston_cases h
  · exact ⟨q, _, q, hq, .inl rfl, by rw [hw]; rfl⟩
  · obtain ⟨k, p, hp, rfl⟩ := exec_enterAbort_of_aborted (s := { s with receiver := some n }) hs hu ht
    exact ⟨q, k, p, hq, .inr hp, by rw [encode_decode, hw]; rfl⟩

/-- In a sound engine the record names the active piston whose turn it was. -/
theorem State.Held.stepPiston_enterAbort_of_aborted {s t : State} (hheld : s.Held) {n : PistonId}
    (hs : s.phase ≠ .aborted) (h : s.stepPiston n = .next t) (ht : t.phase = .aborted) :
    ∃ k, ∃ p ∈ s.active, p.id = n ∧ t = { s.enterAbort k p (s.fetch p) with receiver := none } := by
  obtain ⟨q, k, p, hq, hp, rfl⟩ := State.stepPiston_enterAbort_of_aborted hs h ht
  have hmem : q ∈ s.active := List.mem_of_find?_eq_some hq
  have hid : q.id = n := by simpa using List.find?_some hq
  have hlocate : s.locate n = some q := hid ▸ hheld.locate_active hmem
  obtain rfl : p = q := hp.elim id fun hp => Option.some.inj (hp.symm.trans hlocate)
  exact ⟨k, p, hmem, hid, rfl⟩

/-! ### The pass an abort ends (R386) -/

/-- A pass that goes on, at its first piston: `KILL` has stopped it, or the piston steps and the pass ends there in an
abort or goes on with the rest. -/
theorem runPass_cons_cases {n : PistonId} {ns : List PistonId} {s t : State} (h : runPass (n :: ns) s = .next t) :
    (s.killed = true ∧ t = s) ∨
      (s.killed = false ∧ ∃ u, s.stepPiston n = .next u ∧
        ((u.phase = .aborted ∧ t = u) ∨ (u.phase ≠ .aborted ∧ runPass ns u = .next t))) := by
  unfold runPass at h
  split at h
  · cases h
    exact .inl ⟨‹_›, rfl⟩
  · refine .inr ⟨Bool.eq_false_iff.2 ‹_›, ?_⟩
    split at h
    · refine ⟨_, ‹_›, ?_⟩
      split at h
      · cases h
        exact .inl ⟨‹_›, rfl⟩
      · exact .inr ⟨‹_›, h⟩
    · cases h
    · cases h

/-- A pass over a list whose first part does not abort goes on with the second part. -/
theorem runPass_append {before : List PistonId} {s u : State} (h : runPass before s = .next u)
    (hu : u.phase ≠ .aborted) (ns : List PistonId) : runPass (before ++ ns) s = runPass ns u := by
  induction before generalizing s with
  | nil => cases h; rfl
  | cons n before ih =>
    rcases runPass_cons_cases h with ⟨hk, rfl⟩ | ⟨hk, t, ht, ⟨ha, rfl⟩ | ⟨hn, hrest⟩⟩
    · rw [runPass_of_killed hk, runPass_of_killed hk]
    · exact absurd ha hu
    · rw [List.cons_append, runPass_of_next hk ht hn, ih hrest]

/-- A pass that enters ABORTED did so at one piston's step: the pistons before it stepped without an abort, and its step
left the state the pass answers. -/
theorem runPass_first_failing {ns : List PistonId} {s t : State} (hs : s.phase ≠ .aborted)
    (h : runPass ns s = .next t) (ht : t.phase = .aborted) :
    ∃ before n after u, ns = before ++ n :: after ∧ runPass before s = .next u ∧ u.phase ≠ .aborted ∧
      u.stepPiston n = .next t := by
  induction ns generalizing s with
  | nil => cases h; exact absurd ht hs
  | cons n ns ih =>
    rcases runPass_cons_cases h with ⟨_, rfl⟩ | ⟨hk, v, hv, ⟨_, rfl⟩ | ⟨hn, hrest⟩⟩
    · exact absurd ht hs
    · exact ⟨[], n, ns, s, rfl, rfl, hs, hv⟩
    · obtain ⟨before, m, after, u, rfl, hbefore, hu, hm⟩ := ih hn hrest
      exact ⟨n :: before, m, after, u, rfl, (runPass_of_next hk hv hn before).trans hbefore, hu, hm⟩

/-- Settles O23: the pass comes to the failing piston and ends there, and an abort leaves the lists and the counter. -/
theorem firstFailingPistonEndsTheCycle : Obligations.FirstFailingPistonEndsTheCycle := by
  intro s u v before after n hi hp hids hbefore hu hk hv ha
  have hpass : runPass (s.active.map Piston.id) s.beginPass = .next v := by
    rw [hids, runPass_append hbefore hu, runPass_of_aborted hk hv ha]
  obtain ⟨_, hcycle, _⟩ := runPass_frame hpass
  obtain ⟨_, _, _, _, _, rfl⟩ := State.stepPiston_enterAbort_of_aborted hu hv ha
  refine ⟨?_, rfl, rfl, hcycle⟩
  rw [step_eq_runCycle hi hp, State.runCycle_of_pass hpass, State.afterPass, if_pos ha]
  rfl

/-! ### The abort record (10_state.md R52) -/

/-- A step of the machine that enters ABORTED is a cycle whose pass aborted. -/
theorem step_pass_of_aborted {s t : State} (hs : s.phase ≠ .aborted) (h : step s = .next t)
    (ht : t.phase = .aborted) :
    ∃ u, runPass (s.active.map Piston.id) s.beginPass = .next u ∧ u.phase = .aborted ∧ t = u.endPass := by
  obtain ⟨_, ⟨_, rfl⟩ | ⟨_, hrun⟩⟩ := stepCycle_cases h
  · exact absurd ht hs
  · obtain ⟨u, hu, ⟨ha, rfl⟩ | ⟨_, rfl⟩⟩ := State.runCycle_end hrun
    · exact ⟨u, hu, ha, rfl⟩
    · exact absurd ht (phaseAfterCycle_ne_aborted _)

/-- What the host reads in ABORTED of the record (44_host_interface.md R357, R358). -/
theorem State.observe_of_aborted {s : State} {a : AbortRecord} (hp : s.phase = .aborted) (ha : s.abort = some a) :
    s.observe.abort = some a ∧ s.observe.isAborted = true ∧ s.runOutcome = .aborted (some a) :=
  ⟨ha, by simp [State.observe, State.isAborted, hp], by simp only [State.runOutcome, hp, ha]⟩

/-- Settles O60: the pass stopped at the first failing piston, whose step did nothing but enter the abort. -/
theorem abortRecordNamesTheFailingPiston : Obligations.AbortRecordNamesTheFailingPiston := by
  refine ⟨fun _ _ _ _ _ _ _ => rfl, fun s t hinv hs h ht => ?_⟩
  obtain ⟨_, hpass, ha, rfl⟩ := step_pass_of_aborted hs h ht
  obtain ⟨before, n, after, u, hids, hbefore, hu, hn⟩ := runPass_first_failing (s := s.beginPass) hs hpass ha
  obtain ⟨hcfg, hcycle, _⟩ := runPass_frame hbefore
  obtain ⟨k, p, hp, rfl, rfl⟩ := (hinv.held.beginPass.runPass hbefore).stepPiston_enterAbort_of_aborted hu hn ha
  have hactive : p.id ∈ s.active.map Piston.id := by simp [hids]
  obtain ⟨habort, hflag, hrun⟩ := State.observe_of_aborted (a := ⟨k, u.cycle, p.id, p.x, p.y, u.fetch p⟩) ht rfl
  exact ⟨_, rfl, habort, hflag, hrun, hcycle, ⟨p, hp, rfl, rfl, rfl⟩,
    congrArg (fun c : Config => Grid.at c.grid p.x p.y) hcfg, List.mem_map.1 hactive⟩

/-! ### The way out of ABORTED (R390) -/

/-- In ABORTED a run stops at once, under any bound. -/
theorem runBounded_of_aborted {s : State} (hi : s.cfg.registry.initError = none) (hp : s.phase = .aborted) (k : Nat) :
    runBounded k s = .next s := by
  have hself : s.whenEngine s = .next s := State.whenEngine_eq_next_iff.2 ⟨hi, rfl⟩
  cases k with
  | zero => exact hself
  | succ k => simp only [runBounded, hp, hself]

/-- In ABORTED `kill()` empties the three lists and writes nothing else. -/
theorem State.killProcedure_of_aborted {s : State} (hp : s.phase = .aborted) : s.killProcedure = s.emptyLists := by
  rw [State.killProcedure, if_pos hp, ← hp]
  rfl

theorem State.resetProcedure_phase_ne_aborted (s : State) : s.resetProcedure.phase ≠ .aborted := by
  rw [State.resetProcedure_phase]
  split <;> simp

/-- Settles O24: the cycle and the run stop at once, `kill` empties the lists, and `reset` clears and seeds. -/
theorem onlyResetLeavesAborted : Obligations.OnlyResetLeavesAborted := by
  intro s hi hp
  refine ⟨step_of_ended_or_aborted hi (.inr hp), runBounded_of_aborted hi hp,
    State.whenEngine_eq_next_iff.2 ⟨hi, State.killProcedure_of_aborted hp⟩, s.resetProcedure,
    State.whenEngine_eq_next_iff.2 ⟨hi, rfl⟩, s.resetProcedure_phase_ne_aborted, ?_, ?_⟩
  · rw [State.resetProcedure_eq]
    rfl
  · rw [State.resetProcedure_active, startPistons, List.length_mapIdx]

end Sys2Proof.Machine
end

section
/-!
The reset and hazards family (70_reset_and_hazards.md): the state `reset` answers (R431), and the lone piston on a
`META_D5` cell (R441).
-/
namespace Sys2Proof.Machine

/-! ### `reset()` (R431) -/

/-- Settles O51: `reset` answers the state of its procedure, which is what it clears with the start points seeded. -/
theorem resetSeedsOnePistonPerStartPoint : Obligations.ResetSeedsOnePistonPerStartPoint :=
  fun s hinit => State.whenEngine_eq_next_iff.2 ⟨hinit, s.resetProcedure_eq⟩

/-! ### `META_D5` on a lone piston (40_decode_dispatch.md R168) -/

section
variable {s : State} {p : Piston} (hactive : s.active = [p]) (hdetached : s.detached = [])
include hactive hdetached

theorem State.locate_of_lone : s.locate p.id = some p := by
  rw [State.locate_of_active (by rw [hdetached, Map.get_nil]), hactive]
  exact List.find?_cons_of_pos (beq_self_eq_true p.id)

/-- Where the one piston changes, it is the one piston afterwards. -/
theorem State.OnlyPistonChanged.lone {t : State} {q : Piston} (h : s.OnlyPistonChanged p.id q t) :
    t.active = [q] ∧ t.detached = [] := by
  have hempty : t.detached = [] := by simpa [hdetached] using h.detachedIds
  obtain ⟨a, ha, hid⟩ : ∃ a, t.active = [a] ∧ a.id = p.id := by
    simpa [hactive, List.map_eq_singleton_iff] using h.activeIds
  have hfound : some a = some q := by rw [← State.locate_of_lone ha hempty, hid, h.located]
  exact ⟨Option.some.inj hfound ▸ ha, hempty⟩

end

/-- The piston after `META_D5` has stored its y coordinate in register `r`. -/
def Piston.storeY (c : Config) (r : RegName) (p : Piston) : Piston := p.setReg c.maxInteger r p.y c.optD5

theorem Piston.storeY_cell_self (c : Config) (r : RegName) (p : Piston) :
    (p.storeY c r).cell r = .val (p.y % c.maxInteger) c.optD5 := by
  rw [Piston.storeY, Piston.cell_setReg, if_pos rfl, modM_natCast]

theorem exec_metaD5_of_lone {s : State} {p : Piston} {reg : BitVec 3} {r : RegName} (hr : s.receiver = some p.id)
    (hactive : s.active = [p]) (hdetached : s.detached = []) (hsel : s.cfg.selReg reg = some r) (opts : BitVec 2)
    (arg : BitVec 12) : exec (.metaD5 reg opts arg) s = .next { s with active := [p.storeY s.cfg r] } := by
  have hp : s.locate p.id = some p := State.locate_of_lone hactive hdetached
  obtain ⟨t, hx, hchanged⟩ := metaD5Program_spec hr hp r
  obtain ⟨htactive, htdetached⟩ := hchanged.lone hactive hdetached
  rw [exec_metaD5 hsel, State.runHandler_of_finished hr hp hx, hchanged.frame, htactive, htdetached, ← hdetached]
  rfl

/-! ### A lone piston on a `META_D5` cell (R441) -/

/-- The one piston of an engine between cycles is `p`, and its place holds a `META_D5` word that selects `r`. -/
structure State.LoneOnMetaD5 (s : State) (p : Piston) (r : RegName) : Prop where
  engine : s.cfg.registry.initError = none
  phase : s.phase = .ready ∨ s.phase = .running
  active : s.active = [p]
  mq : s.mq = []
  detached : s.detached = []
  live : p.ended = false
  word : ∃ w reg opts arg, Grid.at s.cfg.grid p.x p.y = some w ∧ decode s.cfg w = .metaD5 reg opts arg ∧
    s.cfg.selReg reg = some r

/-- What one cycle leaves of such an engine. -/
def State.afterMetaD5Cycle (s : State) (p : Piston) (r : RegName) : State :=
  { s with
    phase := .running
    cycle := s.cycle + 1
    active := [p.storeY s.cfg r]
    snapshot := []
    killed := false
    receiver := none }

section
variable {s : State} {p : Piston} {r : RegName} (h : s.LoneOnMetaD5 p r)
include h

/-- The cycle executes the instruction, and then has no request to drain and no ended piston to prune. -/
theorem State.LoneOnMetaD5.step_eq : step s = .next (s.afterMetaD5Cycle p r) := by
  obtain ⟨w, reg, opts, arg, hw, hd, hsel⟩ := h.word
  obtain ⟨u, hu⟩ : ∃ u : State, u =
      { s with snapshot := [p.id], killed := false, receiver := some p.id, active := [p.storeY s.cfg r] } := ⟨_, rfl⟩
  have hexec : exec (.metaD5 reg opts arg) { s with snapshot := [p.id], killed := false, receiver := some p.id } =
      .next u := by
    rw [hu]
    apply exec_metaD5_of_lone
    exacts [rfl, h.active, h.detached, hsel]
  have hgoes : u.phase ≠ .aborted := by rw [hu]; rcases h.phase with hp | hp <;> exact hp ▸ nofun
  have hdrain : u.drain = u := State.drain_of_mq_nil (by rw [hu]; exact h.mq)
  obtain ⟨t, ht, hactive, hmq, hdetached, hcycle, -, hrunning, hframe⟩ :=
    (stepOfOnePistonRunsItsInstruction s u p w _ h.engine h.phase h.active hw hd hexec).2 hgoes
  have hlone : t.active = [p.storeY s.cfg r] := by
    rw [hactive, hdrain, hu]
    exact List.filter_cons_of_pos (congrArg not h.live)
  have hphase : t.phase = .running := hrunning.2 (by rw [hlone]; exact nofun)
  rw [ht, hframe, hlone, hmq, hdetached, hcycle, hphase, hdrain, hu, ← h.mq]
  rfl

/-- The piston has not moved, so the next cycle finds it on the same word. -/
theorem State.LoneOnMetaD5.afterMetaD5Cycle : (s.afterMetaD5Cycle p r).LoneOnMetaD5 (p.storeY s.cfg r) r where
  engine := h.engine
  phase := .inr rfl
  active := rfl
  mq := h.mq
  detached := h.detached
  live := h.live
  word := h.word

/-- The run goes on (44_host_interface.md R353): each further cycle starts from such an engine again. -/
theorem State.LoneOnMetaD5.run (k : Nat) :
    ∃ t p', Host.Core.run core (k + 1) s = .next t ∧ t.phase = .running ∧ t.cycle = s.cycle + (k + 1) ∧
      t.active = [p'] ∧ p' = { p with reg := p'.reg } ∧ p'.cell r = .val (p.y % s.cfg.maxInteger) s.cfg.optD5 ∧
      t.mem = s.mem ∧ t.output = s.output ∧ t.input = s.input := by
  induction k generalizing s p with
  | zero =>
    exact ⟨_, _, (run_next 0 h.step_eq).trans (run_zero _), rfl, rfl, rfl, rfl, p.storeY_cell_self s.cfg r, rfl, rfl,
      rfl⟩
  | succ k ih =>
    obtain ⟨t, p', hrun, hphase, hcycle, hkept⟩ := ih h.afterMetaD5Cycle
    exact ⟨t, p', (run_next (k + 1) h.step_eq).trans hrun, hphase, hcycle.trans (Nat.add_right_comm _ 1 _), hkept⟩

end

/-- Settles O14: such an engine is `LoneOnMetaD5`, which every cycle keeps. -/
theorem lonePistonOnMetaD5RunsForever : Obligations.LonePistonOnMetaD5RunsForever :=
  fun _ _ w reg opts arg _ hinit hphase hactive hmq hdetached hlive hw hd hsel =>
    State.LoneOnMetaD5.run ⟨hinit, hphase, hactive, hmq, hdetached, hlive, w, reg, opts, arg, hw, hd, hsel⟩

end Sys2Proof.Machine
end
